-- ==== Sys2Proof/Word.lean ====
section
/-! DEFINITION. The words of HTB (00_scope.md R7, R8) and the bit sequences of its codes and streams (R9). -/

namespace Sys2Proof

/-- A host-visible register or a command word, 32 bits (R7). Bit 0 is the least significant bit (R8). -/
abbrev Word := BitVec 32

/-- A byte value 0..255 (R7). -/
abbrev Byte := BitVec 8

/-- A weight or count, `u64` (R7). -/
abbrev U64 := BitVec 64

/-- A bit sequence (R9): position 0 is the first bit, nearest the root of a tree and first in a stream. -/
abbrev Bits := List Bool

/-- One entry for each byte value 0..255. -/
abbrev ByteTable (α : Type) := Vector α 256

end Sys2Proof
end

