-- ==== Sys2Proof/Syntax.lean ====
section
/-! DEFINITION. The HTB command set, version 1 (30_encoding.md R65): one constructor for each row of the opcode table. -/

namespace Sys2Proof

/-- A command with the operands its word carries: VAL and LEN are unsigned bytes (R64, R68). Operands that do not fit
in the word are in ARG0, ARG1 and CODEBUF (R63) and so in State. -/
inductive Instr where
  | nop
  | clearStatus
  | softReset
  | freqClear
  | freqSet (v : Byte)
  | freqGet (v : Byte)
  | build
  | readNode
  | genCodes
  | getCode (v : Byte)
  | pkReset
  /-- `b` is the whole VAL field; only 0 and 1 are legal (R69). -/
  | pkAppendBit (b : Byte)
  | pkAppendBits (n : Byte)
  | pkEncode (v : Byte)
  | pkFinish
  | upStart (k : Byte)
  | upNextBit
  | decClear
  | decInsert (v : Byte) (n : Byte)
  | decStep
deriving DecidableEq, Repr

/-- The mnemonic of R65. -/
def Instr.mnemonic : Instr → String
  | .nop => "NOP"
  | .clearStatus => "CLEAR_STATUS"
  | .softReset => "SOFT_RESET"
  | .freqClear => "FREQ_CLEAR"
  | .freqSet _ => "FREQ_SET"
  | .freqGet _ => "FREQ_GET"
  | .build => "BUILD"
  | .readNode => "READ_NODE"
  | .genCodes => "GEN_CODES"
  | .getCode _ => "GET_CODE"
  | .pkReset => "PK_RESET"
  | .pkAppendBit _ => "PK_APPEND_BIT"
  | .pkAppendBits _ => "PK_APPEND_BITS"
  | .pkEncode _ => "PK_ENCODE"
  | .pkFinish => "PK_FINISH"
  | .upStart _ => "UP_START"
  | .upNextBit => "UP_NEXT_BIT"
  | .decClear => "DEC_CLEAR"
  | .decInsert _ _ => "DEC_INSERT"
  | .decStep => "DEC_STEP"

end Sys2Proof
end

