-- ==== Sys2Proof/WellFormed.lean ====
section
/-! DEFINITION. Which terms of Instr are commands: the one operand check of the encoding (30_encoding.md R69). -/

namespace Sys2Proof

/-- R66 and R69: VAL of PK_APPEND_BIT is 0 or 1. Every other operand is a whole byte (R68); operand values a command
rejects when it runs are legal words (R70). -/
def Instr.wellFormed : Instr → Bool
  | .pkAppendBit b => b.toNat ≤ 1
  | .nop | .clearStatus | .softReset | .freqClear | .freqSet _ | .freqGet _ | .build | .readNode | .genCodes
  | .getCode _ | .pkReset | .pkAppendBits _ | .pkEncode _ | .pkFinish | .upStart _ | .upNextBit | .decClear
  | .decInsert _ _ | .decStep => true

end Sys2Proof
end

