-- ==== Sys2Proof/Decode.lean ====
section
/-! DEFINITION. Command words (30_encoding.md R63–R69, R73, R77): decoding, total on every 32-bit word and refusing by
name; then the encoder, the opcode table and the disassembler. -/

namespace Sys2Proof

/-! ### Fields (R64) -/

def opField (w : Word) : Byte := w.extractLsb' 24 8
def rsvField (w : Word) : Byte := w.extractLsb' 16 8
def lenField (w : Word) : Byte := w.extractLsb' 8 8
def valField (w : Word) : Byte := w.extractLsb' 0 8

/-! ### Decoding (R66) -/

/-- Why a word is illegal (R69). Each reason ends the command E_ILLEGAL. -/
inductive DecodeError where
  | unassignedOp
  | rsvNonzero
  | lenNonzero
  | valNonzero
  | bitAboveOne
deriving DecidableEq, Repr

/-- One row of the field-use table of R65: the opcode, whether LEN and VAL carry operands, and the command. -/
structure OpRow where
  op : Byte
  lenUsed : Bool
  valUsed : Bool
  command : Byte → Byte → Instr

/-- The field-use table of R65, in its order. `command` takes LEN, then VAL. -/
def opRows : List OpRow := [
  ⟨0x00, false, false, fun _ _ => .nop⟩,
  ⟨0x01, false, false, fun _ _ => .clearStatus⟩,
  ⟨0x02, false, false, fun _ _ => .softReset⟩,
  ⟨0x10, false, false, fun _ _ => .freqClear⟩,
  ⟨0x11, false, true, fun _ v => .freqSet v⟩,
  ⟨0x12, false, true, fun _ v => .freqGet v⟩,
  ⟨0x13, false, false, fun _ _ => .build⟩,
  ⟨0x14, false, false, fun _ _ => .readNode⟩,
  ⟨0x20, false, false, fun _ _ => .genCodes⟩,
  ⟨0x21, false, true, fun _ v => .getCode v⟩,
  ⟨0x30, false, false, fun _ _ => .pkReset⟩,
  ⟨0x31, false, true, fun _ v => .pkAppendBit v⟩,
  ⟨0x32, true, false, fun n _ => .pkAppendBits n⟩,
  ⟨0x33, false, true, fun _ v => .pkEncode v⟩,
  ⟨0x34, false, false, fun _ _ => .pkFinish⟩,
  ⟨0x40, true, false, fun k _ => .upStart k⟩,
  ⟨0x41, false, false, fun _ _ => .upNextBit⟩,
  ⟨0x50, false, false, fun _ _ => .decClear⟩,
  ⟨0x51, true, true, fun n v => .decInsert v n⟩,
  ⟨0x52, false, false, fun _ _ => .decStep⟩]

/-- R66, the checks in its order. -/
def decode (w : Word) : Except DecodeError Instr :=
  match opRows.find? (fun r => r.op == opField w) with
  | none => .error .unassignedOp
  | some r =>
    if rsvField w ≠ 0 then .error .rsvNonzero
    else if r.lenUsed = false ∧ lenField w ≠ 0 then .error .lenNonzero
    else if r.valUsed = false ∧ valField w ≠ 0 then .error .valNonzero
    else if opField w = 0x31 ∧ 1 < (valField w).toNat then .error .bitAboveOne
    else .ok (r.command (lenField w) (valField w))

/-- The instruction the decoder reads from an opcode-table word of `nbits` bits. Every command is one 32-bit word
(R63), so a table word of fewer bits has zeros above it and a longer one is none. -/
def decodeTableWord (nbits w : Nat) : Option Instr :=
  if nbits ≤ 32 ∧ w < 2 ^ nbits then (decode (BitVec.ofNat 32 w)).toOption else none

/-! ### Encoding (R73: `(OP << 24) | (LEN << 8) | VAL`) -/

/-- A command word from its fields, with RSV = 0. -/
def commandWord (op len val : Byte) : Word :=
  (op.setWidth 32 <<< 24) ||| (len.setWidth 32 <<< 8) ||| val.setWidth 32

/-- The word of a well-formed command (R65, R73). -/
def encode : Instr → Word
  | .nop => commandWord 0x00 0 0
  | .clearStatus => commandWord 0x01 0 0
  | .softReset => commandWord 0x02 0 0
  | .freqClear => commandWord 0x10 0 0
  | .freqSet v => commandWord 0x11 0 v
  | .freqGet v => commandWord 0x12 0 v
  | .build => commandWord 0x13 0 0
  | .readNode => commandWord 0x14 0 0
  | .genCodes => commandWord 0x20 0 0
  | .getCode v => commandWord 0x21 0 v
  | .pkReset => commandWord 0x30 0 0
  | .pkAppendBit b => commandWord 0x31 0 b
  | .pkAppendBits n => commandWord 0x32 n 0
  | .pkEncode v => commandWord 0x33 0 v
  | .pkFinish => commandWord 0x34 0 0
  | .upStart k => commandWord 0x40 k 0
  | .upNextBit => commandWord 0x41 0 0
  | .decClear => commandWord 0x50 0 0
  | .decInsert v n => commandWord 0x51 n v
  | .decStep => commandWord 0x52 0 0

/-! ### The machine-readable opcode table (R77) -/

/-- One row of opcode_table.json: `w &&& mask = pattern` holds exactly when w is a legal spelling of the command. -/
structure TableRow where
  mnemonic : String
  pattern : Word
  mask : Word
deriving DecidableEq, Repr

/-- The rows of opcode_table.json, transcribed. -/
def opcodeTable : List TableRow := [
  ⟨"NOP", 0x00000000, 0xFFFFFFFF⟩,
  ⟨"CLEAR_STATUS", 0x01000000, 0xFFFFFFFF⟩,
  ⟨"SOFT_RESET", 0x02000000, 0xFFFFFFFF⟩,
  ⟨"FREQ_CLEAR", 0x10000000, 0xFFFFFFFF⟩,
  ⟨"FREQ_SET", 0x11000000, 0xFFFFFF00⟩,
  ⟨"FREQ_GET", 0x12000000, 0xFFFFFF00⟩,
  ⟨"BUILD", 0x13000000, 0xFFFFFFFF⟩,
  ⟨"READ_NODE", 0x14000000, 0xFFFFFFFF⟩,
  ⟨"GEN_CODES", 0x20000000, 0xFFFFFFFF⟩,
  ⟨"GET_CODE", 0x21000000, 0xFFFFFF00⟩,
  ⟨"PK_RESET", 0x30000000, 0xFFFFFFFF⟩,
  ⟨"PK_APPEND_BIT", 0x31000000, 0xFFFFFFFE⟩,
  ⟨"PK_APPEND_BITS", 0x32000000, 0xFFFF00FF⟩,
  ⟨"PK_ENCODE", 0x33000000, 0xFFFFFF00⟩,
  ⟨"PK_FINISH", 0x34000000, 0xFFFFFFFF⟩,
  ⟨"UP_START", 0x40000000, 0xFFFF00FF⟩,
  ⟨"UP_NEXT_BIT", 0x41000000, 0xFFFFFFFF⟩,
  ⟨"DEC_CLEAR", 0x50000000, 0xFFFFFFFF⟩,
  ⟨"DEC_INSERT", 0x51000000, 0xFFFF0000⟩,
  ⟨"DEC_STEP", 0x52000000, 0xFFFFFFFF⟩]

/-! ### Disassembly (R73) -/

/-- The `n` low hexadecimal digits of `x`, upper case. -/
def hexDigits : Nat → Nat → String
  | 0, _ => ""
  | n + 1, x => hexDigits n (x / 16) ++ String.singleton (("0123456789ABCDEF".toList)[x % 16]?.getD '0')

/-- The operands a command's spelling shows, in R73's order: VAL, then LEN. -/
def Instr.shownOperands : Instr → List Byte
  | .freqSet v | .freqGet v | .getCode v | .pkEncode v => [v]
  | .pkAppendBit b => [b]
  | .pkAppendBits n => [n]
  | .upStart k => [k]
  | .decInsert v n => [v, n]
  | .nop | .clearStatus | .softReset | .freqClear | .build | .readNode | .genCodes | .pkReset | .pkFinish
  | .upNextBit | .decClear | .decStep => []

/-- The spelling of R73. R73 lets a byte value be a quoted character or a number: numbers here, in decimal (log 21). -/
def Instr.spelling (i : Instr) : String :=
  match i.shownOperands with
  | [] => i.mnemonic
  | x :: rest => rest.foldl (fun s y => s ++ ", " ++ toString y.toNat) (i.mnemonic ++ " " ++ toString x.toNat)

/-- R73: a legal word prints in its spelling, an illegal one as `.word 0xXXXXXXXX`. -/
def disassemble (w : Word) : String :=
  match decode w with
  | .ok i => i.spelling
  | .error _ => ".word 0x" ++ hexDigits 8 w.toNat

end Sys2Proof
end

