-- ==== Sys2Proof/Config.lean ====
section
/-! DEFINITION. What one instance of HTB fixes: the constants of the register map and the two size parameters (00_scope.md R7). -/

namespace Sys2Proof

/-- The constant the ID register reads (10_state.md R19). -/
def idValue : Word := 0x48544231

/-- The size of the register aperture in bytes (20_memory.md R38). -/
def regApertureBytes : Nat := 4096

/-- The size parameters of an instance (00_scope.md R7), readable in CFG_PAY and CFG_DEC (10_state.md R19).
State holds them, so that a statement about every state is a statement about every instance (log 1). -/
structure Params where
  /-- `PAY_BYTES`, the size of PAY in bytes. -/
  payBytes : Nat
  /-- `DEC_INT_CAP`, the capacity of the decoder tree in internal nodes, root included. -/
  decIntCap : Nat
deriving DecidableEq, Repr

/-- The ranges R7 gives the parameters. -/
abbrev Params.wf (p : Params) : Prop :=
  1 ≤ p.payBytes ∧ p.payBytes ≤ 2 ^ 32 - 1 ∧ 255 ≤ p.decIntCap ∧ p.decIntCap ≤ 65025

/-- The instance of State.reset. DEC_INT_CAP is the spec's default (R7). PAY_BYTES is open: DESIGN CHOICE 64, the
value the test vectors of 95_test_vectors.md take unless they say otherwise (log 1). -/
def Params.default : Params where
  payBytes := 64
  decIntCap := 65025

/-- Where a platform places the two apertures (R7 `REG_BASE`, `PAY_BASE`, 20_memory.md R54). Outside State: the port
sees an aperture and an offset only (R37). -/
structure Platform where
  regBase : Nat
  payBase : Nat
deriving DecidableEq, Repr

end Sys2Proof
end

