-- ==== Sys2Proof/Machine/State.lean ====
section
/-! DEFINITION. The architectural state of HTB (10_state.md), the events of its host port (20_memory.md, 70_reset_and_hazards.md)
and the state after reset (10_state.md R35). -/

namespace Sys2Proof.Machine

/-! ### Outcomes, faults, refusals -/

/-- The outcome of a command (60_exceptions.md R136). Code 3 is reserved and has no constructor: it is never produced. -/
inductive CmdOutcome where
  | ok
  | empty
  | endOfData
  | eIllegal
  | eSequence
  | eOverflow
  | eNoCode
  | eBadLength
  | eDuplicate
  | ePrefix
  | eTruncated
  | eNoChild
  | ePayloadFull
  | eBadArgs
  | eNodeFull
deriving DecidableEq, Repr

/-- Why a run stops. -/
inductive Fault where
  /-- The model fault of 60_exceptions.md R144: a read of PAY byte `offset`, whose written mark WR is 0. Raised by a host
  payload read, UP_NEXT_BIT and DEC_STEP. Safe: real hardware goes on with some unspecified byte, the model stops. -/
  | unwrittenPayload (offset : Nat)
deriving DecidableEq, Repr

/-- Why an instruction has no meaning. -/
inductive Refusal where
  /-- Raised by an arm of `exec` whose instruction is not modelled. Safe: the model stops. No arm raises it: every
  command of the table has its meaning. -/
  | notModelled (mnemonic : String)
deriving DecidableEq, Repr

/-! ### The tree builder and the code table -/

/-- R27: a 10-bit child reference. `none` is NONE (VALID = 0, INDEX reads 0), `some i` is VALID = 1 with INDEX = i. -/
abbrev ChildRef := Option (BitVec 9)

/-- An internal slot of NODE (R25). -/
structure InnerNode where
  weight : U64
  left : ChildRef
  right : ChildRef
deriving DecidableEq, Repr

/-- NODE and the builder's bookkeeping (R25, R26). -/
structure Builder where
  /-- The weights of leaf slots 0..255 of NODE. -/
  leafWeight : ByteTable U64
  /-- Internal slots 256..510 of NODE: entry `s` is slot `256 + s`, creation sequence number `s`. -/
  inner : Vector InnerNode 255
  /-- INTREE. -/
  inTree : ByteTable Bool
  /-- NLEAVES, 0..256. -/
  nLeaves : Nat
  /-- NINT, 0..255. -/
  nInt : Nat
  /-- ROOT, a slot index. -/
  root : BitVec 9
  /-- TREE_VALID. -/
  valid : Bool
deriving DecidableEq, Repr

/-- The code table (R28). -/
structure CodeTable where
  /-- CLEN. -/
  clen : ByteTable (BitVec 8)
  /-- CBITS: positions at and above the sequence's length read 0. -/
  cbits : ByteTable Bits
  /-- NCODES, 0..256. -/
  nCodes : Nat
  /-- MAXLEN, 0..255. -/
  maxLen : Nat
  /-- CODES_VALID. -/
  valid : Bool
deriving DecidableEq, Repr

/-! ### The packer, the unpacker and the decoder -/

/-- The packer (R29). -/
structure Packer where
  /-- PK_CUR. -/
  cur : Byte
  /-- PK_NB, 0..7. -/
  nb : Nat
  /-- PK_WPTR. -/
  wptr : Word
  /-- PK_CLOSED. -/
  closed : Bool
deriving DecidableEq, Repr

/-- The unpacker (R30). -/
structure Unpacker where
  /-- UP_LEN. -/
  len : Word
  /-- UP_VALID, 1..8. -/
  valid : BitVec 4
  /-- UP_POS. -/
  pos : BitVec 35
deriving DecidableEq, Repr

/-- A child slot of a decoder node (R31, DChild). -/
inductive DChild where
  | none
  | leaf (v : Byte)
  | node (j : Nat)
deriving DecidableEq, Repr

/-- A decoder node (R31): `c0` is followed on bit 0, `c1` on bit 1. -/
structure DNode where
  c0 : DChild
  c1 : DChild
deriving DecidableEq, Repr

/-- {NONE, NONE}. -/
def DNode.empty : DNode := ⟨.none, .none⟩

/-- The decoder tree (R31). -/
structure Decoder where
  /-- DN: the nodes other than {NONE, NONE}, by index, indices strictly rising (log 6). -/
  dn : List (Nat × DNode)
  /-- DN_COUNT. -/
  dnCount : Nat
  /-- SEEN. -/
  seen : ByteTable Bool
  /-- DEC_NENT. -/
  nEnt : Nat
deriving DecidableEq, Repr

/-- PAY with its written marks (R32): the written bytes by offset, offsets strictly rising. WR[a] = 1 exactly when `a`
is listed; an unlisted offset has no value. -/
abbrev Memory := List Host.Cell

/-! ### The host port (20_memory.md R37) -/

inductive Aperture where
  | reg
  | pay
deriving DecidableEq, Repr

/-- The access sizes of R37. -/
inductive Size where
  | one
  | two
  | four
deriving DecidableEq, Repr

def Size.bytes : Size → Nat
  | .one => 1
  | .two => 2
  | .four => 4

/-- A host transaction (R37); `offset` is a byte offset in the aperture. A write of n bytes uses the n low bytes of
`data` (log 17). -/
inductive Transaction where
  | read (aperture : Aperture) (offset : Nat) (size : Size)
  | write (aperture : Aperture) (offset : Nat) (size : Size) (data : Word)
deriving DecidableEq, Repr

/-- The port's answer to a transaction (R37). -/
inductive Answer where
  /-- OK, with the data of a read. -/
  | ok (data : Option Word)
  /-- BUS_ERROR (R49). -/
  | busError
  /-- What a CMD write cut short by a reset gets: not OK, otherwise the platform's (70_reset_and_hazards.md R154, log 9). -/
  | abandoned
deriving DecidableEq, Repr

/-- The reset inputs (70_reset_and_hazards.md R153). SOFT_RESET is a command. -/
inductive ResetKind where
  | powerOn
  | hardware
deriving DecidableEq, Repr

/-- What the outside does to HTB. -/
inductive PortEvent where
  | access (t : Transaction)
  /-- A reset; with `cutsCommand`, it arrives while a CMD write is stalled (R154). -/
  | reset (kind : ResetKind) (cutsCommand : Bool)
deriving DecidableEq, Repr

/-! ### The state -/

/-- Everything 10_state.md gives HTB, the instance's parameters, and two fields of the model: the events the port has
yet to take and its last answer. -/
structure State where
  /-- PAY_BYTES and DEC_INT_CAP, which CFG_PAY and CFG_DEC read (R7, R19). No step changes them. -/
  params : Params
  /-- CMD (R18). -/
  cmd : Word
  /-- STATUS.ERR (R20). -/
  err : Bool
  /-- STATUS.LASTRES (R20). -/
  lastRes : CmdOutcome
  /-- ARG0 (R21). -/
  arg0 : Word
  /-- ARG1 (R21). -/
  arg1 : Word
  /-- RES0 (R22). -/
  res0 : Word
  /-- RES1 (R22). -/
  res1 : Word
  /-- RES2 (R22). -/
  res2 : Word
  /-- RES3 (R22). -/
  res3 : Word
  /-- CODEBUF, as CB0..CB7 (R23). -/
  cb : Vector Word 8
  /-- FREQ (R24). -/
  freq : ByteTable U64
  /-- NODE and the bookkeeping of the tree builder (R25, R26). -/
  builder : Builder
  /-- The code table (R28). -/
  codes : CodeTable
  /-- The bit packer (R29). -/
  packer : Packer
  /-- The bit unpacker (R30). -/
  unpacker : Unpacker
  /-- The decoder tree (R31). -/
  decoder : Decoder
  /-- PAY and WR (R32). -/
  pay : Memory
  /-- The model's own: the host's transactions and resets the port has yet to take, oldest first (R56, log 2). -/
  pending : List PortEvent
  /-- The model's own: the port's answer to the last transaction (R37, log 8). -/
  answer : Option Answer
deriving DecidableEq, Repr

/-! ### Reset (R35) -/

/-- The builder after a power-on reset. NODE is unspecified and unobservable: DESIGN CHOICE zero weights and no children
(log 4). -/
def Builder.reset : Builder where
  leafWeight := Vector.replicate 256 0
  inner := Vector.replicate 255 ⟨0, none, none⟩
  inTree := Vector.replicate 256 false
  nLeaves := 0
  nInt := 0
  root := 0
  valid := false

/-- The code table after a power-on reset. CLEN and CBITS are unspecified and unobservable: DESIGN CHOICE no codes (log 5). -/
def CodeTable.reset : CodeTable where
  clen := Vector.replicate 256 0
  cbits := Vector.replicate 256 []
  nCodes := 0
  maxLen := 0
  valid := false

def Packer.reset : Packer where
  cur := 0
  nb := 0
  wptr := 0
  closed := false

def Unpacker.reset : Unpacker where
  len := 0
  valid := 8
  pos := 0

/-- The decoder tree after a power-on reset. DN[1..] is unspecified and unreachable: DESIGN CHOICE {NONE, NONE} (log 6). -/
def Decoder.reset : Decoder where
  dn := []
  dnCount := 1
  seen := Vector.replicate 256 false
  nEnt := 0

/-- The state after a power-on reset of the instance with parameters `p` (R35, R153). -/
def State.resetWith (p : Params) : State where
  params := p
  cmd := 0
  err := false
  lastRes := .ok
  arg0 := 0
  arg1 := 0
  res0 := 0
  res1 := 0
  res2 := 0
  res3 := 0
  cb := Vector.replicate 8 0
  freq := Vector.replicate 256 0
  builder := Builder.reset
  codes := CodeTable.reset
  packer := Packer.reset
  unpacker := Unpacker.reset
  decoder := Decoder.reset
  pay := []
  pending := []
  answer := none

/-- The machine right after a power-on reset, of the instance `Params.default` (log 1). -/
def State.reset : State := State.resetWith Params.default

end Sys2Proof.Machine
end

