-- ==== Sys2Proof/Machine/Flags.lean ====
section
/-! DEFINITION. Outcome codes (60_exceptions.md R136) and the STATUS word (10_state.md R20). -/

namespace Sys2Proof.Machine

/-- The 4-bit outcome code (R136). -/
def CmdOutcome.code : CmdOutcome → BitVec 4
  | .ok => 0
  | .empty => 1
  | .endOfData => 2
  | .eIllegal => 4
  | .eSequence => 5
  | .eOverflow => 6
  | .eNoCode => 7
  | .eBadLength => 8
  | .eDuplicate => 9
  | .ePrefix => 10
  | .eTruncated => 11
  | .eNoChild => 12
  | .ePayloadFull => 13
  | .eBadArgs => 14
  | .eNodeFull => 15

/-- Codes 4 to 15 are errors (R136). -/
def CmdOutcome.isError (o : CmdOutcome) : Bool := 4 ≤ o.code.toNat

/-- A flag at bit `n` of a word. -/
def flagBit (n : Nat) (b : Bool) : Word := (BitVec.ofBool b).setWidth 32 <<< n

/-- STATUS[11]: DEC_NENT > 0 (R20, R31). -/
def Decoder.nonempty (d : Decoder) : Bool := 0 < d.nEnt

/-- STATUS as the host reads it (R20); bits 3:1 and 31:12 read 0. -/
def statusWord (s : State) : Word :=
  flagBit 0 s.err ||| (s.lastRes.code.setWidth 32 <<< 4) ||| flagBit 8 s.builder.valid ||| flagBit 9 s.codes.valid
    ||| flagBit 10 s.packer.closed ||| flagBit 11 s.decoder.nonempty

end Sys2Proof.Machine
end

