-- ==== Sys2Proof/Machine/Ops.lean ====
section
/-! DEFINITION. The operations every meaning is written in: how a command ends, the byte tables, PAY, the bit order of
streams, the decoder node RAM. -/

namespace Sys2Proof.Machine

/-- What a command or a step answers. -/
abbrev Result := Host.Outcome State Fault Refusal

/-! ### How a command ends (60_exceptions.md R136–R142) -/

/-- A non-error end's record: LASTRES (R137, R142). -/
def State.ended (s : State) (o : CmdOutcome) : State := { s with lastRes := o }

/-- An error's record: LASTRES takes the code and ERR becomes 1 (R137, R140). -/
def State.failed (s : State) (e : CmdOutcome) : State := { s with lastRes := e, err := true }

/-- `finish OUTCOME` (00_scope.md R11): a non-error end keeps the command's changes and writes LASTRES. -/
def finish (o : CmdOutcome) (s : State) : Result := .next (s.ended o)

/-- `raise E_NAME` (R11, R140), HTB's exception entry. `s` is the state before the command, CMD holding its word: every
other change is discarded, LASTRES takes the code and ERR becomes 1. Nothing else is saved and control goes nowhere. -/
def raise (e : CmdOutcome) (s : State) : Result := .next (s.failed e)

/-- Ends a command on the state `s` before it: OK with the new state, or the error with every change discarded. -/
def complete (s : State) : Except CmdOutcome State → Result
  | .ok t => finish .ok t
  | .error e => raise e s

/-! ### Tables indexed by byte value -/

def ByteTable.get {α : Type} (t : ByteTable α) (v : Byte) : α := t[v.toNat]'v.isLt

def ByteTable.put {α : Type} (t : ByteTable α) (v : Byte) (x : α) : ByteTable α := t.set v.toNat x v.isLt

/-- The byte values of a table whose entries satisfy `p`, in ascending order. -/
def ByteTable.keysWhere {α : Type} (t : ByteTable α) (p : α → Bool) : List Nat :=
  (t.toList.zipIdx.filter fun e => p e.1).map fun e => e.2

/-! ### Sparse storage: entries by key, keys strictly rising -/

/-- The canonical form: keys strictly rise, so none repeats. -/
abbrev KeysRise {α : Type} (m : List (Nat × α)) : Prop := m.Pairwise fun x y => x.1 < y.1

def sparseGet {α : Type} : List (Nat × α) → Nat → Option α
  | [], _ => none
  | (a, x) :: rest, k => if a = k then some x else sparseGet rest k

def sparsePut {α : Type} : List (Nat × α) → Nat → α → List (Nat × α)
  | [], k, x => [(k, x)]
  | (a, y) :: rest, k, x =>
    if k < a then (k, x) :: (a, y) :: rest
    else if k = a then (k, x) :: rest
    else (a, y) :: sparsePut rest k x

def sparseErase {α : Type} (m : List (Nat × α)) (k : Nat) : List (Nat × α) := m.filter fun e => e.1 ≠ k

/-! ### PAY (10_state.md R32, 20_memory.md R45–R48, R62) -/

/-- The canonical form of PAY. An unlisted offset has no value, so no entry can repeat what one reads as. -/
abbrev Memory.wf (m : Memory) : Prop := KeysRise m

/-- PAY[a], or nothing where WR[a] = 0. -/
def Memory.read (m : Memory) (a : Nat) : Option Byte := sparseGet m a

/-- `PAY[a] <- b; WR[a] <- 1`. -/
def Memory.write (m : Memory) (a : Nat) (b : Byte) : Memory := sparsePut m a b

/-- A read of PAY[a] by the host or a command: a model fault where nothing has written it (R144). -/
def Memory.load (m : Memory) (a : Nat) : Except Fault Byte :=
  match Memory.read m a with
  | some b => .ok b
  | none => .error (.unwrittenPayload a)

/-- `MemRead(a, n)` (00_scope.md R11, R45): n bytes, little-endian. -/
def memRead (m : Memory) : Nat → Nat → Except Fault Word
  | _, 0 => .ok 0
  | a, n + 1 =>
    match Memory.load m a with
    | .error f => .error f
    | .ok b =>
      match memRead m (a + 1) n with
      | .error f => .error f
      | .ok hi => .ok (hi <<< 8 ||| b.setWidth 32)

/-- `MemWrite(a, n, v)` (R11, R45) with its written marks (R47): the n low bytes of v, little-endian. -/
def memWrite (m : Memory) : Nat → Nat → Word → Memory
  | _, 0, _ => m
  | a, n + 1, v => memWrite (Memory.write m a (v.setWidth 8)) (a + 1) n (v >>> 8)

/-- WR[a..a+n−1] <- 0 (70_reset_and_hazards.md R154). -/
def Memory.clearMarks (m : Memory) (a n : Nat) : Memory := m.filter fun e => decide (e.1 < a ∨ a + n ≤ e.1)

/-! ### The bit order of streams (00_scope.md R10, 20_memory.md R50) -/

/-- Bit `7 − (p & 7)` of a byte, for stream position p: the first bit is the most significant. -/
def byteBit (b : Byte) (p : Nat) : Bool := b.getLsbD (7 - p % 8)

/-- The byte whose bits at stream positions 0..7 are `f 0 .. f 7`. -/
def byteOfBits (f : Nat → Bool) : Byte :=
  (List.range 8).foldl (fun acc m => acc <<< 1 ||| (BitVec.ofBool (f m)).setWidth 8) 0

/-- `bit(p)` (R11): the payload bit at stream position p. -/
def streamBit (m : Memory) (p : Nat) : Except Fault Bool :=
  match Memory.load m (p / 8) with
  | .ok b => .ok (byteBit b p)
  | .error f => .error f

/-! ### 64-bit and 35-bit quantities in registers (20_memory.md R46) -/

/-- Bits 31:0. -/
def low32 (x : U64) : Word := x.setWidth 32

/-- Bits 63:32. -/
def high32 (x : U64) : Word := (x >>> 32).setWidth 32

/-- A stream position's bits 31:0 and 34:32, as two registers (R108, R110, R117). -/
def posLow (x : BitVec 35) : Word := x.setWidth 32
def posHigh (x : BitVec 35) : Word := (x >>> 32).setWidth 32

/-! ### The decoder node RAM (10_state.md R31) -/

/-- DN[i]. -/
def Decoder.nodeAt (d : Decoder) (i : Nat) : DNode := (sparseGet d.dn i).getD DNode.empty

/-- `DN[i] <- n`. A node {NONE, NONE} is not listed (log 6). -/
def Decoder.setNode (d : Decoder) (i : Nat) (n : DNode) : Decoder :=
  { d with dn := if n = DNode.empty then sparseErase d.dn i else sparsePut d.dn i n }

/-- `child(j, b)` (45_decoder.md R114). -/
def DNode.child (n : DNode) (b : Bool) : DChild := if b then n.c1 else n.c0

/-- `child(j, b) <- c` on one node. -/
def DNode.setChild (n : DNode) (b : Bool) (c : DChild) : DNode :=
  if b then { n with c1 := c } else { n with c0 := c }

/-- `child(i, b)` in DN. -/
def Decoder.child (d : Decoder) (i : Nat) (b : Bool) : DChild := (d.nodeAt i).child b

/-- `child(i, b) <- c` in DN. -/
def Decoder.setChild (d : Decoder) (i : Nat) (b : Bool) (c : DChild) : Decoder :=
  d.setNode i ((d.nodeAt i).setChild b c)

end Sys2Proof.Machine
end

