-- ==== Sys2Proof/Machine/Operands.lean ====
section
/-! DEFINITION. How operands are assembled (30_encoding.md R68): the code buffer, the count, child references. -/

namespace Sys2Proof.Machine

/-! ### CODEBUF (10_state.md R23) -/

/-- CODEBUF position p: bit `8((p >> 3) & 3) + 7 − (p & 7)` of CB(p >> 5). -/
def codebufBit (cb : Vector Word 8) (p : Nat) : Bool :=
  (cb[p / 32]?.getD 0).getLsbD (8 * (p / 8 % 4) + (7 - p % 8))

/-- CODEBUF positions 0..n−1, a bit-string operand of length n (R68). -/
def codebufBits (cb : Vector Word 8) (n : Nat) : Bits := (List.range n).map (codebufBit cb)

/-- CB(k) of the buffer holding `bits` from position 0, with 0 after them: byte j of the register is CODEBUF byte
4k + j, little-endian (R46), each byte first bit first (R10). -/
def codebufWord (bits : Bits) (k : Nat) : Word :=
  let byte (j : Nat) : Word := (byteOfBits fun m => (bits[32 * k + 8 * j + m]?).getD false).setWidth 32
  byte 3 <<< 24 ||| byte 2 <<< 16 ||| byte 1 <<< 8 ||| byte 0

/-- The whole buffer holding `bits`. -/
def codebufOf (bits : Bits) : Vector Word 8 := Vector.ofFn fun k => codebufWord bits k.val

/-! ### Counts and child references -/

/-- The FREQ_SET count {ARG1, ARG0} (R68). -/
def countOperand (s : State) : U64 := s.arg1 ++ s.arg0

/-- A ChildRef in 10 bits (10_state.md R27): bit 9 VALID, bits 8:0 INDEX, and 0 for NONE. -/
def ChildRef.bits : ChildRef → BitVec 10
  | none => 0
  | some i => 0x200 ||| i.setWidth 10

/-! ### The meaningful bits of the payload (44_bit_unpacker.md R109) -/

/-- T. -/
def meaningfulBits (u : Unpacker) : Nat :=
  if u.len = 0 then 0 else 8 * (u.len.toNat - 1) + u.valid.toNat

end Sys2Proof.Machine
end

