-- ==== Sys2Proof/Machine/TreeBuilder.lean ====
section
/-! DEFINITION. The frequency RAM and the tree builder (41_tree_builder.md): FREQ_CLEAR, FREQ_SET, FREQ_GET, BUILD,
READ_NODE. -/

namespace Sys2Proof.Machine

/-! ### The frequency RAM -/

/-- No tree: what FREQ_CLEAR (R80) and an EMPTY BUILD (R83) leave of the bookkeeping. NODE keeps its contents. -/
def Builder.noTree (b : Builder) : Builder :=
  { b with inTree := Vector.replicate 256 false, nLeaves := 0, nInt := 0, root := 0, valid := false }

/-- FREQ_CLEAR (R80). -/
def execFreqClear (s : State) : Result :=
  finish .ok
    { s with
      freq := Vector.replicate 256 0
      builder := s.builder.noTree
      codes := { s.codes with valid := false } }

/-- FREQ_SET v (R81). -/
def execFreqSet (v : Byte) (s : State) : Result :=
  finish .ok { s with freq := ByteTable.put s.freq v (countOperand s) }

/-- FREQ_GET v (R82). -/
def execFreqGet (v : Byte) (s : State) : Result :=
  let c := ByteTable.get s.freq v
  finish .ok { s with res0 := low32 c, res1 := high32 c }

/-! ### The merge (R84–R86) -/

/-- The internal node in NODE slot `i` (R25); a leaf slot holds none. -/
def Builder.innerAt (b : Builder) (i : Nat) : Option InnerNode := if i < 256 then none else b.inner[i - 256]?

/-- `NODE[i].weight`, for either kind of slot (10_state.md R25). -/
def Builder.weight (b : Builder) (i : Nat) : U64 :=
  if i < 256 then (b.leafWeight[i]?).getD 0 else ((b.innerAt i).map InnerNode.weight).getD 0

/-- The key order (R85): lower weight first, then lower index. -/
def Builder.keyBefore (b : Builder) (i j : Nat) : Bool :=
  (b.weight i).toNat < (b.weight j).toNat || ((b.weight i).toNat == (b.weight j).toNat && i < j)

/-- `min_key Q` (R85), of the indices in a list. -/
def Builder.minKey (b : Builder) : List Nat → Option Nat
  | [] => none
  | i :: rest =>
    match b.minKey rest with
    | none => some i
    | some j => if b.keyBefore j i then some j else some i

/-- One extraction (R84): the least element of Q and Q without it. -/
def Builder.extractMin (b : Builder) (q : List Nat) : Option (Nat × List Nat) :=
  (b.minKey q).map fun x => (x, q.erase x)

/-- The internal node of one merge, in slot 256 + k: the first extracted node is the left child (R84). -/
def Builder.merge (b : Builder) (k x y : Nat) : Builder :=
  { b with
    inner := b.inner.setIfInBounds k ⟨b.weight x + b.weight y, some (BitVec.ofNat 9 x), some (BitVec.ofNat 9 y)⟩ }

/-- The merge loop (R84): while Q has two elements, extract x and y and insert slot 256 + k. Q is a list of slots without
repeats, and `fuel` bounds the merges (log 10). The answer is the builder with NODE, ROOT and NINT written. -/
def mergeLoop : Nat → Nat → List Nat → Builder → Builder
  | 0, k, q, b => { b with root := BitVec.ofNat 9 (q.headD 0), nInt := k }
  | fuel + 1, k, q, b =>
    match b.extractMin q with
    | none => { b with root := BitVec.ofNat 9 (q.headD 0), nInt := k }
    | some (x, q1) =>
      match b.extractMin q1 with
      | none => { b with root := BitVec.ofNat 9 (q.headD 0), nInt := k }
      | some (y, q2) => mergeLoop fuel (k + 1) (q2 ++ [256 + k]) (b.merge k x y)

/-- The single-symbol tree (R86): a root with the one leaf on its left. -/
def singleSymbolTree (v : Nat) (b : Builder) : Builder :=
  { b with
    inner := b.inner.setIfInBounds 0 ⟨b.weight v, some (BitVec.ofNat 9 v), none⟩
    root := 256
    nInt := 1 }

/-! ### BUILD (R83) -/

/-- `{ v : FREQ[v] > 0 }`, ascending. -/
def presentBytes (freq : ByteTable U64) : List Nat := ByteTable.keysWhere freq fun c => c ≠ 0

/-- S, the sum of every count, unbounded (R83). -/
def totalWeight (freq : ByteTable U64) : Nat := (freq.toList.map BitVec.toNat).sum

/-- BUILD's snapshot of FREQ: the weights of all leaf slots, and INTREE (R83). -/
def Builder.loadLeaves (b : Builder) (freq : ByteTable U64) : Builder :=
  { b with leafWeight := freq, inTree := freq.map fun c => decide (c ≠ 0) }

/-- The tree BUILD makes when FREQ holds a count and the total fits: single-symbol or merged. -/
def buildTree (freq : ByteTable U64) (b : Builder) : Builder :=
  let q := presentBytes freq
  let loaded := b.loadLeaves freq
  let tree :=
    match q with
    | [v] => singleSymbolTree v loaded
    | _ => mergeLoop q.length 0 q loaded
  { tree with valid := true, nLeaves := q.length }

/-- BUILD (R83). -/
def execBuild (s : State) : Result :=
  if presentBytes s.freq = [] then
    finish .empty
      { s with
        builder := s.builder.noTree
        codes := { s.codes with valid := false }
        res0 := 0, res1 := 0, res2 := 0 }
  else if 2 ^ 64 - 1 < totalWeight s.freq then raise .eOverflow s
  else
    let t := buildTree s.freq s.builder
    finish .ok
      { s with
        builder := t
        codes := { s.codes with valid := false }
        res0 := t.root.setWidth 32
        res1 := BitVec.ofNat 32 t.nLeaves
        res2 := BitVec.ofNat 32 t.nInt }

/-! ### READ_NODE (R88) -/

/-- Whether `i` names a node of the current tree: a leaf slot in it, or a used internal slot, and no index above 510. -/
def Builder.hasNode (b : Builder) (i : Nat) : Bool :=
  if i < 256 then (b.inTree[i]?).getD false else i ≤ 510 && i - 256 < b.nInt

/-- READ_NODE's description of an internal node's children (RES3). -/
def InnerNode.childWord (n : InnerNode) : Word :=
  n.left.bits.setWidth 32 ||| (n.right.bits.setWidth 32 <<< 16)

/-- READ_NODE (R88). -/
def execReadNode (s : State) : Result :=
  let i := s.arg0.toNat
  if s.builder.valid = false then raise .eSequence s
  else if s.builder.hasNode i = false then raise .eBadArgs s
  else
    let w := s.builder.weight i
    if i < 256 then
      finish .ok { s with res0 := BitVec.ofNat 32 i <<< 8, res1 := low32 w, res2 := high32 w, res3 := 0 }
    else
      finish .ok
        { s with
          res0 := 1 ||| (BitVec.ofNat 32 (i - 256) <<< 16)
          res1 := low32 w
          res2 := high32 w
          res3 := ((s.builder.innerAt i).map InnerNode.childWord).getD 0 }

end Sys2Proof.Machine
end

