-- ==== Sys2Proof/Machine/CodeGenerator.lean ====
section
/-! DEFINITION. The code-table generator (42_code_table.md): GEN_CODES and GET_CODE. -/

namespace Sys2Proof.Machine

/-- CLEN and CBITS while GEN_CODES fills them. -/
abbrev CodeArrays := ByteTable (BitVec 8) × ByteTable Bits

/-- `CLEN[v] <- 0; CBITS[v] <- []` for every v (R92). -/
def noCodes : CodeArrays := (Vector.replicate 256 0, Vector.replicate 256 [])

/-- `CLEN[i] <- |p|; CBITS[i] <- p` (R92). -/
def recordCode (i : Nat) (p : Bits) (c : CodeArrays) : CodeArrays :=
  (c.1.setIfInBounds i (BitVec.ofNat 8 p.length), c.2.setIfInBounds i p)

/-- `visit(i, p)` (R92): 0 descending left, 1 descending right. `fuel` bounds the depth (log 11). -/
def visitNode (b : Builder) : Nat → Nat → Bits → CodeArrays → CodeArrays
  | 0, _, _, c => c
  | fuel + 1, i, p, c =>
    if i < 256 then recordCode i p c
    else
      match b.innerAt i with
      | none => c
      | some n =>
        let afterLeft :=
          match n.left with
          | none => c
          | some l => visitNode b fuel l.toNat (p ++ [false]) c
        match n.right with
        | none => afterLeft
        | some r => visitNode b fuel r.toNat (p ++ [true]) afterLeft

/-- The deepest node a tree can hold is at depth 255 (R94), so a walk has at most 256 levels. -/
def treeLevels : Nat := 256

/-- The code table of a tree (R92). -/
def generateCodes (b : Builder) : CodeTable :=
  let c := visitNode b treeLevels b.root.toNat [] noCodes
  { clen := c.1
    cbits := c.2
    nCodes := (ByteTable.keysWhere c.1 fun n => n ≠ 0).length
    maxLen := (c.1.toList.map BitVec.toNat).foldl max 0
    valid := true }

/-- GEN_CODES (R92). -/
def execGenCodes (s : State) : Result :=
  if s.builder.valid = false then raise .eSequence s
  else
    let t := generateCodes s.builder
    finish .ok { s with codes := t, res0 := BitVec.ofNat 32 t.nCodes, res1 := BitVec.ofNat 32 t.maxLen }

/-- CBITS[v] at its CLEN[v] positions; positions past the stored sequence read 0 (10_state.md R28). -/
def CodeTable.codeOf (c : CodeTable) (v : Byte) : Bits :=
  let n := (ByteTable.get c.clen v).toNat
  let p := ByteTable.get c.cbits v
  (List.range n).map fun j => (p[j]?).getD false

/-- GET_CODE v (R93). -/
def execGetCode (v : Byte) (s : State) : Result :=
  if s.codes.valid = false then raise .eSequence s
  else
    finish .ok
      { s with
        res0 := (ByteTable.get s.codes.clen v).setWidth 32
        cb := codebufOf (s.codes.codeOf v) }

end Sys2Proof.Machine
end

