-- ==== Sys2Proof/Machine/BitPacker.lean ====
section
/-! DEFINITION. The bit packer (43_bit_packer.md): PK_RESET, PK_APPEND_BIT, PK_APPEND_BITS, PK_ENCODE, PK_FINISH. -/

namespace Sys2Proof.Machine

/-! ### The append primitive (R102) -/

/-- `PAY[PK_WPTR] <- PK_CUR; WR[PK_WPTR] <- 1; PK_WPTR <- PK_WPTR + 1; PK_CUR <- 0; PK_NB <- 0` (R62, R102, R103). -/
def flushByte (pk : Packer) (m : Memory) : Packer × Memory :=
  ({ pk with cur := 0, nb := 0, wptr := pk.wptr + 1 }, m.write pk.wptr.toNat pk.cur)

/-- One turn of R102's loop: the bit goes to position 7 − PK_NB, and an eighth bit writes the byte. -/
def pushBit (pk : Packer) (m : Memory) (b : Bool) : Packer × Memory :=
  let filled : Packer := { pk with cur := pk.cur ||| ((BitVec.ofBool b).setWidth 8 <<< (7 - pk.nb)), nb := pk.nb + 1 }
  if filled.nb = 8 then flushByte filled m else (filled, m)

/-- The loop over the sequence. -/
def pushBits : Packer → Memory → Bits → Packer × Memory
  | pk, m, [] => (pk, m)
  | pk, m, b :: rest =>
    let r := pushBit pk m b
    pushBits r.1 r.2 rest

/-- `w`, the number of bytes an append of `bits` completes (R102). -/
def bytesCompleted (pk : Packer) (bits : Bits) : Nat := (pk.nb + bits.length) / 8

/-- `append(s)` (R102), all or nothing: the checks come before any change. RES0 and RES1 are written. -/
def append (bits : Bits) (s : State) : Except CmdOutcome State :=
  if s.packer.closed then .error .eSequence
  else if s.params.payBytes < s.packer.wptr.toNat + bytesCompleted s.packer bits then .error .ePayloadFull
  else
    let r := pushBits s.packer s.pay bits
    .ok { s with packer := r.1, pay := r.2, res0 := r.1.wptr, res1 := BitVec.ofNat 32 r.1.nb }

/-! ### The commands -/

/-- PK_RESET (R98). -/
def execPkReset (s : State) : Result :=
  finish .ok { s with packer := Packer.reset, res0 := 0, res1 := 0 }

/-- PK_APPEND_BIT b (R99). A VAL above 1 is no legal word (30_encoding.md R69): it ends E_ILLEGAL (log 16). -/
def execPkAppendBit (b : Byte) (s : State) : Result :=
  if 1 < b.toNat then raise .eIllegal s
  else complete s (append [b ≠ 0] s)

/-- PK_APPEND_BITS n (R100). -/
def execPkAppendBits (n : Byte) (s : State) : Result :=
  complete s (append (codebufBits s.cb n.toNat) s)

/-- PK_ENCODE v (R101). -/
def execPkEncode (v : Byte) (s : State) : Result :=
  if s.packer.closed then raise .eSequence s
  else if s.codes.valid = false then raise .eSequence s
  else if ByteTable.get s.codes.clen v = 0 then raise .eNoCode s
  else
    complete s ((append (s.codes.codeOf v) s).map fun t =>
      { t with res2 := (ByteTable.get s.codes.clen v).setWidth 32 })

/-- The packer when PK_FINISH has closed it. -/
def Packer.close (pk : Packer) : Packer := { pk with cur := 0, nb := 0, closed := true }

/-- PK_FINISH (R103). -/
def execPkFinish (s : State) : Result :=
  if s.packer.closed then raise .eSequence s
  else if s.packer.nb = 0 then
    finish .ok { s with packer := s.packer.close, res0 := s.packer.wptr, res1 := 8 }
  else if s.params.payBytes < s.packer.wptr.toNat + 1 then raise .ePayloadFull s
  else
    let r := flushByte s.packer s.pay
    finish .ok
      { s with packer := r.1.close, pay := r.2, res0 := r.1.wptr, res1 := BitVec.ofNat 32 s.packer.nb }

end Sys2Proof.Machine
end

