-- ==== Sys2Proof/Machine/BitUnpacker.lean ====
section
/-! DEFINITION. The bit unpacker (44_bit_unpacker.md): UP_START and UP_NEXT_BIT. -/

namespace Sys2Proof.Machine

/-- UP_START k (R108): the valid count is checked before the length (60_exceptions.md R139). PAY is not read. -/
def execUpStart (k : Byte) (s : State) : Result :=
  if k.toNat < 1 ∨ 8 < k.toNat then raise .eBadArgs s
  else if s.params.payBytes < s.arg0.toNat then raise .eBadArgs s
  else
    let u : Unpacker := { len := s.arg0, valid := k.setWidth 4, pos := 0 }
    let t : BitVec 35 := BitVec.ofNat 35 (meaningfulBits u)
    finish .ok { s with unpacker := u, res0 := posLow t, res1 := posHigh t }

/-- UP_NEXT_BIT (R110). -/
def execUpNextBit (s : State) : Result :=
  if s.unpacker.pos.toNat = meaningfulBits s.unpacker then finish .endOfData s
  else
    match streamBit s.pay s.unpacker.pos.toNat with
    | .error f => .fault f
    | .ok b =>
      let p := s.unpacker.pos + 1
      finish .ok
        { s with
          unpacker := { s.unpacker with pos := p }
          res0 := (BitVec.ofBool b).setWidth 32
          res1 := posLow p
          res2 := posHigh p }

end Sys2Proof.Machine
end

