-- ==== Sys2Proof/Machine/Control.lean ====
section
/-! DEFINITION. The control commands NOP, CLEAR_STATUS and SOFT_RESET (46_control.md). -/

namespace Sys2Proof.Machine

/-- NOP (R121, R71). -/
def execNop (s : State) : Result := finish .ok s

/-- CLEAR_STATUS (R122). -/
def execClearStatus (s : State) : Result := finish .ok { s with err := false }

/-- The "after SOFT_RESET" column of 10_state.md R35: NODE, CLEN, CBITS, DN[1..] and PAY keep their contents, CMD keeps
the word just written, every other piece of state takes its reset value. -/
def softReset (s : State) : State :=
  { s with
    err := false, lastRes := .ok
    arg0 := 0, arg1 := 0, res0 := 0, res1 := 0, res2 := 0, res3 := 0
    cb := Vector.replicate 8 0
    freq := Vector.replicate 256 0
    builder := { s.builder with inTree := Vector.replicate 256 false, nLeaves := 0, nInt := 0, root := 0, valid := false }
    codes := { s.codes with nCodes := 0, maxLen := 0, valid := false }
    packer := Packer.reset
    unpacker := Unpacker.reset
    decoder :=
      { s.decoder.setNode 0 DNode.empty with dnCount := 1, seen := Vector.replicate 256 false, nEnt := 0 } }

/-- SOFT_RESET (R123). -/
def execSoftReset (s : State) : Result := finish .ok (softReset s)

end Sys2Proof.Machine
end

