-- ==== Sys2Proof/Machine/TreeDecoder.lean ====
section
/-! DEFINITION. The Huffman decoder (45_decoder.md): DEC_CLEAR, DEC_INSERT, DEC_STEP. -/

namespace Sys2Proof.Machine

/-! ### DEC_CLEAR -/

/-- DEC_CLEAR (R113). DN[1..] keeps its contents and is unreachable. -/
def execDecClear (s : State) : Result :=
  finish .ok
    { s with
      decoder :=
        { s.decoder.setNode 0 DNode.empty with dnCount := 1, seen := Vector.replicate 256 false, nEnt := 0 } }

/-! ### DEC_INSERT (R114) -/

/-- Phase 1 over the path `s[0 .. n−2]`: follow it while it exists. `none` is a LEAF on the way (R115 case 1); otherwise
the node reached and the bits of the path that have no node yet. -/
def followPath (d : Decoder) : Nat → Bits → Option (Nat × Bits)
  | node, [] => some (node, [])
  | node, b :: rest =>
    match d.child node b with
    | .leaf _ => none
    | .none => some (node, b :: rest)
    | .node j => followPath d j rest

/-- Phase 2: allocate one node for each remaining path bit, in creation order (R116), and link it. The answer is the
decoder and the last node of the path. -/
def extendPath : Decoder → Nat → Bits → Decoder × Nat
  | d, node, [] => (d, node)
  | d, node, b :: rest =>
    let j := d.dnCount
    let fresh := { d.setNode j DNode.empty with dnCount := j + 1 }
    extendPath (fresh.setChild node b (.node j)) j rest

/-- DEC_INSERT's checks and changes on the decoder tree, for a nonempty code given as its path and its last bit (R114). -/
def insertCode (cap : Nat) (d : Decoder) (v : Byte) (path : Bits) (last : Bool) : Except CmdOutcome Decoder :=
  if ByteTable.get d.seen v then .error .eDuplicate
  else
    match followPath d 0 path with
    | none => .error .ePrefix
    | some (node, rest) =>
      if rest = [] ∧ d.child node last ≠ .none then .error .ePrefix
      else if cap < d.dnCount + rest.length then .error .eNodeFull
      else
        let r := extendPath d node rest
        let placed := r.1.setChild r.2 last (.leaf v)
        .ok { placed with seen := ByteTable.put placed.seen v true, nEnt := placed.nEnt + 1 }

/-- DEC_INSERT v, n (R114). -/
def execDecInsert (v n : Byte) (s : State) : Result :=
  let code := codebufBits s.cb n.toNat
  match code.getLast? with
  | none => raise .eBadLength s
  | some last =>
    complete s ((insertCode s.params.decIntCap s.decoder v code.dropLast last).map fun d =>
      { s with decoder := d, res0 := BitVec.ofNat 32 d.nEnt, res1 := BitVec.ofNat 32 d.dnCount })

/-! ### DEC_STEP (R117) -/

/-- How a walk from the root ends. -/
inductive WalkEnd where
  /-- LEAF(v), with `next` the position after its code. -/
  | symbol (v : Byte) (next : Nat)
  | bad (e : CmdOutcome)
  | unreadable (f : Fault)
deriving DecidableEq, Repr

/-- R117's loop from `node` at position p, with `left` = T − p meaningful bits not yet read. -/
def walk (d : Decoder) (m : Memory) : Nat → Nat → Nat → WalkEnd
  | 0, _, _ => .bad .eTruncated
  | left + 1, node, p =>
    match streamBit m p with
    | .error f => .unreadable f
    | .ok b =>
      match d.child node b with
      | .none => .bad .eNoChild
      | .leaf v => .symbol v (p + 1)
      | .node j => walk d m left j (p + 1)

/-- DEC_STEP (R117). -/
def execDecStep (s : State) : Result :=
  let start := s.unpacker.pos.toNat
  let t := meaningfulBits s.unpacker
  if s.decoder.nEnt = 0 then finish .endOfData s
  else if start = t then finish .endOfData s
  else
    match walk s.decoder s.pay (t - start) 0 start with
    | .unreadable f => .fault f
    | .bad e => raise e s
    | .symbol v next =>
      let p : BitVec 35 := BitVec.ofNat 35 next
      finish .ok
        { s with
          unpacker := { s.unpacker with pos := p }
          res0 := v.setWidth 32
          res1 := BitVec.ofNat 32 (next - start)
          res2 := posLow p
          res3 := posHigh p }

end Sys2Proof.Machine
end

