-- ==== Sys2Proof/Machine/Dispatch.lean ====
section
/-! DEFINITION. One arm for each command. -/

namespace Sys2Proof.Machine

def exec (i : Instr) (s : State) : Host.Outcome State Fault Refusal :=
  match i with
  -- 46_control.md
  | .nop => Sys2Proof.Machine.execNop s
  | .clearStatus => Sys2Proof.Machine.execClearStatus s
  | .softReset => Sys2Proof.Machine.execSoftReset s
  -- 41_tree_builder.md
  | .freqClear => Sys2Proof.Machine.execFreqClear s
  | .freqSet v => Sys2Proof.Machine.execFreqSet v s
  | .freqGet v => Sys2Proof.Machine.execFreqGet v s
  | .build => Sys2Proof.Machine.execBuild s
  | .readNode => Sys2Proof.Machine.execReadNode s
  -- 42_code_table.md
  | .genCodes => Sys2Proof.Machine.execGenCodes s
  | .getCode v => Sys2Proof.Machine.execGetCode v s
  -- 43_bit_packer.md
  | .pkReset => Sys2Proof.Machine.execPkReset s
  | .pkAppendBit b => Sys2Proof.Machine.execPkAppendBit b s
  | .pkAppendBits n => Sys2Proof.Machine.execPkAppendBits n s
  | .pkEncode v => Sys2Proof.Machine.execPkEncode v s
  | .pkFinish => Sys2Proof.Machine.execPkFinish s
  -- 44_bit_unpacker.md
  | .upStart k => Sys2Proof.Machine.execUpStart k s
  | .upNextBit => Sys2Proof.Machine.execUpNextBit s
  -- 45_decoder.md
  | .decClear => Sys2Proof.Machine.execDecClear s
  | .decInsert v n => Sys2Proof.Machine.execDecInsert v n s
  | .decStep => Sys2Proof.Machine.execDecStep s

end Sys2Proof.Machine
end

