-- ==== Sys2Proof/Machine/Port.lean ====
section
/-! DEFINITION. The host port (20_memory.md), the register map (10_state.md R15) and the reset inputs
(70_reset_and_hazards.md R153, R154). -/

namespace Sys2Proof.Machine

/-! ### The register map (R15) -/

inductive Reg where
  | cmd
  | status
  | arg0
  | arg1
  | res0
  | res1
  | res2
  | res3
  | id
  | cfgPay
  | cfgDec
  | cb (k : Fin 8)
deriving DecidableEq, Repr

/-- The register at a byte offset; nothing at an unmapped or misaligned one (R15, R40). -/
def regAt (offset : Nat) : Option Reg :=
  if offset = 0x000 then some .cmd
  else if offset = 0x004 then some .status
  else if offset = 0x008 then some .arg0
  else if offset = 0x00C then some .arg1
  else if offset = 0x010 then some .res0
  else if offset = 0x014 then some .res1
  else if offset = 0x018 then some .res2
  else if offset = 0x01C then some .res3
  else if offset = 0x020 then some .id
  else if offset = 0x024 then some .cfgPay
  else if offset = 0x028 then some .cfgDec
  else if h : 0x040 ≤ offset ∧ offset < 0x060 ∧ offset % 4 = 0 then some (.cb ⟨(offset - 0x040) / 4, by omega⟩)
  else none

/-- What a register reads (R18–R23, R42). -/
def readReg (r : Reg) (s : State) : Word :=
  match r with
  | .cmd => s.cmd
  | .status => statusWord s
  | .arg0 => s.arg0
  | .arg1 => s.arg1
  | .res0 => s.res0
  | .res1 => s.res1
  | .res2 => s.res2
  | .res3 => s.res3
  | .id => idValue
  | .cfgPay => BitVec.ofNat 32 s.params.payBytes
  | .cfgDec => BitVec.ofNat 32 s.params.decIntCap
  | .cb k => s.cb[k.val]

/-- The register a register-aperture access names: only a 4-byte access answers OK (R40). -/
def regOfAccess (offset : Nat) (size : Size) : Option Reg :=
  if size = .four then regAt offset else none

/-- The effect of writing the command word w: CMD holds w, then its command runs, or it ends E_ILLEGAL
(10_state.md R18, 30_encoding.md R66). -/
def runCommand (w : Word) (s : State) : Result :=
  match decode w with
  | .ok i => exec i { s with cmd := w }
  | .error _ => raise .eIllegal { s with cmd := w }

/-! ### Answers -/

/-- The answer OK (R37). -/
def answerOk (data : Option Word) (s : State) : State := { s with answer := some (.ok data) }

/-- BUS_ERROR: no state of HTB changes (R49). -/
def busError (s : State) : Result := .next { s with answer := some .busError }

/-- The port answers OK when the command has reached its outcome, whatever it is (R43). -/
def answerCommand : Result → Result
  | .next t => .next (answerOk none t)
  | .fault f => .fault f
  | .refused r => .refused r

/-! ### Transactions -/

/-- A 32-bit write to a mapped register (R41). -/
def writeReg (r : Reg) (w : Word) (s : State) : Result :=
  match r with
  | .cmd => answerCommand (runCommand w s)
  | .arg0 => .next (answerOk none { s with arg0 := w })
  | .arg1 => .next (answerOk none { s with arg1 := w })
  | .cb k => .next (answerOk none { s with cb := s.cb.set k.val w })
  | .status | .res0 | .res1 | .res2 | .res3 | .id | .cfgPay | .cfgDec => busError s

/-- R47: the offset is a multiple of the size and the access ends inside PAY. -/
def payAccessOk (p : Params) (a : Nat) (size : Size) : Bool :=
  a % size.bytes = 0 ∧ a + size.bytes ≤ p.payBytes

/-- One transaction (R40–R49). -/
def serve (t : Transaction) (s : State) : Result :=
  match t with
  | .read .reg offset size =>
    match regOfAccess offset size with
    | some r => .next (answerOk (some (readReg r s)) s)
    | none => busError s
  | .write .reg offset size w =>
    match regOfAccess offset size with
    | some r => writeReg r w s
    | none => busError s
  | .read .pay a size =>
    if payAccessOk s.params a size then
      match memRead s.pay a size.bytes with
      | .ok v => .next (answerOk (some v) s)
      | .error f => .fault f
    else busError s
  | .write .pay a size v =>
    if payAccessOk s.params a size then .next (answerOk none { s with pay := memWrite s.pay a size.bytes v })
    else busError s

/-! ### Resets (70_reset_and_hazards.md R153, R154) -/

/-- The state a reset leaves. A power-on reset forgets PAY; a hardware reset keeps PAY and its marks, but clears the
marks of the 32 bytes from PK_WPTR on where it cut a command short. The instance's parameters and the events still to
come stay. -/
def resetState (kind : ResetKind) (cutsCommand : Bool) (s : State) : State :=
  { State.resetWith s.params with
    pending := s.pending
    answer := if cutsCommand then some .abandoned else none
    pay :=
      match kind with
      | .powerOn => []
      | .hardware => if cutsCommand then s.pay.clearMarks s.packer.wptr.toNat 32 else s.pay }

/-- What the port does with one event. -/
def takeEvent (e : PortEvent) (s : State) : Result :=
  match e with
  | .access t => serve t s
  | .reset kind cuts => .next (resetState kind cuts s)

/-- One step of the machine: the port takes the oldest pending event (20_memory.md R56). With none pending the engine is
idle (R153) and nothing changes. -/
def stepPort (s : State) : Result :=
  match s.pending with
  | [] => .next s
  | e :: rest => takeEvent e { s with pending := rest }

/-- The host's write of a command word (R63, R74 `C`). -/
def commandWrite (w : Word) : PortEvent := .access (.write .reg 0x000 .four w)

/-! ### The platform's address map (00_scope.md R7, 20_memory.md R54) -/

/-- The aperture and offset of a host address, for a platform that places the apertures at REG_BASE and PAY_BASE. Where
they overlap the register aperture is taken (log 19). -/
def Platform.locate (f : Platform) (p : Params) (address : Nat) : Option (Aperture × Nat) :=
  if f.regBase ≤ address ∧ address < f.regBase + regApertureBytes then some (.reg, address - f.regBase)
  else if f.payBase ≤ address ∧ address < f.payBase + p.payBytes then some (.pay, address - f.payBase)
  else none

end Sys2Proof.Machine
end

