-- ==== Sys2Proof/Machine/Step.lean ====
section
/-! DEFINITION. One step, and how the host's word becomes the next command. -/

namespace Sys2Proof.Machine

/-- One step of HTB: the port takes the oldest pending event. -/
def step (s : State) : Host.Outcome State Fault Refusal := stepPort s

/-- `s` with the command word `w` as the next thing the host writes. HTB fetches nothing (10_state.md R17): commands
arrive as CMD writes, so the word goes to the head of the pending events (log 3). -/
def State.withFetchWord (s : State) (nbits w : Nat) : State :=
  { s with pending := commandWrite (BitVec.ofNat 32 (w % 2 ^ nbits)) :: s.pending }

end Sys2Proof.Machine
end

