-- ==== Sys2Proof/Safety.lean ====
section
/-! DEFINITION. What a safe run is (70_reset_and_hazards.md R162), the invariants of 10_state.md R36, and the tables of
60_exceptions.md that statements about all commands are made in. -/

namespace Sys2Proof.Machine

/-- A run of `k` steps is good when no model fault ended it (R162, 60_exceptions.md R144). -/
def GoodRun (k : Nat) (s : State) : Prop := ∀ f : Fault, Host.Core.run Sys2Proof.core k s ≠ .fault f

/-! ### Which outcomes and preconditions a command has (60_exceptions.md R136, R138) -/

/-- The outcomes R136 lists a legal command under. -/
def allowedOutcomes : Instr → List CmdOutcome
  | .nop | .clearStatus | .softReset | .freqClear | .freqSet _ | .freqGet _ | .pkReset | .decClear => [.ok]
  | .build => [.ok, .empty, .eOverflow]
  | .readNode => [.ok, .eSequence, .eBadArgs]
  | .genCodes | .getCode _ => [.ok, .eSequence]
  | .pkAppendBit _ | .pkAppendBits _ | .pkFinish => [.ok, .eSequence, .ePayloadFull]
  | .pkEncode _ => [.ok, .eSequence, .eNoCode, .ePayloadFull]
  | .upStart _ => [.ok, .eBadArgs]
  | .upNextBit => [.ok, .endOfData]
  | .decInsert _ _ => [.ok, .eBadLength, .eDuplicate, .ePrefix, .eNodeFull]
  | .decStep => [.ok, .endOfData, .eTruncated, .eNoChild]

/-- R138's table of state preconditions. -/
def preconditionHolds : Instr → State → Bool
  | .readNode, s | .genCodes, s => s.builder.valid
  | .getCode _, s => s.codes.valid
  | .pkAppendBit _, s | .pkAppendBits _, s | .pkFinish, s => !s.packer.closed
  | .pkEncode _, s => !s.packer.closed && s.codes.valid
  | .nop, _ | .clearStatus, _ | .softReset, _ | .freqClear, _ | .freqSet _, _ | .freqGet _, _ | .build, _ | .pkReset, _
  | .upStart _, _ | .upNextBit, _ | .decClear, _ | .decInsert _ _, _ | .decStep, _ => true

/-- How many of RES0 to RES3 a command's rule names, from RES0 up: the `results` column of 30_encoding.md R65. -/
def resultCount : Instr → Nat
  | .nop | .clearStatus | .softReset | .freqClear | .freqSet _ | .decClear => 0
  | .getCode _ => 1
  | .freqGet _ | .genCodes | .pkReset | .pkAppendBit _ | .pkAppendBits _ | .pkFinish | .upStart _ | .decInsert _ _ => 2
  | .build | .pkEncode _ | .upNextBit => 3
  | .readNode | .decStep => 4

/-! ### Invariants (10_state.md R36) -/

/-- The ranges of the parameters (00_scope.md R7). -/
abbrev ParamsInv (s : State) : Prop := s.params.wf

/-- R36 item 3, R29: the packer's ranges and the padding invariant, that the low 8 − PK_NB bits of PK_CUR are 0. -/
abbrev PackerInv (s : State) : Prop :=
  s.packer.nb ≤ 7 ∧ s.packer.wptr.toNat ≤ s.params.payBytes ∧ s.packer.cur.toNat % 2 ^ (8 - s.packer.nb) = 0

/-- R36 item 4. -/
abbrev UnpackerInv (s : State) : Prop :=
  1 ≤ s.unpacker.valid.toNat ∧ s.unpacker.valid.toNat ≤ 8 ∧ s.unpacker.len.toNat ≤ s.params.payBytes
    ∧ s.unpacker.pos.toNat ≤ meaningfulBits s.unpacker

/-- PAY keeps its canonical form, and holds no byte outside its size (R32). -/
abbrev PayInv (s : State) : Prop := s.pay.wf ∧ ∀ e ∈ s.pay, e.1 < s.params.payBytes

/-- The leaves below NODE slot `i`, each with its path from there (0 left, 1 right). `fuel` bounds the levels walked. -/
def Builder.leavesBelow (b : Builder) : Nat → Nat → List (Nat × Bits)
  | 0, _ => []
  | fuel + 1, i =>
    if i < 256 then [(i, [])]
    else
      match b.innerAt i with
      | none => []
      | some n =>
        (match n.left with
          | none => []
          | some l => (leavesBelow b fuel l.toNat).map fun e => (e.1, false :: e.2))
        ++ (match n.right with
          | none => []
          | some r => (leavesBelow b fuel r.toNat).map fun e => (e.1, true :: e.2))

/-- The leaves of the builder tree with their root-to-leaf paths. -/
def Builder.leaves (b : Builder) : List (Nat × Bits) := b.leavesBelow treeLevels b.root.toNat

/-- R36 item 1. -/
def TreeInv (s : State) : Prop :=
  let b := s.builder
  b.valid = true →
    1 ≤ b.nLeaves ∧ b.nLeaves = (ByteTable.keysWhere b.inTree id).length
    ∧ b.nInt = (if b.nLeaves = 1 then 1 else b.nLeaves - 1)
    ∧ b.root.toNat = 256 + b.nInt - 1
    ∧ (∀ k, k < b.nInt →
        (b.weight (256 + k)).toNat = ((b.leavesBelow treeLevels (256 + k)).map fun e => (b.weight e.1).toNat).sum)
    ∧ ∀ v : Byte, (b.leaves.filter fun e => e.1 = v.toNat).length = if ByteTable.get b.inTree v then 1 else 0

/-- R36 item 2, with what R28 says of CLEN, CBITS, NCODES and MAXLEN. -/
def CodesInv (s : State) : Prop :=
  let c := s.codes
  c.valid = true →
    s.builder.valid = true
    ∧ (∀ v : Byte, ByteTable.get c.clen v ≠ 0 ↔ ByteTable.get s.builder.inTree v = true)
    ∧ (∀ v : Byte, (ByteTable.get c.cbits v).length = (ByteTable.get c.clen v).toNat)
    ∧ (∀ v w : Byte, v ≠ w → ByteTable.get c.clen v ≠ 0 → ByteTable.get c.clen w ≠ 0 →
        ¬ ByteTable.get c.cbits v <+: ByteTable.get c.cbits w)
    ∧ c.nCodes = s.builder.nLeaves
    ∧ ∀ v : Byte, (ByteTable.get c.clen v).toNat ≤ c.maxLen

/-- The byte whose code is exactly `p`, read from DN node `i`. -/
def Decoder.byteOf (d : Decoder) : Nat → Bits → Option Byte
  | _, [] => none
  | i, b :: rest =>
    match d.child i b with
    | .none => none
    | .leaf v => if rest = [] then some v else none
    | .node j => byteOf d j rest

/-- The child slots of the nodes in use, with the node and the bit. -/
def Decoder.slots (d : Decoder) : List (Nat × DChild) :=
  (List.range d.dnCount).flatMap fun i => [(i, d.child i false), (i, d.child i true)]

/-- R36 item 5, with the storage form of DN. -/
def DecoderInv (s : State) : Prop :=
  let d := s.decoder
  1 ≤ d.dnCount ∧ d.dnCount ≤ s.params.decIntCap
    ∧ KeysRise d.dn ∧ (∀ e ∈ d.dn, e.2 ≠ DNode.empty)
    ∧ (∀ i j : Nat, (i, DChild.node j) ∈ d.slots → i < j ∧ j < d.dnCount)
    ∧ (∀ j, 1 ≤ j → j < d.dnCount → (d.slots.filter fun x => x.2 = .node j).length = 1)
    ∧ (∀ v : Byte, (d.slots.filter fun x => x.2 = .leaf v).length = if ByteTable.get d.seen v then 1 else 0)
    ∧ d.nEnt = (ByteTable.keysWhere d.seen id).length
    ∧ ∀ p q v w, d.byteOf 0 p = some v → d.byteOf 0 q = some w → p <+: q → p = q

/-- The child slot a bit sequence leads to from DN node `i`: the slot of its last bit, or the LEAF or NONE met before it. -/
def Decoder.slotAt (d : Decoder) : Nat → Bits → DChild
  | _, [] => .none
  | i, b :: rest =>
    match d.child i b with
    | .node j => if rest = [] then .node j else slotAt d j rest
    | c => c

/-- How many internal nodes a bit sequence goes on to from DN node `i`. -/
def Decoder.depthAlong (d : Decoder) : Nat → Bits → Nat
  | _, [] => 0
  | i, b :: rest =>
    match d.child i b with
    | .node j => depthAlong d j rest + 1
    | _ => 0

/-! ### The merge (41_tree_builder.md R84) -/

/-- Slot `i` is in Q before merge `k`: a leaf of the tree or an internal node created by then, and a child of none of
those internal nodes. -/
def Builder.inQueueAt (b : Builder) (k i : Nat) : Prop :=
  ((i < 256 ∧ (b.inTree[i]?).getD false = true) ∨ ∃ j, j < k ∧ i = 256 + j)
    ∧ ∀ j, j < k → ∀ n, b.inner[j]? = some n →
        n.left ≠ some (BitVec.ofNat 9 i) ∧ n.right ≠ some (BitVec.ofNat 9 i)

/-! ### The packed stream (43_bit_packer.md R106) -/

/-- The bits an append command appends (R99–R101). -/
def appendedBits : Instr → State → Option Bits
  | .pkAppendBit b, _ => some [b ≠ 0]
  | .pkAppendBits n, s => some (codebufBits s.cb n.toNat)
  | .pkEncode v, s => some (s.codes.codeOf v)
  | .nop, _ | .clearStatus, _ | .softReset, _ | .freqClear, _ | .freqSet _, _ | .freqGet _, _ | .build, _ | .readNode, _
  | .genCodes, _ | .getCode _, _ | .pkReset, _ | .pkFinish, _ | .upStart _, _ | .upNextBit, _ | .decClear, _
  | .decInsert _ _, _ | .decStep, _ => none

/-- The number of bits appended since the last PK_RESET. -/
def Packer.bitCount (pk : Packer) : Nat := 8 * pk.wptr.toNat + pk.nb

/-- The bit appended at stream position j: in PAY once its byte is written, in PK_CUR before. -/
def Packer.bitAt (pk : Packer) (m : Memory) (j : Nat) : Option Bool :=
  if j / 8 < pk.wptr.toNat then (m.read (j / 8)).map fun b => byteBit b j
  else if j < pk.bitCount then some (byteBit pk.cur j)
  else none

/-- The packed stream of a state. -/
def packedBit (s : State) (j : Nat) : Option Bool := s.packer.bitAt s.pay j

/-! ### What no command changes -/

/-- The instance, the command word and the port: what a command leaves alone whatever it does. -/
abbrev HostSideKept (s t : State) : Prop :=
  t.params = s.params ∧ t.cmd = s.cmd ∧ t.pending = s.pending ∧ t.answer = s.answer

end Sys2Proof.Machine
end

