-- ==== Sys2Proof/Certificates/Slice0/Obligations.lean ====
section
/-! DEFINITION. The statements about HTB that the provers are to prove. Each docstring names the rule of spec/ it formalises. -/

open Sys2Proof Sys2Proof.Machine

/-! ### Command words (30_encoding.md) -/

/-- R66, R73: every command's word decodes to it, with every operand at every value the encoding admits. -/
def Obligations.DecodeOfEncodeIsTheCommand : Prop :=
  ∀ i : Instr, i.wellFormed = true → decode (encode i) = .ok i

/-- R66, R73: a word that decodes is the word of what it decodes to, so no two words spell one command. -/
def Obligations.EncodeOfDecodeIsTheWord : Prop :=
  ∀ (w : Word) (i : Instr), decode w = .ok i → encode i = w ∧ i.wellFormed = true

/-- R77: a row's mask and pattern select exactly the words that decode to its command, no word matches two rows, and a
word is illegal exactly when it matches none. -/
def Obligations.OpcodeTableSelectsTheDecodedCommand : Prop :=
  (∀ r ∈ opcodeTable, ∀ w : Word,
      w &&& r.mask = r.pattern ↔ ∃ i, decode w = .ok i ∧ i.mnemonic = r.mnemonic)
  ∧ (∀ w : Word, ∀ r ∈ opcodeTable, ∀ r' ∈ opcodeTable,
      w &&& r.mask = r.pattern → w &&& r'.mask = r'.pattern → r = r')
  ∧ ∀ w : Word, (∃ e, decode w = .error e) ↔ ∀ r ∈ opcodeTable, w &&& r.mask ≠ r.pattern

/-- R69: a CMD write of a word with an unassigned OP, a nonzero RSV, a nonzero field that R65 marks 0, or PK_APPEND_BIT
with VAL above 1, and of no other word, is illegal; it ends E_ILLEGAL and changes nothing but CMD and STATUS (and the
port's own `pending` and `answer`). -/
def Obligations.IllegalWordChangesOnlyCmdAndStatus : Prop :=
  ∀ (s : State) (w : Word) (rest : List PortEvent), s.pending = commandWrite w :: rest →
    ((∃ e, decode w = .error e) ↔
      (opField w ∉ [0x00, 0x01, 0x02, 0x10, 0x11, 0x12, 0x13, 0x14, 0x20, 0x21, 0x30, 0x31, 0x32, 0x33, 0x34, 0x40,
          0x41, 0x50, 0x51, 0x52]
        ∨ rsvField w ≠ 0
        ∨ (lenField w ≠ 0 ∧ opField w ∉ [0x32, 0x40, 0x51])
        ∨ (valField w ≠ 0 ∧ opField w ∉ [0x11, 0x12, 0x21, 0x31, 0x33, 0x51])
        ∨ (opField w = 0x31 ∧ 1 < (valField w).toNat)))
    ∧ ((∃ e, decode w = .error e) →
        step s = .next { s with
          cmd := w, lastRes := .eIllegal, err := true, pending := rest, answer := some (.ok none) })

/-- R73, R76: the words the spec writes out. -/
def Obligations.SpelledOutWordsDecode : Prop :=
  decode 0x11000061 = .ok (.freqSet 0x61) ∧ decode 0x31000001 = .ok (.pkAppendBit 1)
  ∧ decode 0x32000300 = .ok (.pkAppendBits 3) ∧ decode 0x51000362 = .ok (.decInsert 0x62 3)
  ∧ decode 0x40000700 = .ok (.upStart 7) ∧ decode 0x13000000 = .ok .build
  ∧ decode 0x13000001 = .error .valNonzero ∧ decode 0x31000002 = .error .bitAboveOne
  ∧ decode 0x40000000 = .ok (.upStart 0)

/-- R18, R43, R66: when the oldest event is a CMD write of a word that decodes to `i`, the step is `exec i` with CMD
holding the word and the event taken: its next state with the port's answer OK, whatever the outcome, or its model
fault. -/
def Obligations.StepRunsTheDecodedCommand : Prop :=
  ∀ (s : State) (w : Word) (rest : List PortEvent) (i : Instr),
    s.pending = commandWrite w :: rest → decode w = .ok i →
      (∃ t, exec i { s with cmd := w, pending := rest } = .next t ∧ step s = .next { t with answer := some (.ok none) })
      ∨ ∃ f, exec i { s with cmd := w, pending := rest } = .fault f ∧ step s = .fault f

/-- R43, R56: a step whose oldest event is a host access serves it from the state with the event taken. With no event
nothing changes (the model's choice, log 2). -/
def Obligations.StepServesTheOldestAccess : Prop :=
  ∀ s : State,
    (∀ (a : Transaction) (rest : List PortEvent), s.pending = .access a :: rest →
      step s = serve a { s with pending := rest })
    ∧ (s.pending = [] → step s = .next s)

/-! ### All commands (60_exceptions.md) -/

/-- R140: a command that ends with an error leaves the state before it, with LASTRES the code and ERR 1. -/
def Obligations.ErrorsArePrecise : Prop :=
  ∀ (i : Instr) (s t : State), exec i s = .next t → t.lastRes.isError = true →
    t = { s with lastRes := t.lastRes, err := true }

/-- R142: no non-error outcome sets ERR, EMPTY leaves TREE_VALID and CODES_VALID 0, END changes nothing but LASTRES. -/
def Obligations.NonErrorOutcomesKeepErr : Prop :=
  ∀ (i : Instr) (s t : State), exec i s = .next t → t.lastRes.isError = false →
    (t.err = true → s.err = true)
    ∧ (t.lastRes = .empty → t.builder.valid = false ∧ t.codes.valid = false)
    ∧ (t.lastRes = .endOfData → t = { s with lastRes := .endOfData })

/-- R141, R20: ERR stays 1 until CLEAR_STATUS or SOFT_RESET, and an error sets it. -/
def Obligations.ErrIsSticky : Prop :=
  ∀ (i : Instr) (s t : State), exec i s = .next t →
    t.err = if i = .clearStatus ∨ i = .softReset then false else (s.err || t.lastRes.isError)

/-- R136: each command ends with an outcome of its row of the table. -/
def Obligations.OutcomesAreThoseOfTheTable : Prop :=
  ∀ (i : Instr) (s t : State), i.wellFormed = true → exec i s = .next t → t.lastRes ∈ allowedOutcomes i

/-- R138: a command whose state precondition fails ends E_SEQUENCE, with every change discarded, and no command ends
E_SEQUENCE otherwise. -/
def Obligations.ESequenceExactlyWhenThePreconditionFails : Prop :=
  ∀ (i : Instr) (s : State), i.wellFormed = true →
    (preconditionHolds i s = false → exec i s = .next { s with lastRes := .eSequence, err := true })
    ∧ (preconditionHolds i s = true → ∀ t, exec i s = .next t → t.lastRes ≠ .eSequence)

/-- R144: a command stops only on a read of a payload byte that nothing has written, and only UP_NEXT_BIT and DEC_STEP
do; and no command is refused. -/
def Obligations.OnlyUnwrittenPayloadStopsACommand : Prop :=
  ∀ (i : Instr) (s : State),
    (∀ f, exec i s = .fault f →
      (i = .upNextBit ∨ i = .decStep) ∧ ∃ a, f = .unwrittenPayload a ∧ s.pay.read a = none)
    ∧ ∀ r, exec i s ≠ .refused r

/-- R109, R62: UP_NEXT_BIT and DEC_STEP read no payload byte at an offset of UP_LEN or more: with other bytes there, written
or not, they do the same, and a stop names an offset below UP_LEN. No other command's result depends on PAY. -/
def Obligations.ReadsStayBelowUpLen : Prop :=
  ∀ (i : Instr) (s : State) (m : Memory),
    ((i = .upNextBit ∨ i = .decStep) → UnpackerInv s →
        (∀ a, a < s.unpacker.len.toNat → m.read a = s.pay.read a) →
        (∀ t, exec i s = .next t → exec i { s with pay := m } = .next { t with pay := m })
        ∧ ∀ f, exec i s = .fault f → exec i { s with pay := m } = .fault f
          ∧ ∃ a, f = .unwrittenPayload a ∧ a < s.unpacker.len.toNat)
    ∧ (i ≠ .upNextBit → i ≠ .decStep → ∀ t, exec i s = .next t →
        ∃ u, exec i { s with pay := m } = .next u ∧ u = { t with pay := u.pay })

/-- R18, R21–R32 (`Written by`), R65 (`results`): which commands can change CMD, ARG0, ARG1, each of RES0–RES3, CODEBUF, and
each RAM and unit. R22: only an OK or EMPTY end writes RES. -/
def Obligations.EachUnitHasItsWriters : Prop :=
  ∀ (i : Instr) (s t : State), exec i s = .next t →
    HostSideKept s t
    ∧ (i ≠ .softReset → t.arg0 = s.arg0 ∧ t.arg1 = s.arg1)
    ∧ ((resultCount i = 0 ∨ (t.lastRes ≠ .ok ∧ t.lastRes ≠ .empty)) → i ≠ .softReset → t.res0 = s.res0)
    ∧ ((resultCount i ≤ 1 ∨ (t.lastRes ≠ .ok ∧ t.lastRes ≠ .empty)) → i ≠ .softReset → t.res1 = s.res1)
    ∧ ((resultCount i ≤ 2 ∨ (t.lastRes ≠ .ok ∧ t.lastRes ≠ .empty)) → i ≠ .softReset → t.res2 = s.res2)
    ∧ ((resultCount i ≤ 3 ∨ (t.lastRes ≠ .ok ∧ t.lastRes ≠ .empty)) → i ≠ .softReset → t.res3 = s.res3)
    ∧ ((∀ v, i ≠ .getCode v) → i ≠ .softReset → t.cb = s.cb)
    ∧ ((∀ v, i ≠ .freqSet v) → i ≠ .freqClear → i ≠ .softReset → t.freq = s.freq)
    ∧ (i ≠ .build → i ≠ .freqClear → i ≠ .softReset → t.builder = s.builder)
    ∧ (i ≠ .genCodes → i ≠ .build → i ≠ .freqClear → i ≠ .softReset → t.codes = s.codes)
    ∧ (appendedBits i s = none → i ≠ .pkReset → i ≠ .pkFinish → i ≠ .softReset → t.packer = s.packer)
    ∧ (appendedBits i s = none → i ≠ .pkFinish → t.pay = s.pay)
    ∧ ((∀ k, i ≠ .upStart k) → i ≠ .upNextBit → i ≠ .decStep → i ≠ .softReset → t.unpacker = s.unpacker)
    ∧ (i ≠ .decClear → (∀ v n, i ≠ .decInsert v n) → i ≠ .softReset → t.decoder = s.decoder)

/-! ### Control (46_control.md) -/

/-- R121, R122: NOP writes LASTRES = OK and nothing else; CLEAR_STATUS also clears ERR and nothing else. -/
def Obligations.NopAndClearStatusComplete : Prop :=
  ∀ s : State,
    exec .nop s = .next { s with lastRes := .ok }
    ∧ exec .clearStatus s = .next { s with lastRes := .ok, err := false }

/-- R123 with the "after SOFT_RESET" column of R35. -/
def Obligations.SoftResetGivesTheResetColumn : Prop :=
  ∀ s : State, ∃ t, exec .softReset s = .next t
    ∧ HostSideKept s t ∧ statusWord t = 0 ∧ t.lastRes = .ok
    ∧ t.arg0 = 0 ∧ t.arg1 = 0 ∧ t.res0 = 0 ∧ t.res1 = 0 ∧ t.res2 = 0 ∧ t.res3 = 0 ∧ (∀ k : Fin 8, t.cb[k.val] = 0)
    ∧ (∀ v, ByteTable.get t.freq v = 0)
    ∧ t.builder.leafWeight = s.builder.leafWeight ∧ t.builder.inner = s.builder.inner
    ∧ (∀ v, ByteTable.get t.builder.inTree v = false)
    ∧ t.builder.nLeaves = 0 ∧ t.builder.nInt = 0 ∧ t.builder.root = 0 ∧ t.builder.valid = false
    ∧ t.codes.clen = s.codes.clen ∧ t.codes.cbits = s.codes.cbits
    ∧ t.codes.nCodes = 0 ∧ t.codes.maxLen = 0 ∧ t.codes.valid = false
    ∧ t.packer = ⟨0, 0, 0, false⟩ ∧ t.unpacker = ⟨0, 8, 0⟩
    ∧ t.decoder.nodeAt 0 = ⟨.none, .none⟩ ∧ (∀ j, j ≠ 0 → t.decoder.nodeAt j = s.decoder.nodeAt j)
    ∧ t.decoder.dnCount = 1 ∧ (∀ v, ByteTable.get t.decoder.seen v = false) ∧ t.decoder.nEnt = 0
    ∧ ∀ a, t.pay.read a = s.pay.read a

/-! ### The frequency RAM and the tree builder (41_tree_builder.md) -/

/-- R80: FREQ_CLEAR empties FREQ and invalidates the tree and the codes, and touches nothing else; BUILD then ends
EMPTY. -/
def Obligations.FreqClearStartsANewTable : Prop :=
  ∀ s : State, ∃ t, exec .freqClear s = .next t
    ∧ t.lastRes = .ok ∧ t.err = s.err
    ∧ (∀ v, ByteTable.get t.freq v = 0)
    ∧ t.builder.valid = false ∧ t.codes.valid = false ∧ (∀ v, ByteTable.get t.builder.inTree v = false)
    ∧ t.builder.nLeaves = 0 ∧ t.builder.nInt = 0 ∧ t.builder.root = 0
    ∧ t.builder.leafWeight = s.builder.leafWeight ∧ t.builder.inner = s.builder.inner
    ∧ t.codes = { s.codes with valid := false }
    ∧ HostSideKept s t ∧ t.arg0 = s.arg0 ∧ t.arg1 = s.arg1 ∧ t.cb = s.cb
    ∧ t.res0 = s.res0 ∧ t.res1 = s.res1 ∧ t.res2 = s.res2 ∧ t.res3 = s.res3
    ∧ t.packer = s.packer ∧ t.unpacker = s.unpacker ∧ t.decoder = s.decoder ∧ (∀ a, t.pay.read a = s.pay.read a)
    ∧ ∃ u, exec .build t = .next u ∧ u.lastRes = .empty

/-- R81, R82, R68: FREQ_SET stores {ARG1, ARG0} in one entry and changes nothing else but LASTRES; FREQ_GET of it then
reads the count back, and any FREQ_GET reads its entry and changes only RES0, RES1 and LASTRES. -/
def Obligations.FreqSetThenFreqGet : Prop :=
  ∀ (s : State) (v : Byte),
    (∃ t, exec (.freqSet v) s = .next t
      ∧ ByteTable.get t.freq v = s.arg1 ++ s.arg0
      ∧ (∀ w, w ≠ v → ByteTable.get t.freq w = ByteTable.get s.freq w)
      ∧ t = { s with lastRes := .ok, freq := t.freq }
      ∧ ∃ u, exec (.freqGet v) t = .next u ∧ u.res0 = s.arg0 ∧ u.res1 = s.arg1)
    ∧ ∃ t, exec (.freqGet v) s = .next t
      ∧ t.res1 ++ t.res0 = ByteTable.get s.freq v
      ∧ t = { s with lastRes := .ok, res0 := t.res0, res1 := t.res1 }

/-- R83: BUILD when FREQ holds no count. -/
def Obligations.BuildOfAnEmptyTable : Prop :=
  ∀ s : State, (∀ v, ByteTable.get s.freq v = 0) → ∃ t, exec .build s = .next t
    ∧ t.lastRes = .empty ∧ t.err = s.err
    ∧ t.builder.valid = false ∧ t.codes.valid = false ∧ (∀ v, ByteTable.get t.builder.inTree v = false)
    ∧ t.builder.nLeaves = 0 ∧ t.builder.nInt = 0 ∧ t.builder.root = 0
    ∧ t.res0 = 0 ∧ t.res1 = 0 ∧ t.res2 = 0

/-- R83: BUILD when the total weight does not fit in u64. -/
def Obligations.BuildReportsOverflow : Prop :=
  ∀ s : State, 2 ^ 64 - 1 < ((List.range 256).map fun v => (ByteTable.get s.freq (BitVec.ofNat 8 v)).toNat).sum →
    exec .build s = .next { s with lastRes := .eOverflow, err := true }

/-- R83, R89: BUILD when FREQ holds a count and the total fits: the bookkeeping, the snapshot and the results, for n
distinct bytes. -/
def Obligations.BuildCompletes : Prop :=
  ∀ (s : State) (n : Nat),
    n = ((List.range 256).filter fun v => ByteTable.get s.freq (BitVec.ofNat 8 v) ≠ 0).length → 1 ≤ n →
    ((List.range 256).map fun v => (ByteTable.get s.freq (BitVec.ofNat 8 v)).toNat).sum ≤ 2 ^ 64 - 1 →
    ∃ t, exec .build s = .next t
      ∧ t.lastRes = .ok ∧ t.builder.valid = true ∧ t.codes.valid = false
      ∧ t.builder.nLeaves = n ∧ t.builder.nInt = (if n = 1 then 1 else n - 1)
      ∧ t.builder.root.toNat = 256 + t.builder.nInt - 1
      ∧ (∀ v, ByteTable.get t.builder.leafWeight v = ByteTable.get s.freq v)
      ∧ (∀ v, ByteTable.get t.builder.inTree v = true ↔ ByteTable.get s.freq v ≠ 0)
      ∧ t.res0.toNat = t.builder.root.toNat ∧ t.res1.toNat = n ∧ t.res2.toNat = t.builder.nInt

/-- R84, R85: in the tree of n ≥ 2 bytes, merge k joins the two slots of least key (weight, index) in the queue at that
point, the least on the left, into slot 256 + k, whose weight is their sum. -/
def Obligations.EachMergeJoinsTheTwoLeastKeys : Prop :=
  ∀ s t : State, exec .build s = .next t → t.lastRes = .ok → 2 ≤ t.builder.nLeaves →
    let w (i : Nat) : Nat := (t.builder.weight i).toNat
    let before (i j : Nat) : Prop := w i < w j ∨ (w i = w j ∧ i < j)
    ∀ k, k < t.builder.nInt → ∃ (x y : Nat) (n : InnerNode),
      x < 256 + k ∧ y < 256 + k ∧ t.builder.inner[k]? = some n
      ∧ n.left = some (BitVec.ofNat 9 x) ∧ n.right = some (BitVec.ofNat 9 y) ∧ n.weight.toNat = w x + w y
      ∧ t.builder.inQueueAt k x ∧ t.builder.inQueueAt k y ∧ before x y
      ∧ ∀ z, t.builder.inQueueAt k z → z = x ∨ z = y ∨ before y z

/-- R86: the single-symbol tree. -/
def Obligations.SingleSymbolTreeHasOneLeftLeaf : Prop :=
  ∀ (s : State) (v : Byte), ByteTable.get s.freq v ≠ 0 → (∀ w, w ≠ v → ByteTable.get s.freq w = 0) →
    ∃ t, exec .build s = .next t ∧ t.lastRes = .ok
      ∧ t.builder.inner[0]? = some ⟨ByteTable.get s.freq v, some (v.setWidth 9), none⟩
      ∧ t.builder.root = 256 ∧ t.builder.nInt = 1

/-- R89 item 5: BUILD's outcome and tree are functions of FREQ alone. -/
def Obligations.TreeDependsOnFreqAlone : Prop :=
  ∀ s s' t t' : State, s.freq = s'.freq → exec .build s = .next t → exec .build s' = .next t' →
    t.lastRes = t'.lastRes
    ∧ (t.lastRes = .ok →
        t.builder.root = t'.builder.root ∧ t.builder.nInt = t'.builder.nInt ∧ t.builder.nLeaves = t'.builder.nLeaves
        ∧ t.builder.inTree = t'.builder.inTree ∧ t.builder.leafWeight = t'.builder.leafWeight
        ∧ ∀ k, k < t.builder.nInt → t.builder.inner[k]? = t'.builder.inner[k]?)

/-- R88: READ_NODE without a tree, on an index that names no node, on a leaf and on an internal node. -/
def Obligations.ReadNodeDescribesANode : Prop :=
  ∀ s : State,
    (s.builder.valid = false → exec .readNode s = .next { s with lastRes := .eSequence, err := true })
    ∧ (s.builder.valid = true →
        (510 < s.arg0.toNat
          ∨ (s.arg0.toNat < 256 ∧ ByteTable.get s.builder.inTree (s.arg0.setWidth 8) = false)
          ∨ (256 ≤ s.arg0.toNat ∧ s.builder.nInt ≤ s.arg0.toNat - 256)) →
        exec .readNode s = .next { s with lastRes := .eBadArgs, err := true })
    ∧ (s.builder.valid = true → s.arg0.toNat < 256 →
        ByteTable.get s.builder.inTree (s.arg0.setWidth 8) = true →
        ∃ t, exec .readNode s = .next t
          ∧ t.res0.toNat = s.arg0.toNat * 256
          ∧ t.res2 ++ t.res1 = ByteTable.get s.builder.leafWeight (s.arg0.setWidth 8) ∧ t.res3 = 0
          ∧ t = { s with lastRes := .ok, res0 := t.res0, res1 := t.res1, res2 := t.res2, res3 := 0 })
    ∧ ∀ n, s.builder.valid = true → 256 ≤ s.arg0.toNat → s.arg0.toNat ≤ 510 →
        s.arg0.toNat - 256 < s.builder.nInt → s.builder.inner[s.arg0.toNat - 256]? = some n →
        ∃ t, exec .readNode s = .next t
          ∧ t.res0.toNat = 1 + (s.arg0.toNat - 256) * 2 ^ 16
          ∧ t.res2 ++ t.res1 = n.weight
          ∧ t.res3.toNat = n.left.bits.toNat + n.right.bits.toNat * 2 ^ 16
          ∧ t = { s with lastRes := .ok, res0 := t.res0, res1 := t.res1, res2 := t.res2, res3 := t.res3 }

/-- The frame of the commands of 41_tree_builder.md: FREQ_CLEAR, FREQ_SET, FREQ_GET, BUILD, READ_NODE. -/
def Obligations.BuilderCommandsFrame : Prop :=
  ∀ (i : Instr) (s t : State), exec i s = .next t →
    (i = .freqClear ∨ (∃ v, i = .freqSet v) ∨ (∃ v, i = .freqGet v) ∨ i = .build ∨ i = .readNode) →
    HostSideKept s t ∧ t.err = (s.err || t.lastRes.isError)
    ∧ t.arg0 = s.arg0 ∧ t.arg1 = s.arg1 ∧ t.cb = s.cb
    ∧ t.packer = s.packer ∧ t.unpacker = s.unpacker ∧ t.decoder = s.decoder ∧ (∀ a, t.pay.read a = s.pay.read a)
    ∧ t.codes.clen = s.codes.clen ∧ t.codes.cbits = s.codes.cbits
    ∧ t.codes.nCodes = s.codes.nCodes ∧ t.codes.maxLen = s.codes.maxLen
    ∧ (i = .freqClear ∨ i = .build ∨ (t.builder = s.builder ∧ t.codes.valid = s.codes.valid))
    ∧ (i = .build → t.freq = s.freq ∧ t.res3 = s.res3
        ∧ ∀ k, t.builder.nInt ≤ k → t.builder.inner[k]? = s.builder.inner[k]?)
    ∧ ((∃ v, i = .freqGet v) → t.freq = s.freq ∧ t.res2 = s.res2 ∧ t.res3 = s.res3)
    ∧ (i = .readNode → t.freq = s.freq)
    ∧ ((i = .freqClear ∨ ∃ v, i = .freqSet v) →
        t.res0 = s.res0 ∧ t.res1 = s.res1 ∧ t.res2 = s.res2 ∧ t.res3 = s.res3)

/-! ### The code table (42_code_table.md) -/

/-- R92: GEN_CODES completes on a valid tree and reports NCODES and MAXLEN; without one it ends E_SEQUENCE. -/
def Obligations.GenCodesCompletes : Prop :=
  ∀ s : State,
    (s.builder.valid = false → exec .genCodes s = .next { s with lastRes := .eSequence, err := true })
    ∧ (s.builder.valid = true → ∃ t, exec .genCodes s = .next t
        ∧ t.codes.valid = true
        ∧ t.codes.nCodes = ((List.range 256).filter fun v => ByteTable.get t.codes.clen (BitVec.ofNat 8 v) ≠ 0).length
        ∧ (∀ v, (ByteTable.get t.codes.clen v).toNat ≤ t.codes.maxLen)
        ∧ (∃ v, (ByteTable.get t.codes.clen v).toNat = t.codes.maxLen)
        ∧ t.res0.toNat = t.codes.nCodes ∧ t.res1.toNat = t.codes.maxLen
        ∧ t = { s with lastRes := .ok, codes := t.codes, res0 := t.res0, res1 := t.res1 })

/-- R92: on a valid tree of R36's shape, the code of a byte is its leaf's root-to-leaf path, 0 left and 1 right, and a
byte outside the tree has none. -/
def Obligations.CodesAreTheRootToLeafPaths : Prop :=
  ∀ s : State, TreeInv s → s.builder.valid = true → ∃ t, exec .genCodes s = .next t ∧ t.lastRes = .ok
    ∧ ∀ (v : Byte) (p : Bits), (v.toNat, p) ∈ s.builder.leaves ↔
        (ByteTable.get t.codes.clen v).toNat = p.length ∧ ByteTable.get t.codes.clen v ≠ 0
          ∧ ByteTable.get t.codes.cbits v = p

/-- R93, R23: GET_CODE writes the code's length to RES0 and the code to CODEBUF position by position, with 0 after it, and
nothing else; without a valid code table it ends E_SEQUENCE. -/
def Obligations.GetCodeFillsTheCodeBuffer : Prop :=
  ∀ (s : State) (v : Byte),
    (s.codes.valid = false → exec (.getCode v) s = .next { s with lastRes := .eSequence, err := true })
    ∧ (s.codes.valid = true → ∃ t, exec (.getCode v) s = .next t
        ∧ t.res0.toNat = (ByteTable.get s.codes.clen v).toNat
        ∧ (∀ p, p < 256 → codebufBit t.cb p =
            (decide (p < (ByteTable.get s.codes.clen v).toNat) && ((ByteTable.get s.codes.cbits v)[p]?).getD false))
        ∧ t = { s with lastRes := .ok, res0 := t.res0, cb := t.cb })

/-! ### The bit packer (43_bit_packer.md) -/

/-- R98: PK_RESET empties the packer and writes RES0 and RES1; PAY keeps its bytes; only it and SOFT_RESET reopen a closed
packer. -/
def Obligations.PkResetStartsAStream : Prop :=
  ∀ s : State,
    exec .pkReset s = .next { s with lastRes := .ok, packer := ⟨0, 0, 0, false⟩, res0 := 0, res1 := 0 }
    ∧ ∀ (i : Instr) (t : State), exec i s = .next t → s.packer.closed = true → t.packer.closed = false →
        i = .pkReset ∨ i = .softReset

/-- R99–R102, R106: an append that is in sequence, has a code and fits in PAY completes: the bits go to the stream
positions after those already appended, in order, each earlier one keeps its place, and RES0 and RES1 report PK_WPTR and
PK_NB. PK_ENCODE also reports the code length in RES2. -/
def Obligations.AppendPlacesEachBit : Prop :=
  ∀ (i : Instr) (s : State) (bits : Bits), ParamsInv s → PackerInv s → i.wellFormed = true →
    appendedBits i s = some bits → preconditionHolds i s = true →
    (∀ v, i = .pkEncode v → ByteTable.get s.codes.clen v ≠ 0) →
    s.packer.wptr.toNat + (s.packer.nb + bits.length) / 8 ≤ s.params.payBytes →
    ∃ t, exec i s = .next t ∧ t.lastRes = .ok
      ∧ t.packer.bitCount = s.packer.bitCount + bits.length ∧ t.packer.nb ≤ 7 ∧ t.packer.closed = false
      ∧ t.res0 = t.packer.wptr ∧ t.res1.toNat = t.packer.nb
      ∧ (∀ j, j < s.packer.bitCount → packedBit t j = packedBit s j)
      ∧ (∀ k, k < bits.length → packedBit t (s.packer.bitCount + k) = bits[k]?)
      ∧ ∀ v, i = .pkEncode v → t.res2.toNat = (ByteTable.get s.codes.clen v).toNat

/-- R101, R102, R139: an append that may not run changes nothing but STATUS: PK_CLOSED, then CODES_VALID, then the
missing code, then the full payload. -/
def Obligations.AppendErrorsInOrder : Prop :=
  ∀ (i : Instr) (s : State) (bits : Bits), i.wellFormed = true → appendedBits i s = some bits →
    (preconditionHolds i s = false → exec i s = .next { s with lastRes := .eSequence, err := true })
    ∧ (∀ v, i = .pkEncode v → preconditionHolds i s = true → ByteTable.get s.codes.clen v = 0 →
        exec i s = .next { s with lastRes := .eNoCode, err := true })
    ∧ (preconditionHolds i s = true → (∀ v, i = .pkEncode v → ByteTable.get s.codes.clen v ≠ 0) →
        s.params.payBytes < s.packer.wptr.toNat + (s.packer.nb + bits.length) / 8 →
        exec i s = .next { s with lastRes := .ePayloadFull, err := true })

/-- R103, R104, R105: PK_FINISH on B appended bits reports ⌈B/8⌉ bytes and the valid count, writes the partial byte (whose
low bits are 0) if there is one, and closes the packer; when closed it ends E_SEQUENCE, and with no room for the
partial byte E_PAYLOAD_FULL. -/
def Obligations.PkFinishReportsTheValidCount : Prop :=
  ∀ s : State, ParamsInv s → PackerInv s →
    (s.packer.closed = true → exec .pkFinish s = .next { s with lastRes := .eSequence, err := true })
    ∧ (s.packer.closed = false → s.packer.nb ≠ 0 → s.params.payBytes < s.packer.wptr.toNat + 1 →
        exec .pkFinish s = .next { s with lastRes := .ePayloadFull, err := true })
    ∧ (s.packer.closed = false → (s.packer.nb = 0 ∨ s.packer.wptr.toNat + 1 ≤ s.params.payBytes) →
        ∃ t, exec .pkFinish s = .next t ∧ t.lastRes = .ok
          ∧ t.res0.toNat = (s.packer.bitCount + 7) / 8
          ∧ t.res1.toNat = (if s.packer.bitCount % 8 = 0 then 8 else s.packer.bitCount % 8)
          ∧ t.packer = ⟨0, 0, t.res0, true⟩
          ∧ (s.packer.nb ≠ 0 → t.pay.read s.packer.wptr.toNat = some s.packer.cur)
          ∧ ∀ a, (s.packer.nb = 0 ∨ a ≠ s.packer.wptr.toNat) → t.pay.read a = s.pay.read a)

/-- The frame of the commands of 43_bit_packer.md. An append stores to the bytes it completes, from PK_WPTR on; PK_FINISH
stores one byte at PK_WPTR when PK_NB > 0; PK_RESET stores nothing. -/
def Obligations.PackerCommandsFrame : Prop :=
  ∀ (i : Instr) (s t : State), ParamsInv s → PackerInv s → exec i s = .next t →
    (i = .pkReset ∨ i = .pkFinish ∨ ∃ bits, appendedBits i s = some bits) →
    HostSideKept s t ∧ t.err = (s.err || t.lastRes.isError)
    ∧ t.arg0 = s.arg0 ∧ t.arg1 = s.arg1 ∧ t.cb = s.cb ∧ t.freq = s.freq ∧ t.builder = s.builder ∧ t.codes = s.codes
    ∧ t.unpacker = s.unpacker ∧ t.decoder = s.decoder ∧ t.res3 = s.res3
    ∧ ((∀ v, i ≠ .pkEncode v) → t.res2 = s.res2)
    ∧ (∀ bits, appendedBits i s = some bits → ∀ a,
        (a < s.packer.wptr.toNat ∨ s.packer.wptr.toNat + bytesCompleted s.packer bits ≤ a) →
        t.pay.read a = s.pay.read a)
    ∧ (i = .pkFinish → ∀ a, a ≠ s.packer.wptr.toNat → t.pay.read a = s.pay.read a)
    ∧ (i = .pkReset → ∀ a, t.pay.read a = s.pay.read a)

/-! ### The bit unpacker (44_bit_unpacker.md) -/

/-- R108, R109: UP_START with a valid count in 1..8 and a length of at most PAY_BYTES starts at position 0 and reports T;
any other ends E_BAD_ARGS. -/
def Obligations.UpStartReportsT : Prop :=
  ∀ (s : State) (k : Byte),
    ((k.toNat < 1 ∨ 8 < k.toNat ∨ s.params.payBytes < s.arg0.toNat) →
      exec (.upStart k) s = .next { s with lastRes := .eBadArgs, err := true })
    ∧ (1 ≤ k.toNat → k.toNat ≤ 8 → s.arg0.toNat ≤ s.params.payBytes →
        ∃ t, exec (.upStart k) s = .next t
          ∧ t.unpacker.len = s.arg0 ∧ t.unpacker.valid.toNat = k.toNat ∧ t.unpacker.pos = 0
          ∧ t.res0.toNat + t.res1.toNat * 2 ^ 32 =
              (if s.arg0 = 0 then 0 else 8 * (s.arg0.toNat - 1) + k.toNat)
          ∧ t = { s with lastRes := .ok, unpacker := t.unpacker, res0 := t.res0, res1 := t.res1 })

/-- R110: UP_NEXT_BIT at T ends END and changes nothing else, however often it is repeated; below T it replays the bit of
its position (first bit most significant), or stops where the byte was never written (R144). -/
def Obligations.UpNextBitReplaysOneBit : Prop :=
  ∀ s : State,
    (s.unpacker.pos.toNat = meaningfulBits s.unpacker →
      exec .upNextBit s = .next { s with lastRes := .endOfData })
    ∧ (∀ b, s.unpacker.pos.toNat < meaningfulBits s.unpacker → s.pay.read (s.unpacker.pos.toNat / 8) = some b →
        ∃ t, exec .upNextBit s = .next t
          ∧ t.res0.toNat = (b.getLsbD (7 - s.unpacker.pos.toNat % 8)).toNat
          ∧ t.unpacker.pos.toNat = s.unpacker.pos.toNat + 1
          ∧ t.res1.toNat + t.res2.toNat * 2 ^ 32 = s.unpacker.pos.toNat + 1
          ∧ t = { s with
              lastRes := .ok, unpacker := { s.unpacker with pos := t.unpacker.pos }
              res0 := t.res0, res1 := t.res1, res2 := t.res2 })
    ∧ (s.unpacker.pos.toNat < meaningfulBits s.unpacker → s.pay.read (s.unpacker.pos.toNat / 8) = none →
        exec .upNextBit s = .fault (.unwrittenPayload (s.unpacker.pos.toNat / 8)))

/-- R111: when PK_FINISH reports (N, k) for B appended bits, `START N, k` gives T = B, and every bit below T that
UP_NEXT_BIT would read is the bit appended at that position. -/
def Obligations.FinishedStreamReplaysItsBits : Prop :=
  ∀ s t : State, ParamsInv s → PackerInv s → (∀ a, a < s.packer.wptr.toNat → s.pay.read a ≠ none) →
    exec .pkFinish s = .next t → t.lastRes = .ok →
    ∃ u, exec (.upStart (t.res1.setWidth 8)) { t with arg0 := t.res0 } = .next u ∧ u.lastRes = .ok
      ∧ u.unpacker.pos = 0 ∧ meaningfulBits u.unpacker = s.packer.bitCount
      ∧ ∀ j, j < s.packer.bitCount → ∃ b, packedBit s j = some b ∧ streamBit u.pay j = .ok b

/-! ### The Huffman decoder (45_decoder.md) -/

/-- R113: DEC_CLEAR empties the decoder tree and changes nothing else; DEC_STEP then ends END. -/
def Obligations.DecClearEmptiesTheTree : Prop :=
  ∀ s : State, ∃ t, exec .decClear s = .next t
    ∧ (∀ b, t.decoder.child 0 b = .none) ∧ (∀ j b, j ≠ 0 → t.decoder.child j b = s.decoder.child j b)
    ∧ t.decoder.dnCount = 1 ∧ (∀ v, ByteTable.get t.decoder.seen v = false) ∧ t.decoder.nEnt = 0
    ∧ (statusWord t).getLsbD 11 = false
    ∧ t = { s with lastRes := .ok, decoder := t.decoder }
    ∧ exec .decStep t = .next { t with lastRes := .endOfData }

/-- R114, R139: DEC_INSERT's errors in their order. The code collides exactly when its slot is not NONE (R115), and needs
one new node for each of its bits but the last that has none. -/
def Obligations.DecInsertErrorsInOrder : Prop :=
  ∀ (s : State) (v n : Byte) (code : Bits), code = codebufBits s.cb n.toNat →
    (n = 0 → exec (.decInsert v n) s = .next { s with lastRes := .eBadLength, err := true })
    ∧ (n ≠ 0 → ByteTable.get s.decoder.seen v = true →
        exec (.decInsert v n) s = .next { s with lastRes := .eDuplicate, err := true })
    ∧ (n ≠ 0 → ByteTable.get s.decoder.seen v = false → s.decoder.slotAt 0 code ≠ .none →
        exec (.decInsert v n) s = .next { s with lastRes := .ePrefix, err := true })
    ∧ (n ≠ 0 → ByteTable.get s.decoder.seen v = false → s.decoder.slotAt 0 code = .none →
        s.params.decIntCap < s.decoder.dnCount + (n.toNat - 1 - s.decoder.depthAlong 0 code) →
        exec (.decInsert v n) s = .next { s with lastRes := .eNodeFull, err := true })

/-- R115: a code that extends, equals or is a proper prefix of a code already inserted ends E_PREFIX. -/
def Obligations.CollidingCodeEndsEPrefix : Prop :=
  ∀ (s : State) (v n w : Byte) (q : Bits), n ≠ 0 → ByteTable.get s.decoder.seen v = false →
    s.decoder.byteOf 0 q = some w →
    (q <+: codebufBits s.cb n.toNat ∨ codebufBits s.cb n.toNat <+: q) →
    exec (.decInsert v n) s = .next { s with lastRes := .ePrefix, err := true }

/-- R114, R116: an insert that passes its checks adds exactly its code: it decodes to v, every other bit sequence decodes
as before, and the counts grow by one entry and by the new nodes. -/
def Obligations.DecInsertAddsExactlyItsCode : Prop :=
  ∀ (s : State) (v n : Byte) (code : Bits), ParamsInv s → DecoderInv s →
    code = codebufBits s.cb n.toNat → n ≠ 0 → ByteTable.get s.decoder.seen v = false →
    s.decoder.slotAt 0 code = .none →
    s.decoder.dnCount + (n.toNat - 1 - s.decoder.depthAlong 0 code) ≤ s.params.decIntCap →
    ∃ t, exec (.decInsert v n) s = .next t
      ∧ t.decoder.byteOf 0 code = some v
      ∧ (∀ q w, q ≠ code → (t.decoder.byteOf 0 q = some w ↔ s.decoder.byteOf 0 q = some w))
      ∧ ByteTable.get t.decoder.seen v = true
      ∧ (∀ w, w ≠ v → ByteTable.get t.decoder.seen w = ByteTable.get s.decoder.seen w)
      ∧ t.decoder.nEnt = s.decoder.nEnt + 1
      ∧ t.decoder.dnCount = s.decoder.dnCount + (n.toNat - 1 - s.decoder.depthAlong 0 code)
      ∧ t.res0.toNat = t.decoder.nEnt ∧ t.res1.toNat = t.decoder.dnCount
      ∧ t = { s with lastRes := .ok, decoder := t.decoder, res0 := t.res0, res1 := t.res1 }

/-- R117: when the payload bits from UP_POS spell a code of the decoder tree within T, DEC_STEP gives its byte and its
length and moves UP_POS past it. -/
def Obligations.DecStepDecodesACode : Prop :=
  ∀ (s : State) (p : Bits) (v : Byte), s.decoder.nEnt ≠ 0 → s.decoder.byteOf 0 p = some v →
    s.unpacker.pos.toNat + p.length ≤ meaningfulBits s.unpacker →
    (∀ k b, p[k]? = some b → streamBit s.pay (s.unpacker.pos.toNat + k) = .ok b) →
    ∃ t, exec .decStep s = .next t
      ∧ t.res0.toNat = v.toNat ∧ t.res1 = BitVec.ofNat 32 p.length
      ∧ t.unpacker.pos.toNat = s.unpacker.pos.toNat + p.length
      ∧ t.res2.toNat + t.res3.toNat * 2 ^ 32 = s.unpacker.pos.toNat + p.length
      ∧ t = { s with
          lastRes := .ok, unpacker := { s.unpacker with pos := t.unpacker.pos }
          res0 := t.res0, res1 := t.res1, res2 := t.res2, res3 := t.res3 }

/-- R117, R144: how DEC_STEP ends without a byte. END with no code or no bit left; E_TRUNCATED when the bits run out below
the root; E_NO_CHILD when they lead to an empty slot: each leaves everything but STATUS, so UP_POS stays. And it stops
when bits that lead only over internal nodes, or none, reach a byte below T that nothing has written. -/
def Obligations.DecStepEndsWithoutAByte : Prop :=
  ∀ s : State,
    ((s.decoder.nEnt = 0 ∨ s.unpacker.pos.toNat = meaningfulBits s.unpacker) →
      exec .decStep s = .next { s with lastRes := .endOfData })
    ∧ ∀ p : Bits, s.decoder.nEnt ≠ 0 →
        (∀ k b, p[k]? = some b → streamBit s.pay (s.unpacker.pos.toNat + k) = .ok b) →
        (p ≠ [] → s.unpacker.pos.toNat + p.length = meaningfulBits s.unpacker → s.decoder.depthAlong 0 p = p.length →
          exec .decStep s = .next { s with lastRes := .eTruncated, err := true })
        ∧ (s.unpacker.pos.toNat + p.length ≤ meaningfulBits s.unpacker →
          s.decoder.depthAlong 0 p + 1 = p.length → s.decoder.slotAt 0 p = .none →
          exec .decStep s = .next { s with lastRes := .eNoChild, err := true })
        ∧ (s.unpacker.pos.toNat + p.length < meaningfulBits s.unpacker → s.decoder.depthAlong 0 p = p.length →
          s.pay.read ((s.unpacker.pos.toNat + p.length) / 8) = none →
          exec .decStep s = .fault (.unwrittenPayload ((s.unpacker.pos.toNat + p.length) / 8)))

/-! ### The host port (20_memory.md) -/

/-- R40, R41, R48, R49: a register access that is not 4 bytes, is misaligned or unmapped, a write to a read-only register,
and a payload access that is misaligned or out of range answer BUS_ERROR and change no state of HTB. -/
def Obligations.BusErrorsChangeNothing : Prop :=
  ∀ (s : State) (offset : Nat) (size : Size) (w : Word),
    ((size ≠ .four ∨ offset % 4 ≠ 0 ∨ (0x02C ≤ offset ∧ offset < 0x040) ∨ 0x060 ≤ offset) →
      serve (.read .reg offset size) s = .next { s with answer := some .busError }
      ∧ serve (.write .reg offset size w) s = .next { s with answer := some .busError })
    ∧ (offset ∈ [0x004, 0x010, 0x014, 0x018, 0x01C, 0x020, 0x024, 0x028] →
        serve (.write .reg offset size w) s = .next { s with answer := some .busError })
    ∧ ((offset % size.bytes ≠ 0 ∨ s.params.payBytes < offset + size.bytes) →
        serve (.read .pay offset size) s = .next { s with answer := some .busError }
        ∧ serve (.write .pay offset size w) s = .next { s with answer := some .busError })

/-- R15, R19, R42: what each mapped register reads; a read has no side effect. -/
def Obligations.RegisterReadsFollowTheMap : Prop :=
  ∀ s : State,
    let reads (offset : Nat) (v : Word) : Prop :=
      serve (.read .reg offset .four) s = .next { s with answer := some (.ok (some v)) }
    reads 0x000 s.cmd ∧ reads 0x004 (statusWord s) ∧ reads 0x008 s.arg0 ∧ reads 0x00C s.arg1
    ∧ reads 0x010 s.res0 ∧ reads 0x014 s.res1 ∧ reads 0x018 s.res2 ∧ reads 0x01C s.res3
    ∧ reads 0x020 0x48544231 ∧ reads 0x024 (BitVec.ofNat 32 s.params.payBytes)
    ∧ reads 0x028 (BitVec.ofNat 32 s.params.decIntCap)
    ∧ ∀ k : Fin 8, reads (0x040 + 4 * k.val) s.cb[k.val]

/-- R41, R44, R53: a write to ARG0, ARG1 or CBk stores all 32 bits, has no other effect, and reads back. -/
def Obligations.RegisterWritesReadBack : Prop :=
  ∀ (s : State) (w : Word),
    serve (.write .reg 0x008 .four w) s = .next { s with arg0 := w, answer := some (.ok none) }
    ∧ serve (.write .reg 0x00C .four w) s = .next { s with arg1 := w, answer := some (.ok none) }
    ∧ ∀ k : Fin 8, ∃ t, serve (.write .reg (0x040 + 4 * k.val) .four w) s = .next t
        ∧ t = { s with cb := t.cb, answer := some (.ok none) }
        ∧ (∀ j : Fin 8, t.cb[j.val] = if j = k then w else s.cb[j.val])
        ∧ serve (.read .reg (0x040 + 4 * k.val) .four) t = .next { t with answer := some (.ok (some w)) }

/-- R53: no read has a side effect. -/
def Obligations.ReadsHaveNoSideEffect : Prop :=
  ∀ (s t : State) (aperture : Aperture) (offset : Nat) (size : Size),
    serve (.read aperture offset size) s = .next t → t = { s with answer := t.answer }

/-- R20: STATUS bit by bit; bits 3:1 and 31:12 read 0. -/
def Obligations.StatusBits : Prop :=
  ∀ (s : State) (n : Nat), (statusWord s).getLsbD n =
    if n = 0 then s.err
    else if n < 4 then false
    else if n < 8 then s.lastRes.code.getLsbD (n - 4)
    else if n = 8 then s.builder.valid
    else if n = 9 then s.codes.valid
    else if n = 10 then s.packer.closed
    else if n = 11 then decide (0 < s.decoder.nEnt)
    else false

/-- R45, R47: an aligned payload write in range answers OK, stores its bytes least significant first, leaves every other
byte and all other state alone, and reads back as the same size. That a narrow write takes the low bytes of a 32-bit
datum, and a narrow read answers zeros above its bytes, is the model's own reading (log 17, DEDUCED). -/
def Obligations.PayloadWriteThenRead : Prop :=
  ∀ (s : State) (a : Nat) (size : Size) (v : Word), a % size.bytes = 0 → a + size.bytes ≤ s.params.payBytes →
    ∃ t, serve (.write .pay a size v) s = .next t
      ∧ (∀ i, i < size.bytes → t.pay.read (a + i) = some (v.extractLsb' (8 * i) 8))
      ∧ (∀ j, (j < a ∨ a + size.bytes ≤ j) → t.pay.read j = s.pay.read j)
      ∧ t = { s with pay := t.pay, answer := some (.ok none) }
      ∧ serve (.read .pay a size) t =
          .next { t with answer := some (.ok (some (BitVec.ofNat 32 (v.toNat % 2 ^ (8 * size.bytes))))) }

/-- R144: a payload read in range that covers a byte nothing has written stops, naming such a byte. -/
def Obligations.UnwrittenPayloadReadFaults : Prop :=
  ∀ (s : State) (a : Nat) (size : Size), a % size.bytes = 0 → a + size.bytes ≤ s.params.payBytes →
    (∃ j, a ≤ j ∧ j < a + size.bytes ∧ s.pay.read j = none) →
    ∃ j, a ≤ j ∧ j < a + size.bytes ∧ s.pay.read j = none
      ∧ serve (.read .pay a size) s = .fault (.unwrittenPayload j)

/-! ### Reset (70_reset_and_hazards.md, 10_state.md R35) -/

/-- R153, R154: a power-on reset gives the reset state with nothing written in PAY; a hardware reset the same with PAY
kept, but for the 32 bytes from PK_WPTR on, whose marks are cleared where it cuts a command short, and then the CMD
write gets no OK. The parameters stay. The model's own, beside the two rules: that the marks go whichever command was cut,
and what else becomes of `answer` (log 9); that PK_WPTR to PK_WPTR + 31 is these 32 offsets (log 23); that marks are
cleared at all, against R32's "not even by reset", and what becomes of `pending` and the parameters (log 20); the values
of NODE, CLEN, CBITS and DN[1..], which R35 leaves unspecified (logs 4, 5, 6, 15). -/
def Obligations.ResetsGiveTheResetState : Prop :=
  ∀ (s : State) (rest : List PortEvent) (kind : ResetKind) (cuts : Bool), s.pending = .reset kind cuts :: rest →
    ∃ t, step s = .next t
      ∧ t = { State.resetWith s.params with pay := t.pay, pending := rest, answer := t.answer }
      ∧ (∀ data, t.answer ≠ some (.ok data))
      ∧ ∀ a, t.pay.read a =
          if kind = .powerOn then none
          else if cuts = true ∧ s.packer.wptr.toNat ≤ a ∧ a < s.packer.wptr.toNat + 32 then none
          else s.pay.read a

/-- R35: the reset value of every register, flag and counter R35 gives one, for every instance. -/
def Obligations.ResetValues : Prop :=
  ∀ p : Params,
    let s := State.resetWith p
    s.params = p ∧ s.cmd = 0 ∧ statusWord s = 0 ∧ s.lastRes = .ok ∧ s.arg0 = 0 ∧ s.arg1 = 0
    ∧ s.res0 = 0 ∧ s.res1 = 0 ∧ s.res2 = 0 ∧ s.res3 = 0 ∧ (∀ k : Fin 8, s.cb[k.val] = 0)
    ∧ (∀ v, ByteTable.get s.freq v = 0) ∧ (∀ v, ByteTable.get s.builder.inTree v = false)
    ∧ s.builder.nLeaves = 0 ∧ s.builder.nInt = 0 ∧ s.builder.root = 0 ∧ s.codes.nCodes = 0 ∧ s.codes.maxLen = 0
    ∧ s.packer = ⟨0, 0, 0, false⟩ ∧ s.unpacker = ⟨0, 8, 0⟩
    ∧ s.decoder.nodeAt 0 = ⟨.none, .none⟩ ∧ s.decoder.dnCount = 1
    ∧ (∀ v, ByteTable.get s.decoder.seen v = false) ∧ s.decoder.nEnt = 0 ∧ ∀ a, s.pay.read a = none

/-! ### Invariants (10_state.md R36) -/

/-- R36: the state after reset meets every invariant, for every instance in range. -/
def Obligations.ResetMeetsTheInvariants : Prop :=
  ∀ p : Params, p.wf →
    ParamsInv (State.resetWith p) ∧ PackerInv (State.resetWith p) ∧ UnpackerInv (State.resetWith p)
    ∧ PayInv (State.resetWith p) ∧ TreeInv (State.resetWith p) ∧ CodesInv (State.resetWith p)
    ∧ DecoderInv (State.resetWith p)

/-- R36 items 3 and 4, R19, R32: every step keeps the parameters, the packer's ranges and padding, the unpacker's ranges,
and PAY's canonical form inside PAY_BYTES. -/
def Obligations.StepKeepsTheStreamInvariants : Prop :=
  ∀ s t : State, ParamsInv s → PackerInv s → UnpackerInv s → PayInv s → step s = .next t →
    t.params = s.params ∧ ParamsInv t ∧ PackerInv t ∧ UnpackerInv t ∧ PayInv t

/-- R36 items 1 and 2: every step keeps the shape of the builder tree and, with it, a prefix-free code for each of its
bytes. -/
def Obligations.StepKeepsTheTreeAndCodeInvariants : Prop :=
  ∀ s t : State, TreeInv s → CodesInv s → step s = .next t → TreeInv t ∧ CodesInv t

/-- R36 item 5: every step keeps the shape of the decoder tree. -/
def Obligations.StepKeepsTheDecoderInvariant : Prop :=
  ∀ s t : State, ParamsInv s → DecoderInv s → step s = .next t → DecoderInv t
end

