-- ==== Sys2Proof/Laws/Memory.lean ====
section
/-! SUPPORT. The laws of sparse storage and of PAY: a read after a write, what a write leaves alone, and that every
operation on PAY keeps its canonical form (Memory.wf). -/

namespace Sys2Proof.Machine

variable {α : Type}

/-! ### Sparse storage -/

theorem sparseGet_put_same (m : List (Nat × α)) (k : Nat) (x : α) : sparseGet (sparsePut m k x) k = some x := by
  induction m with
  | nil => simp [sparsePut, sparseGet]
  | cons e rest ih =>
    obtain ⟨a, y⟩ := e
    simp only [sparsePut]
    split
    · simp [sparseGet]
    · split
      · simp [sparseGet]
      · rename_i h
        simp [sparseGet, Ne.symm h, ih]

theorem sparseGet_put_other (m : List (Nat × α)) (k j : Nat) (x : α) (h : j ≠ k) :
    sparseGet (sparsePut m k x) j = sparseGet m j := by
  induction m with
  | nil => simp [sparsePut, sparseGet, Ne.symm h]
  | cons e rest ih =>
    obtain ⟨a, y⟩ := e
    simp only [sparsePut]
    split
    · simp [sparseGet, Ne.symm h]
    · split
      · rename_i hk
        subst hk
        simp [sparseGet, Ne.symm h]
      · simp [sparseGet, ih]

theorem sparseGet_put (m : List (Nat × α)) (k j : Nat) (x : α) :
    sparseGet (sparsePut m k x) j = if j = k then some x else sparseGet m j := by
  split
  · next h => rw [h, sparseGet_put_same]
  · next h => exact sparseGet_put_other m k j x h

theorem sparseGet_filter (m : List (Nat × α)) (p : Nat → Bool) (j : Nat) :
    sparseGet (m.filter fun e => p e.1) j = if p j then sparseGet m j else none := by
  induction m with
  | nil => simp [sparseGet]
  | cons e rest ih =>
    obtain ⟨a, y⟩ := e
    by_cases hp : p a = true
    · simp only [List.filter_cons, hp, if_true, sparseGet, ih]
      by_cases ha : a = j
      · subst ha; simp [hp]
      · simp [ha]
    · simp only [List.filter_cons, hp, Bool.false_eq_true, if_false, sparseGet]
      rw [ih]
      by_cases ha : a = j
      · subst ha; simp [hp]
      · simp [ha]

theorem sparseGet_erase (m : List (Nat × α)) (k j : Nat) :
    sparseGet (sparseErase m k) j = if j = k then none else sparseGet m j := by
  have h := sparseGet_filter m (fun a => decide (a ≠ k)) j
  simp only [sparseErase]
  rw [h]
  by_cases hj : j = k <;> simp [hj]

theorem mem_sparsePut {m : List (Nat × α)} {k : Nat} {x : α} {e : Nat × α} (h : e ∈ sparsePut m k x) :
    e = (k, x) ∨ e ∈ m := by
  induction m with
  | nil => simpa [sparsePut] using h
  | cons e' rest ih =>
    obtain ⟨a, y⟩ := e'
    simp only [sparsePut] at h
    split at h
    · simpa using h
    · split at h
      · rcases List.mem_cons.1 h with h | h
        · exact .inl h
        · exact .inr (List.mem_cons_of_mem _ h)
      · rcases List.mem_cons.1 h with h | h
        · exact .inr (h ▸ List.mem_cons_self)
        · exact (ih h).imp_right (List.mem_cons_of_mem _)

theorem keysRise_put {m : List (Nat × α)} (h : KeysRise m) (k : Nat) (x : α) : KeysRise (sparsePut m k x) := by
  induction m with
  | nil => simp [sparsePut, KeysRise]
  | cons e rest ih =>
    obtain ⟨a, y⟩ := e
    have ⟨hhead, htail⟩ := List.pairwise_cons.1 h
    simp only [sparsePut]
    split
    · next hk =>
      refine List.pairwise_cons.2 ⟨fun e he => ?_, h⟩
      rcases List.mem_cons.1 he with rfl | he
      · exact hk
      · have := hhead e he; simp only at *; omega
    · next hk =>
      split
      · next hka =>
        subst hka
        exact List.pairwise_cons.2 ⟨hhead, htail⟩
      · next hka =>
        refine List.pairwise_cons.2 ⟨fun e he => ?_, ih htail⟩
        rcases mem_sparsePut he with rfl | he
        · simp only; omega
        · exact hhead e he

theorem keysRise_filter {m : List (Nat × α)} (h : KeysRise m) (p : Nat × α → Bool) : KeysRise (m.filter p) :=
  h.sublist List.filter_sublist

theorem sparseGet_some_mem {m : List (Nat × α)} {k : Nat} {x : α} (h : sparseGet m k = some x) : (k, x) ∈ m := by
  induction m with
  | nil => simp [sparseGet] at h
  | cons e rest ih =>
    obtain ⟨a, y⟩ := e
    simp only [sparseGet] at h
    split at h
    · next ha => cases h; exact ha ▸ List.mem_cons_self
    · exact List.mem_cons_of_mem _ (ih h)

/-! ### PAY -/

@[simp] theorem Memory.read_nil (a : Nat) : Memory.read [] a = none := rfl

theorem Memory.read_write (m : Memory) (a j : Nat) (b : Byte) :
    (m.write a b).read j = if j = a then some b else m.read j := sparseGet_put m a j b

theorem Memory.read_clearMarks (m : Memory) (a n j : Nat) :
    (m.clearMarks a n).read j = if a ≤ j ∧ j < a + n then none else m.read j := by
  have h := sparseGet_filter m (fun x => decide (x < a ∨ a + n ≤ x)) j
  simp only [Memory.read, Memory.clearMarks]
  rw [h]
  by_cases hj : a ≤ j ∧ j < a + n
  · simp [hj, show ¬ (j < a ∨ a + n ≤ j) by omega]
  · simp [hj, show j < a ∨ a + n ≤ j by omega]

theorem Memory.wf_write {m : Memory} (h : m.wf) (a : Nat) (b : Byte) : (m.write a b).wf := keysRise_put h a b

theorem Memory.wf_clearMarks {m : Memory} (h : m.wf) (a n : Nat) : (m.clearMarks a n).wf := keysRise_filter h _

theorem Memory.mem_write {m : Memory} {a : Nat} {b : Byte} {e : Host.Cell} (h : e ∈ m.write a b) :
    e = (a, b) ∨ e ∈ m := mem_sparsePut h

theorem memWrite_wf {m : Memory} (h : m.wf) (a n : Nat) (v : Word) : (memWrite m a n v).wf := by
  induction n generalizing m a v with
  | zero => exact h
  | succ n ih => exact ih (Memory.wf_write h _ _) _ _

/-- A write of n bytes leaves every byte outside a..a+n−1 alone. -/
theorem memWrite_read_other (m : Memory) (a n : Nat) (v : Word) (j : Nat) (h : j < a ∨ a + n ≤ j) :
    (memWrite m a n v).read j = m.read j := by
  induction n generalizing m a v with
  | zero => rfl
  | succ n ih =>
    simp only [memWrite]
    rw [ih _ _ _ (by omega), Memory.read_write, if_neg (by omega)]

/-- Byte i of a write of n bytes is byte i of the value, least significant first. -/
theorem memWrite_read_byte (m : Memory) (a n : Nat) (v : Word) (i : Nat) (h : i < n) :
    (memWrite m a n v).read (a + i) = some ((v >>> (8 * i)).setWidth 8) := by
  induction n generalizing m a v i with
  | zero => omega
  | succ n ih =>
    simp only [memWrite]
    cases i with
    | zero => rw [memWrite_read_other _ _ _ _ _ (by omega), Memory.read_write]; simp
    | succ i =>
      rw [show a + (i + 1) = (a + 1) + i by omega, ih _ _ _ _ (by omega)]
      congr 2
      rw [← BitVec.shiftRight_add]
      congr 1
      omega

theorem memWrite_mem {m : Memory} {a n : Nat} {v : Word} {e : Host.Cell} (h : e ∈ memWrite m a n v) :
    (a ≤ e.1 ∧ e.1 < a + n) ∨ e ∈ m := by
  induction n generalizing m a v with
  | zero => exact .inr h
  | succ n ih =>
    rcases ih h with h | h
    · exact .inl (by omega)
    · rcases Memory.mem_write h with rfl | h
      · exact .inl (by simp)
      · exact .inr h

/-- A load faults exactly on a byte nothing has written, and names it. -/
theorem Memory.load_eq_error {m : Memory} {a : Nat} {f : Fault} :
    m.load a = .error f ↔ f = .unwrittenPayload a ∧ m.read a = none := by
  unfold Memory.load
  cases m.read a <;> simp [eq_comm]

theorem Memory.load_eq_ok {m : Memory} {a : Nat} {b : Byte} : m.load a = .ok b ↔ m.read a = some b := by
  unfold Memory.load
  cases m.read a <;> simp

theorem streamBit_eq_ok {m : Memory} {p : Nat} {x : Bool} :
    streamBit m p = .ok x ↔ ∃ b, m.read (p / 8) = some b ∧ byteBit b p = x := by
  unfold streamBit Memory.load
  cases m.read (p / 8) <;> simp

theorem streamBit_eq_error {m : Memory} {p : Nat} {f : Fault} :
    streamBit m p = .error f ↔ f = .unwrittenPayload (p / 8) ∧ m.read (p / 8) = none := by
  unfold streamBit Memory.load
  cases m.read (p / 8) <;> simp [eq_comm]

/-- A stream bit depends on its own byte of PAY alone. -/
theorem streamBit_congr {m m' : Memory} {p : Nat} (h : m'.read (p / 8) = m.read (p / 8)) :
    streamBit m' p = streamBit m p := by
  simp only [streamBit, Memory.load, h]

/-- A read of n bytes faults on its first unwritten byte. -/
theorem memRead_eq_error {m : Memory} {a n : Nat} {f : Fault} (h : memRead m a n = .error f) :
    ∃ j, a ≤ j ∧ j < a + n ∧ f = .unwrittenPayload j ∧ m.read j = none := by
  induction n generalizing a with
  | zero => simp [memRead] at h
  | succ n ih =>
    simp only [memRead] at h
    split at h
    · next f' hl =>
      cases h
      obtain ⟨h1, h2⟩ := Memory.load_eq_error.1 hl
      exact ⟨a, by omega, by omega, h1, h2⟩
    · split at h
      · next f' hr =>
        cases h
        obtain ⟨j, h1, h2, h3⟩ := ih hr
        exact ⟨j, by omega, by omega, h3⟩
      · cases h

end Sys2Proof.Machine
end

