-- ==== Sys2Proof/Laws/Ops.lean ====
section
/-! SUPPORT. What the shared operations can do: how commands end, the byte tables, the bit order, the decoder node RAM. -/

namespace Sys2Proof.Machine

/-! ### How a command ends -/

@[simp] theorem finish_eq (o : CmdOutcome) (s : State) : finish o s = .next (s.ended o) := rfl

@[simp] theorem raise_eq (e : CmdOutcome) (s : State) : raise e s = .next (s.failed e) := rfl

@[simp] theorem complete_ok (s t : State) : complete s (.ok t) = .next (t.ended .ok) := rfl

@[simp] theorem complete_error (s : State) (e : CmdOutcome) : complete s (.error e) = .next (s.failed e) := rfl

/-- A completed command answers a next state: the new state ended OK, or the old one with the error recorded. -/
theorem complete_cases {s t : State} {r : Except CmdOutcome State} (h : complete s r = .next t) :
    (∃ u, r = .ok u ∧ t = u.ended .ok) ∨ (∃ e, r = .error e ∧ t = s.failed e) := by
  cases r with
  | ok u => exact .inl ⟨u, rfl, by simpa using h.symm⟩
  | error e => exact .inr ⟨e, rfl, by simpa using h.symm⟩

/-! ### Byte tables -/

@[simp] theorem ByteTable.get_put_same {α : Type} (t : ByteTable α) (v : Byte) (x : α) :
    ByteTable.get (ByteTable.put t v x) v = x := by
  simp [ByteTable.get, ByteTable.put]

theorem ByteTable.get_put {α : Type} (t : ByteTable α) (v w : Byte) (x : α) :
    ByteTable.get (ByteTable.put t v x) w = if w = v then x else ByteTable.get t w := by
  by_cases h : w = v
  · subst h; simp
  · have : v.toNat ≠ w.toNat := fun hn => h (BitVec.eq_of_toNat_eq hn.symm)
    simp [ByteTable.get, ByteTable.put, h, this]

@[simp] theorem ByteTable.get_replicate {α : Type} (x : α) (v : Byte) :
    ByteTable.get (Vector.replicate 256 x) v = x := by
  simp [ByteTable.get]

theorem zipIdx_filter {α : Type} (p : α → Bool) (l : List α) (k : Nat) :
    ((l.zipIdx k).filter fun e => p e.1).map (fun e => e.2)
      = (List.range' k l.length).filter fun v => (l[v - k]?.map p).getD false := by
  induction l generalizing k with
  | nil => rfl
  | cons x l ih =>
    have hrest : ((List.range' (k + 1) l.length).filter fun v => ((x :: l)[v - k]?.map p).getD false)
        = (List.range' (k + 1) l.length).filter fun v => (l[v - (k + 1)]?.map p).getD false := by
      refine List.filter_congr fun v hv => ?_
      have := List.mem_range'_1.1 hv
      rw [show v - k = (v - (k + 1)) + 1 by omega, List.getElem?_cons_succ]
    rw [List.zipIdx_cons, List.length_cons, List.range'_succ, List.filter_cons, List.filter_cons, hrest, ← ih]
    cases h : p x <;> simp [h]

theorem ByteTable.keysWhere_eq {α : Type} (t : ByteTable α) (p : α → Bool) :
    ByteTable.keysWhere t p = (List.range 256).filter fun v => (t[v]?.map p).getD false := by
  unfold ByteTable.keysWhere
  rw [zipIdx_filter]
  simp [List.range_eq_range']

theorem ByteTable.mem_keysWhere {α : Type} (t : ByteTable α) (p : α → Bool) (v : Byte) :
    v.toNat ∈ ByteTable.keysWhere t p ↔ p (ByteTable.get t v) = true := by
  have hv : v.toNat < 256 := v.isLt
  simp [ByteTable.keysWhere_eq, ByteTable.get, hv]

theorem ByteTable.keysWhere_lt {α : Type} {t : ByteTable α} {p : α → Bool} {v : Nat}
    (h : v ∈ ByteTable.keysWhere t p) : v < 256 := by
  simp only [ByteTable.keysWhere_eq, List.mem_filter, List.mem_range] at h
  exact h.1

theorem ByteTable.keysWhere_length {α : Type} (t : ByteTable α) (p : α → Bool) :
    (ByteTable.keysWhere t p).length = ((List.range 256).filter fun v => p (ByteTable.get t (BitVec.ofNat 8 v))).length := by
  rw [ByteTable.keysWhere_eq]
  refine congrArg List.length (List.filter_congr fun v hv => ?_)
  have hv := List.mem_range.1 hv
  simp [ByteTable.get, hv, Nat.mod_eq_of_lt hv]

theorem ByteTable.keysWhere_nodup {α : Type} (t : ByteTable α) (p : α → Bool) : (ByteTable.keysWhere t p).Nodup := by
  rw [ByteTable.keysWhere_eq]
  exact List.nodup_range.sublist List.filter_sublist

/-! ### The bit order -/

/-- A bit of a word is decided by its value below two to the eight. -/
theorem byteOfBits_eq (f : Nat → Bool) :
    byteOfBits f = BitVec.ofNat 8
      ((f 0).toNat * 128 + (f 1).toNat * 64 + (f 2).toNat * 32 + (f 3).toNat * 16
        + (f 4).toNat * 8 + (f 5).toNat * 4 + (f 6).toNat * 2 + (f 7).toNat) := by
  have h : ∀ b0 b1 b2 b3 b4 b5 b6 b7 : Bool,
      [b0, b1, b2, b3, b4, b5, b6, b7].foldl (fun (acc : Byte) b => acc <<< 1 ||| (BitVec.ofBool b).setWidth 8) 0
        = BitVec.ofNat 8 (b0.toNat * 128 + b1.toNat * 64 + b2.toNat * 32 + b3.toNat * 16
          + b4.toNat * 8 + b5.toNat * 4 + b6.toNat * 2 + b7.toNat) := by decide
  exact h (f 0) (f 1) (f 2) (f 3) (f 4) (f 5) (f 6) (f 7)

/-- The byte of eight bits holds bit m, first bit most significant. -/
theorem byteBit_byteOfBits (f : Nat → Bool) (p : Nat) : byteBit (byteOfBits f) p = f (p % 8) := by
  have h : ∀ b0 b1 b2 b3 b4 b5 b6 b7 : Bool, ∀ k : Fin 8,
      (BitVec.ofNat 8 (b0.toNat * 128 + b1.toNat * 64 + b2.toNat * 32 + b3.toNat * 16
          + b4.toNat * 8 + b5.toNat * 4 + b6.toNat * 2 + b7.toNat)).getLsbD (7 - k.val)
        = [b0, b1, b2, b3, b4, b5, b6, b7][k.val] := by decide
  rw [byteBit, byteOfBits_eq]
  have hk : p % 8 < 8 := Nat.mod_lt _ (by omega)
  rw [h (f 0) (f 1) (f 2) (f 3) (f 4) (f 5) (f 6) (f 7) ⟨p % 8, hk⟩]
  simp only
  generalize p % 8 = k at hk
  match k, hk with
  | 0, _ | 1, _ | 2, _ | 3, _ | 4, _ | 5, _ | 6, _ | 7, _ => rfl

/-! ### The decoder node RAM -/

@[simp] theorem Decoder.nodeAt_setNode_same (d : Decoder) (i : Nat) (n : DNode) : (d.setNode i n).nodeAt i = n := by
  simp only [Decoder.setNode, Decoder.nodeAt]
  split
  · next h => simp [sparseGet_erase, h]
  · simp [sparseGet_put]

theorem Decoder.nodeAt_setNode_other (d : Decoder) (i j : Nat) (n : DNode) (h : j ≠ i) :
    (d.setNode i n).nodeAt j = d.nodeAt j := by
  simp only [Decoder.setNode, Decoder.nodeAt]
  split
  · simp [sparseGet_erase, h]
  · simp [sparseGet_put, h]

@[simp] theorem Decoder.setNode_dnCount (d : Decoder) (i : Nat) (n : DNode) : (d.setNode i n).dnCount = d.dnCount := rfl
@[simp] theorem Decoder.setNode_seen (d : Decoder) (i : Nat) (n : DNode) : (d.setNode i n).seen = d.seen := rfl
@[simp] theorem Decoder.setNode_nEnt (d : Decoder) (i : Nat) (n : DNode) : (d.setNode i n).nEnt = d.nEnt := rfl

@[simp] theorem DNode.child_setChild_same (n : DNode) (b : Bool) (c : DChild) : (n.setChild b c).child b = c := by
  cases b <;> rfl

theorem DNode.child_setChild_other (n : DNode) (b b' : Bool) (c : DChild) (h : b' ≠ b) :
    (n.setChild b c).child b' = n.child b' := by
  cases b <;> cases b' <;> first | rfl | exact absurd rfl h

/-- A child slot written holds what was written; every other slot of every node is as before. -/
theorem Decoder.child_setChild (d : Decoder) (i j : Nat) (b b' : Bool) (c : DChild) :
    (d.setChild i b c).child j b' = if j = i ∧ b' = b then c else d.child j b' := by
  simp only [Decoder.child, Decoder.setChild]
  by_cases hj : j = i
  · subst hj
    rw [Decoder.nodeAt_setNode_same]
    by_cases hb : b' = b
    · subst hb; simp
    · simp [hb, DNode.child_setChild_other]
  · simp [hj, Decoder.nodeAt_setNode_other]

@[simp] theorem Decoder.setChild_dnCount (d : Decoder) (i : Nat) (b : Bool) (c : DChild) :
    (d.setChild i b c).dnCount = d.dnCount := rfl
@[simp] theorem Decoder.setChild_seen (d : Decoder) (i : Nat) (b : Bool) (c : DChild) :
    (d.setChild i b c).seen = d.seen := rfl
@[simp] theorem Decoder.setChild_nEnt (d : Decoder) (i : Nat) (b : Bool) (c : DChild) :
    (d.setChild i b c).nEnt = d.nEnt := rfl

/-- A node write keeps DN's storage form: keys rise and no node {NONE, NONE} is listed. -/
theorem Decoder.setNode_form {d : Decoder} (h : KeysRise d.dn) (h' : ∀ e ∈ d.dn, e.2 ≠ DNode.empty) (i : Nat)
    (n : DNode) : KeysRise (d.setNode i n).dn ∧ ∀ e ∈ (d.setNode i n).dn, e.2 ≠ DNode.empty := by
  simp only [Decoder.setNode]
  split
  · exact ⟨keysRise_filter h _, fun e he => h' e (List.mem_filter.1 he |>.1)⟩
  · next hn =>
    refine ⟨keysRise_put h _ _, fun e he => ?_⟩
    rcases mem_sparsePut he with rfl | he
    · exact hn
    · exact h' e he

end Sys2Proof.Machine
end

