-- ==== Sys2Proof/Laws/Packer.lean ====
section
/-! SUPPORT. What the packer's loop does (43_bit_packer.md R102, R106): counts, ranges, padding, which bytes it writes and
where each bit goes. -/

namespace Sys2Proof.Machine

/-- The packer's own part of R36 item 3: at most seven bits in PK_CUR, and zeros below them. -/
structure Packer.Fits (pk : Packer) : Prop where
  nb_le : pk.nb ≤ 7
  padded : pk.cur.toNat % 2 ^ (8 - pk.nb) = 0

theorem toNat_add_one {x : Word} (h : x.toNat + 1 < 2 ^ 32) : (x + 1).toNat = x.toNat + 1 := by
  rw [BitVec.toNat_add, show (1 : Word).toNat = 1 from rfl, Nat.mod_eq_of_lt h]

/-- PK_CUR with one more bit. -/
def Packer.filled (pk : Packer) (b : Bool) : Byte := pk.cur ||| ((BitVec.ofBool b).setWidth 8 <<< (7 - pk.nb))

theorem getLsbD_bit_shift (b : Bool) (n i : Nat) (hi : i < 8) :
    ((BitVec.ofBool b).setWidth 8 <<< n).getLsbD i = (decide (i = n) && b) := by
  rw [BitVec.getLsbD_shiftLeft]
  simp only [BitVec.getLsbD_setWidth, BitVec.getLsbD_ofBool, hi]
  by_cases h : i < n
  · simp [h, show i ≠ n by omega]
  · by_cases h' : i = n
    · subst h'; simp
    · have : i - n ≠ 0 := by omega
      simp [h, h', this]

theorem getLsbD_of_padded {c : Byte} {n i : Nat} (h : c.toNat % 2 ^ n = 0) (hi : i < n) : c.getLsbD i = false := by
  have hb : Nat.testBit (c.toNat % 2 ^ n) i = false := by rw [h]; simp
  rw [Nat.testBit_mod_two_pow] at hb
  simpa [BitVec.getLsbD, hi] using hb

theorem Packer.Fits.filled_getLsbD {pk : Packer} (h : pk.Fits) (b : Bool) (i : Nat) (hi : i < 8) :
    (pk.filled b).getLsbD i = if i = 7 - pk.nb then b else pk.cur.getLsbD i := by
  have := h.nb_le
  rw [Packer.filled, BitVec.getLsbD_or, getLsbD_bit_shift _ _ _ hi]
  split
  · next he =>
    rw [getLsbD_of_padded h.padded (by omega)]
    simp [he]
  · next he => simp [he]

/-- The bits below the new one are still 0. -/
theorem Packer.Fits.filled_padded {pk : Packer} (h : pk.Fits) (b : Bool) :
    (pk.filled b).toNat % 2 ^ (7 - pk.nb) = 0 := by
  apply Nat.eq_of_testBit_eq
  intro i
  rw [Nat.testBit_mod_two_pow, Nat.zero_testBit]
  by_cases hi : i < 7 - pk.nb
  · have := h.filled_getLsbD b i (by omega)
    rw [if_neg (by omega), getLsbD_of_padded h.padded (by omega)] at this
    simp only [BitVec.getLsbD] at this
    simp [this]
  · simp [hi]

/-- One turn of the loop: either the bit stays in PK_CUR, or it completes the byte and the byte is written. -/
theorem pushBit_eq (pk : Packer) (m : Memory) (b : Bool) :
    pushBit pk m b =
      if pk.nb = 7 then ({ pk with cur := 0, nb := 0, wptr := pk.wptr + 1 }, m.write pk.wptr.toNat (pk.filled b))
      else ({ pk with cur := pk.filled b, nb := pk.nb + 1 }, m) := by
  by_cases h : pk.nb = 7
  · simp [pushBit, flushByte, Packer.filled, h]
  · simp [pushBit, Packer.filled, h, show pk.nb + 1 ≠ 8 by omega]

theorem Packer.Fits.pushBit {pk : Packer} (h : pk.Fits) (m : Memory) (b : Bool) : (pushBit pk m b).1.Fits := by
  have := h.nb_le
  rw [pushBit_eq]
  split
  · exact ⟨by simp, by simp⟩
  · next hn =>
    refine ⟨by simp only; omega, ?_⟩
    have hp := h.filled_padded b
    rwa [show 7 - pk.nb = 8 - (pk.nb + 1) by omega] at hp

theorem pushBit_closed (pk : Packer) (m : Memory) (b : Bool) : (Machine.pushBit pk m b).1.closed = pk.closed := by
  rw [pushBit_eq]; split <;> rfl

theorem pushBit_wptr (pk : Packer) (m : Memory) (b : Bool) (h : pk.Fits)
    (hw : pk.wptr.toNat + (pk.nb + 1) / 8 < 2 ^ 32) :
    (Machine.pushBit pk m b).1.wptr.toNat = pk.wptr.toNat + (pk.nb + 1) / 8 := by
  have := h.nb_le
  rw [pushBit_eq]
  split
  · next hn =>
    simp only [hn]
    exact toNat_add_one (by omega)
  · simp only; omega

theorem pushBit_nb (pk : Packer) (m : Memory) (b : Bool) (h : pk.Fits) :
    (Machine.pushBit pk m b).1.nb = (pk.nb + 1) % 8 := by
  have := h.nb_le
  rw [pushBit_eq]
  split
  · next hn => simp [hn]
  · simp only; omega

theorem pushBit_read_other (pk : Packer) (m : Memory) (b : Bool) (a : Nat)
    (ha : pk.nb = 7 → a ≠ pk.wptr.toNat) : (Machine.pushBit pk m b).2.read a = m.read a := by
  rw [pushBit_eq]
  split
  · next hn => rw [Memory.read_write, if_neg (ha hn)]
  · rfl

theorem bitAt_written {pk : Packer} (m : Memory) {j : Nat} (h : j / 8 < pk.wptr.toNat) :
    pk.bitAt m j = (m.read (j / 8)).map fun b => byteBit b j := by
  rw [Packer.bitAt, if_pos h]

theorem bitAt_partial {pk : Packer} (m : Memory) {j : Nat} (h : 8 * pk.wptr.toNat ≤ j)
    (h' : j < 8 * pk.wptr.toNat + pk.nb) : pk.bitAt m j = some (byteBit pk.cur j) := by
  rw [Packer.bitAt, if_neg (by omega), if_pos (by rw [Packer.bitCount]; exact h')]

theorem bitAt_past {pk : Packer} (m : Memory) {j : Nat} (h : 8 * pk.wptr.toNat + pk.nb ≤ j) :
    pk.bitAt m j = none := by
  rw [Packer.bitAt, if_neg (by omega), if_neg (by rw [Packer.bitCount]; omega)]

/-- Every bit already appended keeps its place, and the new one is at the next position. -/
theorem pushBit_bitAt (pk : Packer) (m : Memory) (b : Bool) (h : pk.Fits)
    (hw : pk.wptr.toNat + (pk.nb + 1) / 8 < 2 ^ 32) (j : Nat) :
    (Machine.pushBit pk m b).1.bitAt (Machine.pushBit pk m b).2 j = if j = pk.bitCount then some b else pk.bitAt m j := by
  have hnb := h.nb_le
  have hc : pk.bitCount = 8 * pk.wptr.toNat + pk.nb := rfl
  have hfill (i : Nat) : byteBit (pk.filled b) i = if i % 8 = pk.nb then b else byteBit pk.cur i := by
    rw [byteBit, h.filled_getLsbD b _ (by omega)]
    by_cases hi : i % 8 = pk.nb
    · rw [if_pos (by omega), if_pos hi]
    · rw [if_neg (by omega), if_neg hi]; rfl
  rw [pushBit_eq]
  split
  · next hn =>
    have hwp := toNat_add_one (x := pk.wptr) (by omega)
    by_cases h1 : j / 8 < pk.wptr.toNat
    · rw [if_neg (by omega), bitAt_written m h1, bitAt_written _ (by simp only [hwp]; omega), Memory.read_write,
        if_neg (by omega)]
    · by_cases h2 : j / 8 = pk.wptr.toNat
      · rw [bitAt_written _ (by simp only [hwp]; omega), Memory.read_write, if_pos h2, Option.map_some, hfill]
        by_cases h3 : j = pk.bitCount
        · rw [if_pos h3, if_pos (by omega)]
        · rw [if_neg h3, if_neg (by omega), bitAt_partial m (by omega) (by omega)]
      · rw [if_neg (by omega), bitAt_past m (by omega), bitAt_past _ (by simp only [hwp]; omega)]
  · next hn =>
    by_cases h1 : j / 8 < pk.wptr.toNat
    · rw [if_neg (by omega), bitAt_written m h1, bitAt_written _ (by simp only; omega)]
    · by_cases h2 : j < 8 * pk.wptr.toNat + (pk.nb + 1)
      · rw [bitAt_partial _ (by simp only; omega) (by simp only; omega), hfill]
        by_cases h3 : j = pk.bitCount
        · rw [if_pos h3, if_pos (by omega)]
        · rw [if_neg h3, if_neg (by omega), bitAt_partial m (by omega) (by omega)]
      · rw [if_neg (by omega), bitAt_past (pk := pk) m (by omega)]
        exact bitAt_past (pk := ⟨pk.filled b, pk.nb + 1, pk.wptr, pk.closed⟩) m (show 8 * pk.wptr.toNat + (pk.nb + 1) ≤ j by omega)

/-! ### The whole loop -/

theorem pushBits_fits {pk : Packer} (h : pk.Fits) (m : Memory) (bits : Bits) : (pushBits pk m bits).1.Fits := by
  induction bits generalizing pk m with
  | nil => exact h
  | cons b rest ih => exact ih (h.pushBit m b) _

theorem pushBits_closed (pk : Packer) (m : Memory) (bits : Bits) : (pushBits pk m bits).1.closed = pk.closed := by
  induction bits generalizing pk m with
  | nil => rfl
  | cons b rest ih => simp only [pushBits]; rw [ih, pushBit_closed]

/-- The packer an append leaves does not depend on what PAY holds. -/
theorem pushBits_packer (pk : Packer) (m m' : Memory) (bits : Bits) :
    (pushBits pk m bits).1 = (pushBits pk m' bits).1 := by
  induction bits generalizing pk m m' with
  | nil => rfl
  | cons b rest ih =>
    simp only [pushBits]
    rw [ih _ (Machine.pushBit pk m b).2 (Machine.pushBit pk m' b).2]
    congr 2
    rw [pushBit_eq, pushBit_eq]
    split <;> rfl

theorem pushBits_counts {pk : Packer} (h : pk.Fits) (m : Memory) (bits : Bits)
    (hw : pk.wptr.toNat + (pk.nb + bits.length) / 8 < 2 ^ 32) :
    (pushBits pk m bits).1.wptr.toNat = pk.wptr.toNat + (pk.nb + bits.length) / 8
      ∧ (pushBits pk m bits).1.nb = (pk.nb + bits.length) % 8 := by
  induction bits generalizing pk m with
  | nil => have := h.nb_le; simp only [pushBits, List.length_nil]; omega
  | cons b rest ih =>
    have hnb := h.nb_le
    have hw' : pk.wptr.toNat + (pk.nb + 1) / 8 < 2 ^ 32 := by simp only [List.length_cons] at hw; omega
    have e1 := pushBit_wptr pk m b h hw'
    have e2 := pushBit_nb pk m b h
    simp only [List.length_cons] at hw ⊢
    simp only [pushBits]
    have := ih (h.pushBit m b) (Machine.pushBit pk m b).2 (by rw [e1, e2]; omega)
    rw [this.1, this.2, e1, e2]
    omega

theorem pushBits_bitCount {pk : Packer} (h : pk.Fits) (m : Memory) (bits : Bits)
    (hw : pk.wptr.toNat + (pk.nb + bits.length) / 8 < 2 ^ 32) :
    (pushBits pk m bits).1.bitCount = pk.bitCount + bits.length := by
  have := pushBits_counts h m bits hw
  simp only [Packer.bitCount, this.1, this.2]
  omega

/-- The loop writes only the bytes it completes, from PK_WPTR on. -/
theorem pushBits_read_other {pk : Packer} (h : pk.Fits) (m : Memory) (bits : Bits)
    (hw : pk.wptr.toNat + (pk.nb + bits.length) / 8 < 2 ^ 32) (a : Nat)
    (ha : a < pk.wptr.toNat ∨ pk.wptr.toNat + bytesCompleted pk bits ≤ a) :
    (pushBits pk m bits).2.read a = m.read a := by
  induction bits generalizing pk m with
  | nil => rfl
  | cons b rest ih =>
    have hnb := h.nb_le
    have e1 := pushBit_wptr pk m b h (by simp only [List.length_cons] at hw; omega)
    have e2 := pushBit_nb pk m b h
    simp only [bytesCompleted, List.length_cons] at hw ha
    simp only [pushBits]
    rw [ih (h.pushBit m b) _ (by rw [e1, e2]; omega) (by simp only [bytesCompleted, e1, e2]; omega)]
    exact pushBit_read_other _ _ _ _ (by omega)

/-- Where each bit goes: the earlier ones stay, bit k of the sequence is at the k-th position after them. -/
theorem pushBits_bitAt {pk : Packer} (h : pk.Fits) (m : Memory) (bits : Bits)
    (hw : pk.wptr.toNat + (pk.nb + bits.length) / 8 < 2 ^ 32) (j : Nat) :
    (pushBits pk m bits).1.bitAt (pushBits pk m bits).2 j =
      if j < pk.bitCount then pk.bitAt m j
      else if j < pk.bitCount + bits.length then bits[j - pk.bitCount]?
      else pk.bitAt m j := by
  induction bits generalizing pk m with
  | nil => simp [pushBits]; intro; omega
  | cons b rest ih =>
    have hnb := h.nb_le
    have hw' : pk.wptr.toNat + (pk.nb + 1) / 8 < 2 ^ 32 := by simp only [List.length_cons] at hw; omega
    have e1 := pushBit_wptr pk m b h hw'
    have e2 := pushBit_nb pk m b h
    have ec : (Machine.pushBit pk m b).1.bitCount = pk.bitCount + 1 := by
      simp only [Packer.bitCount, e1, e2]; omega
    simp only [List.length_cons] at hw
    simp only [pushBits]
    rw [ih (h.pushBit m b) _ (by rw [e1, e2]; omega), ec, pushBit_bitAt pk m b h hw']
    simp only [List.length_cons]
    by_cases h1 : j < pk.bitCount
    · simp [h1, show j < pk.bitCount + 1 by omega, show j ≠ pk.bitCount by omega]
    · by_cases h2 : j = pk.bitCount
      · subst h2; simp
      · rw [if_neg h1, if_neg (by omega), if_neg h2]
        obtain ⟨k, rfl⟩ : ∃ k, j = pk.bitCount + 1 + k := ⟨j - pk.bitCount - 1, by omega⟩
        rw [show pk.bitCount + 1 + k - (pk.bitCount + 1) = k by omega,
          show pk.bitCount + 1 + k - pk.bitCount = k + 1 by omega, List.getElem?_cons_succ]
        by_cases h3 : k < rest.length
        · rw [if_pos (by omega), if_pos (by omega)]
        · rw [if_neg (by omega), if_neg (by omega)]

theorem pushBits_wf {m : Memory} (h : m.wf) (pk : Packer) (bits : Bits) : (pushBits pk m bits).2.wf := by
  induction bits generalizing pk m with
  | nil => exact h
  | cons b rest ih =>
    refine ih ?_ _
    rw [pushBit_eq]
    split
    · exact Memory.wf_write h _ _
    · exact h

/-- The loop adds no byte outside those it completes. -/
theorem pushBits_mem {pk : Packer} (h : pk.Fits) (m : Memory) (bits : Bits)
    (hw : pk.wptr.toNat + (pk.nb + bits.length) / 8 < 2 ^ 32) {e : Host.Cell}
    (he : e ∈ (pushBits pk m bits).2) :
    (pk.wptr.toNat ≤ e.1 ∧ e.1 < pk.wptr.toNat + bytesCompleted pk bits) ∨ e ∈ m := by
  induction bits generalizing pk m with
  | nil => exact .inr he
  | cons b rest ih =>
    have hnb := h.nb_le
    have e1 := pushBit_wptr pk m b h (by simp only [List.length_cons] at hw; omega)
    have e2 := pushBit_nb pk m b h
    simp only [bytesCompleted, List.length_cons] at hw ⊢
    simp only [pushBits] at he
    rcases ih (h.pushBit m b) _ (by rw [e1, e2]; omega) he with h' | h'
    · simp only [bytesCompleted, e1, e2] at h'
      exact .inl (by omega)
    · rw [pushBit_eq] at h'
      split at h'
      · next hn =>
        rcases Memory.mem_write h' with rfl | h'
        · exact .inl (by simp only; omega)
        · exact .inr h'
      · exact .inr h'

/-- What an append answers: an error and nothing else, or the loop's result with RES0 and RES1. -/
theorem append_cases (bits : Bits) (s : State) :
    (s.packer.closed = true ∧ append bits s = .error .eSequence)
    ∨ (s.packer.closed = false ∧ s.params.payBytes < s.packer.wptr.toNat + bytesCompleted s.packer bits
        ∧ append bits s = .error .ePayloadFull)
    ∨ (s.packer.closed = false ∧ s.packer.wptr.toNat + bytesCompleted s.packer bits ≤ s.params.payBytes
        ∧ append bits s = .ok { s with
            packer := (pushBits s.packer s.pay bits).1, pay := (pushBits s.packer s.pay bits).2
            res0 := (pushBits s.packer s.pay bits).1.wptr
            res1 := BitVec.ofNat 32 (pushBits s.packer s.pay bits).1.nb }) := by
  unfold append
  by_cases hc : s.packer.closed = true
  · exact .inl ⟨hc, by simp [hc]⟩
  · by_cases hf : s.params.payBytes < s.packer.wptr.toNat + bytesCompleted s.packer bits
    · exact .inr (.inl ⟨by simpa using hc, hf, by simp [hc, hf]⟩)
    · exact .inr (.inr ⟨by simpa using hc, by omega, by simp [hc, hf]⟩)

end Sys2Proof.Machine
end

