-- ==== Sys2Proof/Laws/State.lean ====
section
/-! SUPPORT. The fields of the named updates of State: one lemma per field per update, so that no proof unfolds a record
update. -/

namespace Sys2Proof.Machine

variable (s : State)

/-! ### State.ended -/

@[simp] theorem ended_params (o : CmdOutcome) : (s.ended o).params = s.params := rfl
@[simp] theorem ended_cmd (o : CmdOutcome) : (s.ended o).cmd = s.cmd := rfl
@[simp] theorem ended_err (o : CmdOutcome) : (s.ended o).err = s.err := rfl
@[simp] theorem ended_lastRes (o : CmdOutcome) : (s.ended o).lastRes = o := rfl
@[simp] theorem ended_arg0 (o : CmdOutcome) : (s.ended o).arg0 = s.arg0 := rfl
@[simp] theorem ended_arg1 (o : CmdOutcome) : (s.ended o).arg1 = s.arg1 := rfl
@[simp] theorem ended_res0 (o : CmdOutcome) : (s.ended o).res0 = s.res0 := rfl
@[simp] theorem ended_res1 (o : CmdOutcome) : (s.ended o).res1 = s.res1 := rfl
@[simp] theorem ended_res2 (o : CmdOutcome) : (s.ended o).res2 = s.res2 := rfl
@[simp] theorem ended_res3 (o : CmdOutcome) : (s.ended o).res3 = s.res3 := rfl
@[simp] theorem ended_cb (o : CmdOutcome) : (s.ended o).cb = s.cb := rfl
@[simp] theorem ended_freq (o : CmdOutcome) : (s.ended o).freq = s.freq := rfl
@[simp] theorem ended_builder (o : CmdOutcome) : (s.ended o).builder = s.builder := rfl
@[simp] theorem ended_codes (o : CmdOutcome) : (s.ended o).codes = s.codes := rfl
@[simp] theorem ended_packer (o : CmdOutcome) : (s.ended o).packer = s.packer := rfl
@[simp] theorem ended_unpacker (o : CmdOutcome) : (s.ended o).unpacker = s.unpacker := rfl
@[simp] theorem ended_decoder (o : CmdOutcome) : (s.ended o).decoder = s.decoder := rfl
@[simp] theorem ended_pay (o : CmdOutcome) : (s.ended o).pay = s.pay := rfl
@[simp] theorem ended_pending (o : CmdOutcome) : (s.ended o).pending = s.pending := rfl
@[simp] theorem ended_answer (o : CmdOutcome) : (s.ended o).answer = s.answer := rfl

/-! ### State.failed -/

@[simp] theorem failed_params (e : CmdOutcome) : (s.failed e).params = s.params := rfl
@[simp] theorem failed_cmd (e : CmdOutcome) : (s.failed e).cmd = s.cmd := rfl
@[simp] theorem failed_err (e : CmdOutcome) : (s.failed e).err = true := rfl
@[simp] theorem failed_lastRes (e : CmdOutcome) : (s.failed e).lastRes = e := rfl
@[simp] theorem failed_arg0 (e : CmdOutcome) : (s.failed e).arg0 = s.arg0 := rfl
@[simp] theorem failed_arg1 (e : CmdOutcome) : (s.failed e).arg1 = s.arg1 := rfl
@[simp] theorem failed_res0 (e : CmdOutcome) : (s.failed e).res0 = s.res0 := rfl
@[simp] theorem failed_res1 (e : CmdOutcome) : (s.failed e).res1 = s.res1 := rfl
@[simp] theorem failed_res2 (e : CmdOutcome) : (s.failed e).res2 = s.res2 := rfl
@[simp] theorem failed_res3 (e : CmdOutcome) : (s.failed e).res3 = s.res3 := rfl
@[simp] theorem failed_cb (e : CmdOutcome) : (s.failed e).cb = s.cb := rfl
@[simp] theorem failed_freq (e : CmdOutcome) : (s.failed e).freq = s.freq := rfl
@[simp] theorem failed_builder (e : CmdOutcome) : (s.failed e).builder = s.builder := rfl
@[simp] theorem failed_codes (e : CmdOutcome) : (s.failed e).codes = s.codes := rfl
@[simp] theorem failed_packer (e : CmdOutcome) : (s.failed e).packer = s.packer := rfl
@[simp] theorem failed_unpacker (e : CmdOutcome) : (s.failed e).unpacker = s.unpacker := rfl
@[simp] theorem failed_decoder (e : CmdOutcome) : (s.failed e).decoder = s.decoder := rfl
@[simp] theorem failed_pay (e : CmdOutcome) : (s.failed e).pay = s.pay := rfl
@[simp] theorem failed_pending (e : CmdOutcome) : (s.failed e).pending = s.pending := rfl
@[simp] theorem failed_answer (e : CmdOutcome) : (s.failed e).answer = s.answer := rfl

/-! ### answerOk -/

@[simp] theorem answerOk_params (d : Option Word) : (answerOk d s).params = s.params := rfl
@[simp] theorem answerOk_cmd (d : Option Word) : (answerOk d s).cmd = s.cmd := rfl
@[simp] theorem answerOk_err (d : Option Word) : (answerOk d s).err = s.err := rfl
@[simp] theorem answerOk_lastRes (d : Option Word) : (answerOk d s).lastRes = s.lastRes := rfl
@[simp] theorem answerOk_arg0 (d : Option Word) : (answerOk d s).arg0 = s.arg0 := rfl
@[simp] theorem answerOk_arg1 (d : Option Word) : (answerOk d s).arg1 = s.arg1 := rfl
@[simp] theorem answerOk_res0 (d : Option Word) : (answerOk d s).res0 = s.res0 := rfl
@[simp] theorem answerOk_res1 (d : Option Word) : (answerOk d s).res1 = s.res1 := rfl
@[simp] theorem answerOk_res2 (d : Option Word) : (answerOk d s).res2 = s.res2 := rfl
@[simp] theorem answerOk_res3 (d : Option Word) : (answerOk d s).res3 = s.res3 := rfl
@[simp] theorem answerOk_cb (d : Option Word) : (answerOk d s).cb = s.cb := rfl
@[simp] theorem answerOk_freq (d : Option Word) : (answerOk d s).freq = s.freq := rfl
@[simp] theorem answerOk_builder (d : Option Word) : (answerOk d s).builder = s.builder := rfl
@[simp] theorem answerOk_codes (d : Option Word) : (answerOk d s).codes = s.codes := rfl
@[simp] theorem answerOk_packer (d : Option Word) : (answerOk d s).packer = s.packer := rfl
@[simp] theorem answerOk_unpacker (d : Option Word) : (answerOk d s).unpacker = s.unpacker := rfl
@[simp] theorem answerOk_decoder (d : Option Word) : (answerOk d s).decoder = s.decoder := rfl
@[simp] theorem answerOk_pay (d : Option Word) : (answerOk d s).pay = s.pay := rfl
@[simp] theorem answerOk_pending (d : Option Word) : (answerOk d s).pending = s.pending := rfl
@[simp] theorem answerOk_answer (d : Option Word) : (answerOk d s).answer = some (.ok d) := rfl

/-! ### softReset -/

@[simp] theorem softReset_params : (softReset s).params = s.params := rfl
@[simp] theorem softReset_cmd : (softReset s).cmd = s.cmd := rfl
@[simp] theorem softReset_err : (softReset s).err = false := rfl
@[simp] theorem softReset_lastRes : (softReset s).lastRes = .ok := rfl
@[simp] theorem softReset_arg0 : (softReset s).arg0 = 0 := rfl
@[simp] theorem softReset_arg1 : (softReset s).arg1 = 0 := rfl
@[simp] theorem softReset_res0 : (softReset s).res0 = 0 := rfl
@[simp] theorem softReset_res1 : (softReset s).res1 = 0 := rfl
@[simp] theorem softReset_res2 : (softReset s).res2 = 0 := rfl
@[simp] theorem softReset_res3 : (softReset s).res3 = 0 := rfl
@[simp] theorem softReset_cb : (softReset s).cb = Vector.replicate 8 0 := rfl
@[simp] theorem softReset_freq : (softReset s).freq = Vector.replicate 256 0 := rfl
@[simp] theorem softReset_builder : (softReset s).builder = s.builder.noTree := rfl
@[simp] theorem softReset_codes : (softReset s).codes = { s.codes with nCodes := 0, maxLen := 0, valid := false } := rfl
@[simp] theorem softReset_packer : (softReset s).packer = Packer.reset := rfl
@[simp] theorem softReset_unpacker : (softReset s).unpacker = Unpacker.reset := rfl
@[simp] theorem softReset_decoder : (softReset s).decoder = { s.decoder.setNode 0 DNode.empty with dnCount := 1, seen := Vector.replicate 256 false, nEnt := 0 } := rfl
@[simp] theorem softReset_pay : (softReset s).pay = s.pay := rfl
@[simp] theorem softReset_pending : (softReset s).pending = s.pending := rfl
@[simp] theorem softReset_answer : (softReset s).answer = s.answer := rfl

/-! ### resetState -/

@[simp] theorem resetState_params (k : ResetKind) (c : Bool) : (resetState k c s).params = s.params := rfl
@[simp] theorem resetState_cmd (k : ResetKind) (c : Bool) : (resetState k c s).cmd = 0 := rfl
@[simp] theorem resetState_err (k : ResetKind) (c : Bool) : (resetState k c s).err = false := rfl
@[simp] theorem resetState_lastRes (k : ResetKind) (c : Bool) : (resetState k c s).lastRes = .ok := rfl
@[simp] theorem resetState_arg0 (k : ResetKind) (c : Bool) : (resetState k c s).arg0 = 0 := rfl
@[simp] theorem resetState_arg1 (k : ResetKind) (c : Bool) : (resetState k c s).arg1 = 0 := rfl
@[simp] theorem resetState_res0 (k : ResetKind) (c : Bool) : (resetState k c s).res0 = 0 := rfl
@[simp] theorem resetState_res1 (k : ResetKind) (c : Bool) : (resetState k c s).res1 = 0 := rfl
@[simp] theorem resetState_res2 (k : ResetKind) (c : Bool) : (resetState k c s).res2 = 0 := rfl
@[simp] theorem resetState_res3 (k : ResetKind) (c : Bool) : (resetState k c s).res3 = 0 := rfl
@[simp] theorem resetState_cb (k : ResetKind) (c : Bool) : (resetState k c s).cb = Vector.replicate 8 0 := rfl
@[simp] theorem resetState_freq (k : ResetKind) (c : Bool) : (resetState k c s).freq = Vector.replicate 256 0 := rfl
@[simp] theorem resetState_builder (k : ResetKind) (c : Bool) : (resetState k c s).builder = Builder.reset := rfl
@[simp] theorem resetState_codes (k : ResetKind) (c : Bool) : (resetState k c s).codes = CodeTable.reset := rfl
@[simp] theorem resetState_packer (k : ResetKind) (c : Bool) : (resetState k c s).packer = Packer.reset := rfl
@[simp] theorem resetState_unpacker (k : ResetKind) (c : Bool) : (resetState k c s).unpacker = Unpacker.reset := rfl
@[simp] theorem resetState_decoder (k : ResetKind) (c : Bool) : (resetState k c s).decoder = Decoder.reset := rfl
@[simp] theorem resetState_pending (k : ResetKind) (c : Bool) : (resetState k c s).pending = s.pending := rfl
@[simp] theorem resetState_answer (k : ResetKind) (c : Bool) : (resetState k c s).answer = if c then some .abandoned else none := rfl

@[simp] theorem resetState_pay_powerOn (c : Bool) : (resetState .powerOn c s).pay = [] := rfl
@[simp] theorem resetState_pay_hardware : (resetState .hardware false s).pay = s.pay := rfl
@[simp] theorem resetState_pay_cut : (resetState .hardware true s).pay = s.pay.clearMarks s.packer.wptr.toNat 32 := rfl

/-! ### State.withFetchWord -/

@[simp] theorem withFetchWord_pending (n w : Nat) :
    (s.withFetchWord n w).pending = commandWrite (BitVec.ofNat 32 (w % 2 ^ n)) :: s.pending := rfl
@[simp] theorem withFetchWord_params (n w : Nat) : (s.withFetchWord n w).params = s.params := rfl
@[simp] theorem withFetchWord_pay (n w : Nat) : (s.withFetchWord n w).pay = s.pay := rfl

end Sys2Proof.Machine
end

