-- ==== Sys2Proof/Laws/Commands.lean ====
section
/-! SUPPORT. For each meaning with more than one end, one lemma that says once every way it can end; for the shared walk
of the decoder, what its answer says of the bits it read. -/

namespace Sys2Proof.Machine

variable {s t : State}

/-! ### The tree builder and the code table -/

/-- BUILD ends EMPTY, E_OVERFLOW or OK. -/
theorem execBuild_cases (h : execBuild s = .next t) :
    (presentBytes s.freq = [] ∧ t = State.ended { s with
        builder := s.builder.noTree, codes := { s.codes with valid := false }, res0 := 0, res1 := 0, res2 := 0 } .empty)
    ∨ (presentBytes s.freq ≠ [] ∧ 2 ^ 64 - 1 < totalWeight s.freq ∧ t = s.failed .eOverflow)
    ∨ (presentBytes s.freq ≠ [] ∧ totalWeight s.freq ≤ 2 ^ 64 - 1 ∧ t = State.ended { s with
        builder := buildTree s.freq s.builder, codes := { s.codes with valid := false }
        res0 := (buildTree s.freq s.builder).root.setWidth 32
        res1 := BitVec.ofNat 32 (buildTree s.freq s.builder).nLeaves
        res2 := BitVec.ofNat 32 (buildTree s.freq s.builder).nInt } .ok) := by
  unfold execBuild at h
  by_cases h0 : presentBytes s.freq = []
  · rw [if_pos h0] at h; cases h; exact .inl ⟨h0, rfl⟩
  · rw [if_neg h0] at h
    by_cases h1 : 2 ^ 64 - 1 < totalWeight s.freq
    · rw [if_pos h1] at h; cases h; exact .inr (.inl ⟨h0, h1, rfl⟩)
    · rw [if_neg h1] at h; cases h; exact .inr (.inr ⟨h0, by omega, rfl⟩)

/-- READ_NODE ends E_SEQUENCE, E_BAD_ARGS, or describes a leaf or an internal node. -/
theorem execReadNode_cases (h : execReadNode s = .next t) :
    (s.builder.valid = false ∧ t = s.failed .eSequence)
    ∨ (s.builder.valid = true ∧ s.builder.hasNode s.arg0.toNat = false ∧ t = s.failed .eBadArgs)
    ∨ (s.builder.valid = true ∧ s.builder.hasNode s.arg0.toNat = true ∧ s.arg0.toNat < 256 ∧ t = State.ended { s with
        res0 := BitVec.ofNat 32 s.arg0.toNat <<< 8, res1 := low32 (s.builder.weight s.arg0.toNat)
        res2 := high32 (s.builder.weight s.arg0.toNat), res3 := 0 } .ok)
    ∨ (s.builder.valid = true ∧ s.builder.hasNode s.arg0.toNat = true ∧ 256 ≤ s.arg0.toNat ∧ t = State.ended { s with
        res0 := 1 ||| (BitVec.ofNat 32 (s.arg0.toNat - 256) <<< 16), res1 := low32 (s.builder.weight s.arg0.toNat)
        res2 := high32 (s.builder.weight s.arg0.toNat)
        res3 := ((s.builder.innerAt s.arg0.toNat).map InnerNode.childWord).getD 0 } .ok) := by
  unfold execReadNode at h
  by_cases hv : s.builder.valid = false
  · rw [if_pos hv] at h; cases h; exact .inl ⟨hv, rfl⟩
  · rw [if_neg hv] at h
    have hv' : s.builder.valid = true := by simpa using hv
    by_cases hn : s.builder.hasNode s.arg0.toNat = false
    · rw [if_pos hn] at h; cases h; exact .inr (.inl ⟨hv', hn, rfl⟩)
    · rw [if_neg hn] at h
      have hn' : s.builder.hasNode s.arg0.toNat = true := by simpa using hn
      by_cases hi : s.arg0.toNat < 256
      · simp only [if_pos hi] at h; cases h; exact .inr (.inr (.inl ⟨hv', hn', hi, rfl⟩))
      · simp only [if_neg hi] at h; cases h; exact .inr (.inr (.inr ⟨hv', hn', by omega, rfl⟩))

/-- GEN_CODES ends E_SEQUENCE or OK. -/
theorem execGenCodes_cases (h : execGenCodes s = .next t) :
    (s.builder.valid = false ∧ t = s.failed .eSequence)
    ∨ (s.builder.valid = true ∧ t = State.ended { s with
        codes := generateCodes s.builder, res0 := BitVec.ofNat 32 (generateCodes s.builder).nCodes
        res1 := BitVec.ofNat 32 (generateCodes s.builder).maxLen } .ok) := by
  unfold execGenCodes at h
  by_cases hv : s.builder.valid = false
  · rw [if_pos hv] at h; cases h; exact .inl ⟨hv, rfl⟩
  · rw [if_neg hv] at h; cases h; exact .inr ⟨by simpa using hv, rfl⟩

/-- GET_CODE ends E_SEQUENCE or OK. -/
theorem execGetCode_cases {v : Byte} (h : execGetCode v s = .next t) :
    (s.codes.valid = false ∧ t = s.failed .eSequence)
    ∨ (s.codes.valid = true ∧ t = State.ended { s with
        res0 := (ByteTable.get s.codes.clen v).setWidth 32, cb := codebufOf (s.codes.codeOf v) } .ok) := by
  unfold execGetCode at h
  by_cases hv : s.codes.valid = false
  · rw [if_pos hv] at h; cases h; exact .inl ⟨hv, rfl⟩
  · rw [if_neg hv] at h; cases h; exact .inr ⟨by simpa using hv, rfl⟩

/-! ### The bit packer -/

/-- The state an append leaves. -/
def State.appended (s : State) (bits : Bits) : State :=
  { s with
    packer := (pushBits s.packer s.pay bits).1, pay := (pushBits s.packer s.pay bits).2
    res0 := (pushBits s.packer s.pay bits).1.wptr
    res1 := BitVec.ofNat 32 (pushBits s.packer s.pay bits).1.nb }

/-- A completed append ends E_SEQUENCE, E_PAYLOAD_FULL or OK. -/
theorem complete_append_cases {bits : Bits} (h : complete s (append bits s) = .next t) :
    (s.packer.closed = true ∧ t = s.failed .eSequence)
    ∨ (s.packer.closed = false ∧ s.params.payBytes < s.packer.wptr.toNat + bytesCompleted s.packer bits
        ∧ t = s.failed .ePayloadFull)
    ∨ (s.packer.closed = false ∧ s.packer.wptr.toNat + bytesCompleted s.packer bits ≤ s.params.payBytes
        ∧ t = (s.appended bits).ended .ok) := by
  rcases append_cases bits s with ⟨hc, e⟩ | ⟨hc, hf, e⟩ | ⟨hc, hf, e⟩ <;> rw [e] at h <;> cases h
  · exact .inl ⟨hc, rfl⟩
  · exact .inr (.inl ⟨hc, hf, rfl⟩)
  · exact .inr (.inr ⟨hc, hf, rfl⟩)

/-- PK_APPEND_BIT ends as its append does; on an operand that is no bit, E_ILLEGAL. -/
theorem execPkAppendBit_cases {b : Byte} (h : execPkAppendBit b s = .next t) :
    (1 < b.toNat ∧ t = s.failed .eIllegal) ∨ (b.toNat ≤ 1 ∧ complete s (append [decide (b ≠ 0)] s) = .next t) := by
  unfold execPkAppendBit at h
  by_cases hb : 1 < b.toNat
  · rw [if_pos hb] at h; cases h; exact .inl ⟨hb, rfl⟩
  · rw [if_neg hb] at h; exact .inr ⟨by omega, h⟩

/-- PK_ENCODE ends E_SEQUENCE, E_NO_CODE, E_PAYLOAD_FULL or OK. -/
theorem execPkEncode_cases {v : Byte} (h : execPkEncode v s = .next t) :
    ((s.packer.closed = true ∨ s.codes.valid = false) ∧ t = s.failed .eSequence)
    ∨ (s.packer.closed = false ∧ s.codes.valid = true ∧ ByteTable.get s.codes.clen v = 0 ∧ t = s.failed .eNoCode)
    ∨ (s.packer.closed = false ∧ s.codes.valid = true ∧ ByteTable.get s.codes.clen v ≠ 0
        ∧ s.params.payBytes < s.packer.wptr.toNat + bytesCompleted s.packer (s.codes.codeOf v)
        ∧ t = s.failed .ePayloadFull)
    ∨ (s.packer.closed = false ∧ s.codes.valid = true ∧ ByteTable.get s.codes.clen v ≠ 0
        ∧ s.packer.wptr.toNat + bytesCompleted s.packer (s.codes.codeOf v) ≤ s.params.payBytes
        ∧ t = State.ended { s.appended (s.codes.codeOf v) with
            res2 := (ByteTable.get s.codes.clen v).setWidth 32 } .ok) := by
  unfold execPkEncode at h
  by_cases hc : s.packer.closed = true
  · rw [if_pos hc] at h; cases h; exact .inl ⟨.inl hc, rfl⟩
  · rw [if_neg hc] at h
    have hc' : s.packer.closed = false := by simpa using hc
    by_cases hv : s.codes.valid = false
    · rw [if_pos hv] at h; cases h; exact .inl ⟨.inr hv, rfl⟩
    · rw [if_neg hv] at h
      have hv' : s.codes.valid = true := by simpa using hv
      by_cases hn : ByteTable.get s.codes.clen v = 0
      · rw [if_pos hn] at h; cases h; exact .inr (.inl ⟨hc', hv', hn, rfl⟩)
      · rw [if_neg hn] at h
        rcases append_cases (s.codes.codeOf v) s with ⟨hc, e⟩ | ⟨-, hf, e⟩ | ⟨-, hf, e⟩ <;> rw [e] at h <;> cases h
        · exact absurd hc' (by simp [hc])
        · exact .inr (.inr (.inl ⟨hc', hv', hn, hf, rfl⟩))
        · exact .inr (.inr (.inr ⟨hc', hv', hn, hf, rfl⟩))

/-- PK_FINISH ends E_SEQUENCE, OK with no partial byte, E_PAYLOAD_FULL, or OK with the partial byte written. -/
theorem execPkFinish_cases (h : execPkFinish s = .next t) :
    (s.packer.closed = true ∧ t = s.failed .eSequence)
    ∨ (s.packer.closed = false ∧ s.packer.nb = 0 ∧ t = State.ended { s with
        packer := s.packer.close, res0 := s.packer.wptr, res1 := 8 } .ok)
    ∨ (s.packer.closed = false ∧ s.packer.nb ≠ 0 ∧ s.params.payBytes < s.packer.wptr.toNat + 1
        ∧ t = s.failed .ePayloadFull)
    ∨ (s.packer.closed = false ∧ s.packer.nb ≠ 0 ∧ s.packer.wptr.toNat + 1 ≤ s.params.payBytes ∧ t = State.ended { s with
        packer := ⟨0, 0, s.packer.wptr + 1, true⟩, pay := s.pay.write s.packer.wptr.toNat s.packer.cur
        res0 := s.packer.wptr + 1, res1 := BitVec.ofNat 32 s.packer.nb } .ok) := by
  unfold execPkFinish at h
  by_cases hc : s.packer.closed = true
  · rw [if_pos hc] at h; cases h; exact .inl ⟨hc, rfl⟩
  · rw [if_neg hc] at h
    have hc' : s.packer.closed = false := by simpa using hc
    by_cases hn : s.packer.nb = 0
    · rw [if_pos hn] at h; cases h; exact .inr (.inl ⟨hc', hn, rfl⟩)
    · rw [if_neg hn] at h
      by_cases hf : s.params.payBytes < s.packer.wptr.toNat + 1
      · rw [if_pos hf] at h; cases h; exact .inr (.inr (.inl ⟨hc', hn, hf, rfl⟩))
      · rw [if_neg hf] at h; cases h; exact .inr (.inr (.inr ⟨hc', hn, by omega, rfl⟩))

/-! ### The bit unpacker -/

/-- The unpacker UP_START sets. -/
def startedUnpacker (s : State) (k : Byte) : Unpacker := { len := s.arg0, valid := k.setWidth 4, pos := 0 }

/-- UP_START ends E_BAD_ARGS or OK. -/
theorem execUpStart_cases {k : Byte} (h : execUpStart k s = .next t) :
    ((k.toNat < 1 ∨ 8 < k.toNat ∨ s.params.payBytes < s.arg0.toNat) ∧ t = s.failed .eBadArgs)
    ∨ (1 ≤ k.toNat ∧ k.toNat ≤ 8 ∧ s.arg0.toNat ≤ s.params.payBytes ∧ t = State.ended { s with
        unpacker := startedUnpacker s k
        res0 := posLow (BitVec.ofNat 35 (meaningfulBits (startedUnpacker s k)))
        res1 := posHigh (BitVec.ofNat 35 (meaningfulBits (startedUnpacker s k))) } .ok) := by
  unfold execUpStart at h
  by_cases hk : k.toNat < 1 ∨ 8 < k.toNat
  · rw [if_pos hk] at h; cases h; exact .inl ⟨hk.imp_right .inl, rfl⟩
  · rw [if_neg hk] at h
    by_cases hl : s.params.payBytes < s.arg0.toNat
    · rw [if_pos hl] at h; cases h; exact .inl ⟨.inr (.inr hl), rfl⟩
    · rw [if_neg hl] at h; cases h
      exact .inr ⟨by omega, by omega, by omega, rfl⟩

/-- UP_NEXT_BIT ends END, or OK with the bit of its position. -/
theorem execUpNextBit_cases (h : execUpNextBit s = .next t) :
    (s.unpacker.pos.toNat = meaningfulBits s.unpacker ∧ t = s.ended .endOfData)
    ∨ (s.unpacker.pos.toNat ≠ meaningfulBits s.unpacker ∧ ∃ b, streamBit s.pay s.unpacker.pos.toNat = .ok b
        ∧ t = State.ended { s with
            unpacker := { s.unpacker with pos := s.unpacker.pos + 1 }, res0 := (BitVec.ofBool b).setWidth 32
            res1 := posLow (s.unpacker.pos + 1), res2 := posHigh (s.unpacker.pos + 1) } .ok) := by
  unfold execUpNextBit at h
  by_cases hp : s.unpacker.pos.toNat = meaningfulBits s.unpacker
  · rw [if_pos hp] at h; cases h; exact .inl ⟨hp, rfl⟩
  · rw [if_neg hp] at h
    cases hb : streamBit s.pay s.unpacker.pos.toNat with
    | error f => simp [hb] at h
    | ok b =>
      simp only [hb] at h
      exact .inr ⟨hp, b, rfl, by simpa [finish] using h.symm⟩

/-- UP_NEXT_BIT stops only below T, on the byte of its position, which nothing has written. -/
theorem execUpNextBit_fault {f : Fault} (h : execUpNextBit s = .fault f) :
    s.unpacker.pos.toNat ≠ meaningfulBits s.unpacker ∧ f = .unwrittenPayload (s.unpacker.pos.toNat / 8)
      ∧ s.pay.read (s.unpacker.pos.toNat / 8) = none := by
  unfold execUpNextBit at h
  by_cases hp : s.unpacker.pos.toNat = meaningfulBits s.unpacker
  · rw [if_pos hp] at h; cases h
  · rw [if_neg hp] at h
    cases hb : streamBit s.pay s.unpacker.pos.toNat with
    | error f' =>
      simp only [hb] at h
      cases h
      exact ⟨hp, streamBit_eq_error.1 hb⟩
    | ok b => simp [hb] at h

/-! ### The Huffman decoder -/

theorem eq_dropLast_of_getLast? {l : Bits} {b : Bool} (h : l.getLast? = some b) : l = l.dropLast ++ [b] := by
  obtain ⟨ys, rfl⟩ := List.getLast?_eq_some_iff.1 h
  simp

/-- DEC_INSERT ends E_BAD_LENGTH on no bits, with the error of its checks, or OK. -/
theorem execDecInsert_cases {v n : Byte} (h : execDecInsert v n s = .next t) :
    (n = 0 ∧ t = s.failed .eBadLength)
    ∨ ∃ path last, codebufBits s.cb n.toNat = path ++ [last] ∧
      ((∃ e, insertCode s.params.decIntCap s.decoder v path last = .error e ∧ t = s.failed e)
      ∨ ∃ d, insertCode s.params.decIntCap s.decoder v path last = .ok d ∧ t = State.ended { s with
          decoder := d, res0 := BitVec.ofNat 32 d.nEnt, res1 := BitVec.ofNat 32 d.dnCount } .ok) := by
  unfold execDecInsert at h
  simp only at h
  split at h
  · next hl =>
    cases h
    refine .inl ⟨?_, rfl⟩
    have : (codebufBits s.cb n.toNat).length = 0 := by rw [List.getLast?_eq_none_iff.1 hl]; rfl
    simp only [codebufBits, List.length_map, List.length_range] at this
    exact BitVec.eq_of_toNat_eq (by simpa using this)
  · next last hl =>
    refine .inr ⟨_, last, eq_dropLast_of_getLast? hl, ?_⟩
    rcases complete_cases h with ⟨u, hu, rfl⟩ | ⟨e, he, rfl⟩
    · cases hi : insertCode s.params.decIntCap s.decoder v (codebufBits s.cb n.toNat).dropLast last with
      | ok d => rw [hi] at hu; cases hu; exact .inr ⟨d, rfl, rfl⟩
      | error e => rw [hi] at hu; cases hu
    · cases hi : insertCode s.params.decIntCap s.decoder v (codebufBits s.cb n.toNat).dropLast last with
      | ok d => rw [hi] at he; cases he
      | error e' => rw [hi] at he; cases he; exact .inl ⟨_, rfl, rfl⟩

/-- The checks of an insert in their order, and its changes. -/
theorem insertCode_cases (cap : Nat) (d : Decoder) (v : Byte) (path : Bits) (last : Bool) :
    (ByteTable.get d.seen v = true ∧ insertCode cap d v path last = .error .eDuplicate)
    ∨ (ByteTable.get d.seen v = false ∧ followPath d 0 path = none ∧ insertCode cap d v path last = .error .ePrefix)
    ∨ ∃ node rest, ByteTable.get d.seen v = false ∧ followPath d 0 path = some (node, rest) ∧
      ((rest = [] ∧ d.child node last ≠ .none ∧ insertCode cap d v path last = .error .ePrefix)
      ∨ ((rest ≠ [] ∨ d.child node last = .none) ∧ cap < d.dnCount + rest.length
          ∧ insertCode cap d v path last = .error .eNodeFull)
      ∨ ((rest ≠ [] ∨ d.child node last = .none) ∧ d.dnCount + rest.length ≤ cap
          ∧ insertCode cap d v path last = .ok
              (let placed := (extendPath d node rest).1.setChild (extendPath d node rest).2 last (.leaf v)
               { placed with seen := ByteTable.put placed.seen v true, nEnt := placed.nEnt + 1 }))) := by
  unfold insertCode
  by_cases hs : ByteTable.get d.seen v = true
  · exact .inl ⟨hs, by simp [hs]⟩
  · have hs' : ByteTable.get d.seen v = false := by simpa using hs
    rw [if_neg hs]
    cases hf : followPath d 0 path with
    | none => exact .inr (.inl ⟨hs', rfl, rfl⟩)
    | some r =>
      obtain ⟨node, rest⟩ := r
      refine .inr (.inr ⟨node, rest, hs', rfl, ?_⟩)
      dsimp only
      by_cases hc : rest = [] ∧ d.child node last ≠ .none
      · rw [if_pos hc]; exact .inl ⟨hc.1, hc.2, rfl⟩
      · rw [if_neg hc]
        have hc' : rest ≠ [] ∨ d.child node last = .none := by
          by_cases hr : rest = []
          · exact .inr (Classical.byContradiction fun hx => hc ⟨hr, hx⟩)
          · exact .inl hr
        by_cases hf' : cap < d.dnCount + rest.length
        · rw [if_pos hf']; exact .inr (.inl ⟨hc', hf', rfl⟩)
        · rw [if_neg hf']; exact .inr (.inr ⟨hc', by omega, rfl⟩)

/-- A walk ends with one of its two errors, on an unwritten byte among those it may read, or with a symbol past its
first bit and not past its last. -/
theorem walk_cases (d : Decoder) (m : Memory) (left node p : Nat) :
    walk d m left node p = .bad .eTruncated ∨ walk d m left node p = .bad .eNoChild
    ∨ (∃ j, p ≤ j ∧ j < p + left ∧ m.read (j / 8) = none
        ∧ walk d m left node p = .unreadable (.unwrittenPayload (j / 8)))
    ∨ ∃ v next, p < next ∧ next ≤ p + left ∧ walk d m left node p = .symbol v next := by
  induction left generalizing node p with
  | zero => exact .inl rfl
  | succ left ih =>
    simp only [walk]
    cases hb : streamBit m p with
    | error f =>
      obtain ⟨h1, h2⟩ := streamBit_eq_error.1 hb
      exact .inr (.inr (.inl ⟨p, Nat.le_refl _, by omega, h2, by rw [h1]⟩))
    | ok b =>
      dsimp only
      cases hc : d.child node b with
      | none => exact .inr (.inl rfl)
      | leaf v => exact .inr (.inr (.inr ⟨v, p + 1, by omega, by omega, rfl⟩))
      | node j =>
        dsimp only
        rcases ih j (p + 1) with h | h | ⟨k, h1, h2, h3, h4⟩ | ⟨v, next, h1, h2, h3⟩
        · exact .inl h
        · exact .inr (.inl h)
        · exact .inr (.inr (.inl ⟨k, by omega, by omega, h3, h4⟩))
        · exact .inr (.inr (.inr ⟨v, next, by omega, by omega, h3⟩))

/-- A walk depends only on the bytes of the positions it may read. -/
theorem walk_congr (d : Decoder) {m m' : Memory} {left p : Nat}
    (h : ∀ j, p ≤ j → j < p + left → m'.read (j / 8) = m.read (j / 8)) (node : Nat) :
    walk d m' left node p = walk d m left node p := by
  induction left generalizing node p with
  | zero => rfl
  | succ left ih =>
    simp only [walk]
    rw [streamBit_congr (h p (Nat.le_refl _) (by omega))]
    cases streamBit m p with
    | error f => rfl
    | ok b =>
      dsimp only
      cases d.child node b with
      | none => rfl
      | leaf v => rfl
      | node j => exact ih (fun k h1 h2 => h k (by omega) (by omega)) j

/-- A position below T lies in a byte below UP_LEN. -/
theorem byte_lt_len {u : Unpacker} (hv : u.valid.toNat ≤ 8) {p : Nat} (h : p < meaningfulBits u) :
    p / 8 < u.len.toNat := by
  unfold meaningfulBits at h
  split at h
  · omega
  · next hl =>
    have : u.len.toNat ≠ 0 := fun he => hl (BitVec.eq_of_toNat_eq (by simpa using he))
    omega

/-- DEC_STEP ends END, with an error of its walk, or OK with a symbol within T. -/
theorem execDecStep_cases (h : execDecStep s = .next t) :
    ((s.decoder.nEnt = 0 ∨ s.unpacker.pos.toNat = meaningfulBits s.unpacker) ∧ t = s.ended .endOfData)
    ∨ (s.decoder.nEnt ≠ 0 ∧ s.unpacker.pos.toNat ≠ meaningfulBits s.unpacker ∧
      ((t = s.failed .eTruncated ∨ t = s.failed .eNoChild)
      ∨ ∃ v next, s.unpacker.pos.toNat < next
        ∧ next ≤ s.unpacker.pos.toNat + (meaningfulBits s.unpacker - s.unpacker.pos.toNat)
        ∧ walk s.decoder s.pay (meaningfulBits s.unpacker - s.unpacker.pos.toNat) 0 s.unpacker.pos.toNat
            = .symbol v next
        ∧ t = State.ended { s with
            unpacker := { s.unpacker with pos := BitVec.ofNat 35 next }, res0 := v.setWidth 32
            res1 := BitVec.ofNat 32 (next - s.unpacker.pos.toNat)
            res2 := posLow (BitVec.ofNat 35 next), res3 := posHigh (BitVec.ofNat 35 next) } .ok)) := by
  unfold execDecStep at h
  dsimp only at h
  by_cases h0 : s.decoder.nEnt = 0
  · rw [if_pos h0] at h; cases h; exact .inl ⟨.inl h0, rfl⟩
  · rw [if_neg h0] at h
    by_cases h1 : s.unpacker.pos.toNat = meaningfulBits s.unpacker
    · rw [if_pos h1] at h; cases h; exact .inl ⟨.inr h1, rfl⟩
    · rw [if_neg h1] at h
      refine .inr ⟨h0, h1, ?_⟩
      rcases walk_cases s.decoder s.pay (meaningfulBits s.unpacker - s.unpacker.pos.toNat) 0 s.unpacker.pos.toNat
        with e | e | ⟨j, -, -, -, e⟩ | ⟨v, next, h2, h3, e⟩ <;> rw [e] at h <;> cases h
      · exact .inl (.inl rfl)
      · exact .inl (.inr rfl)
      · exact .inr ⟨v, next, h2, h3, e, rfl⟩

/-- DEC_STEP stops only on an unwritten byte of a position below T. -/
theorem execDecStep_fault {f : Fault} (h : execDecStep s = .fault f) :
    ∃ j, s.unpacker.pos.toNat ≤ j
      ∧ j < s.unpacker.pos.toNat + (meaningfulBits s.unpacker - s.unpacker.pos.toNat)
      ∧ s.pay.read (j / 8) = none ∧ f = .unwrittenPayload (j / 8) := by
  unfold execDecStep at h
  dsimp only at h
  by_cases h0 : s.decoder.nEnt = 0
  · rw [if_pos h0] at h; cases h
  · rw [if_neg h0] at h
    by_cases h1 : s.unpacker.pos.toNat = meaningfulBits s.unpacker
    · rw [if_pos h1] at h; cases h
    · rw [if_neg h1] at h
      rcases walk_cases s.decoder s.pay (meaningfulBits s.unpacker - s.unpacker.pos.toNat) 0 s.unpacker.pos.toNat
        with e | e | ⟨j, h2, h3, h4, e⟩ | ⟨v, next, -, -, e⟩ <;> rw [e] at h <;> cases h
      exact ⟨j, h2, h3, h4, rfl⟩

end Sys2Proof.Machine
end

