-- ==== Sys2Proof/Laws/Builder.lean ====
section
/-! SUPPORT. What BUILD's merge does (41_tree_builder.md R84–R89): the key order, one extraction, the merge loop and the
tree it leaves. -/

namespace Sys2Proof.Machine

variable {b b' : Builder}

/-! ### The key order and one extraction -/

theorem keyBefore_iff (b : Builder) (i j : Nat) :
    b.keyBefore i j = true ↔
      (b.weight i).toNat < (b.weight j).toNat ∨ ((b.weight i).toNat = (b.weight j).toNat ∧ i < j) := by
  simp [Builder.keyBefore]

theorem keyBefore_trans {i j k : Nat} (h1 : b.keyBefore i j = true) (h2 : b.keyBefore j k = true) :
    b.keyBefore i k = true := by
  rw [keyBefore_iff] at *
  omega

/-- Distinct slots never tie. -/
theorem keyBefore_of_not {i j : Nat} (hij : i ≠ j) (h : b.keyBefore i j ≠ true) : b.keyBefore j i = true := by
  rw [ne_eq, keyBefore_iff] at h
  rw [keyBefore_iff]
  omega

theorem minKey_none {q : List Nat} (h : b.minKey q = none) : q = [] := by
  cases q with
  | nil => rfl
  | cons i rest =>
    simp only [Builder.minKey] at h
    split at h
    · cases h
    · split at h <;> cases h

/-- The least key is a member, and every other member comes after it. -/
theorem minKey_spec {q : List Nat} {x : Nat} (h : b.minKey q = some x) :
    x ∈ q ∧ ∀ z ∈ q, z = x ∨ b.keyBefore x z = true := by
  induction q generalizing x with
  | nil => simp [Builder.minKey] at h
  | cons i rest ih =>
    simp only [Builder.minKey] at h
    split at h
    · next hr =>
      cases h
      simp [minKey_none hr]
    · next j hr =>
      obtain ⟨hj, hall⟩ := ih hr
      split at h
      · next hk =>
        cases h
        refine ⟨List.mem_cons_of_mem _ hj, fun z hz => ?_⟩
        rcases List.mem_cons.1 hz with rfl | hz
        · exact .inr hk
        · exact hall z hz
      · next hk =>
        cases h
        refine ⟨List.mem_cons_self, fun z hz => ?_⟩
        rcases List.mem_cons.1 hz with rfl | hz
        · exact .inl rfl
        · by_cases hzi : z = i
          · exact .inl hzi
          · refine .inr ?_
            by_cases hij : i = j
            · subst hij
              rcases hall z hz with rfl | h
              · exact absurd rfl hzi
              · exact h
            · have hb : b.keyBefore i j = true := keyBefore_of_not (Ne.symm hij) hk
              rcases hall z hz with rfl | h
              · exact hb
              · exact keyBefore_trans hb h

/-- One extraction takes the least element out of a queue without repeats. -/
theorem extractMin_spec {q q1 : List Nat} {x : Nat} (hq : q.Nodup) (h : b.extractMin q = some (x, q1)) :
    x ∈ q ∧ q1 = q.erase x ∧ q1.Nodup ∧ (∀ z, z ∈ q1 ↔ z ∈ q ∧ z ≠ x) ∧ q1.length + 1 = q.length
      ∧ ∀ z ∈ q1, b.keyBefore x z = true := by
  unfold Builder.extractMin at h
  cases hm : b.minKey q with
  | none => simp [hm] at h
  | some y =>
    simp only [hm, Option.map_some, Option.some.injEq, Prod.mk.injEq] at h
    obtain ⟨rfl, rfl⟩ := h
    obtain ⟨hx, hall⟩ := minKey_spec hm
    have hmem (z : Nat) : z ∈ q.erase y ↔ z ∈ q ∧ z ≠ y := by rw [hq.mem_erase_iff]; exact and_comm
    have hlen : 0 < q.length := List.length_pos_of_mem hx
    refine ⟨hx, rfl, hq.erase _, hmem, by rw [List.length_erase_of_mem hx]; omega, fun z hz => ?_⟩
    rcases hall z ((hmem z).1 hz).1 with h | h
    · exact absurd h ((hmem z).1 hz).2
    · exact h

theorem extractMin_none {q : List Nat} (h : b.extractMin q = none) : q = [] := by
  unfold Builder.extractMin at h
  exact minKey_none (by simpa using h)

theorem extractMin_isSome {q : List Nat} (h : q ≠ []) : ∃ r, b.extractMin q = some r := by
  cases he : b.extractMin q with
  | none => exact absurd (extractMin_none he) h
  | some r => exact ⟨r, rfl⟩

/-! ### One merge -/

@[simp] theorem merge_leafWeight (b : Builder) (k x y : Nat) : (b.merge k x y).leafWeight = b.leafWeight := rfl
@[simp] theorem merge_inTree (b : Builder) (k x y : Nat) : (b.merge k x y).inTree = b.inTree := rfl

theorem merge_inner_self (b : Builder) {k : Nat} (x y : Nat) (hk : k < 255) :
    (b.merge k x y).inner[k]? =
      some ⟨b.weight x + b.weight y, some (BitVec.ofNat 9 x), some (BitVec.ofNat 9 y)⟩ := by
  simp [Builder.merge, hk]

theorem merge_inner_other (b : Builder) {k j : Nat} (x y : Nat) (hj : j ≠ k) :
    (b.merge k x y).inner[j]? = b.inner[j]? := by
  simp [Builder.merge, Ne.symm hj]

/-- Two builders that agree on every leaf slot and on the internal slots below `k`. -/
structure Builder.AgreeBelow (b b' : Builder) (k : Nat) : Prop where
  leafWeight : b'.leafWeight = b.leafWeight
  inTree : b'.inTree = b.inTree
  inner : ∀ j, j < k → b'.inner[j]? = b.inner[j]?

theorem Builder.AgreeBelow.rfl {k : Nat} : Builder.AgreeBelow b b k := ⟨Eq.refl _, Eq.refl _, fun _ _ => Eq.refl _⟩

theorem Builder.AgreeBelow.trans {b1 b2 b3 : Builder} {k k' : Nat} (h : Builder.AgreeBelow b1 b2 k)
    (h' : Builder.AgreeBelow b2 b3 k') (hk : k ≤ k') : Builder.AgreeBelow b1 b3 k :=
  ⟨h'.leafWeight.trans h.leafWeight, h'.inTree.trans h.inTree,
    fun j hj => (h'.inner j (by omega)).trans (h.inner j hj)⟩

theorem Builder.AgreeBelow.mono {k k' : Nat} (h : Builder.AgreeBelow b b' k) (hk : k' ≤ k) :
    Builder.AgreeBelow b b' k' := ⟨h.leafWeight, h.inTree, fun j hj => h.inner j (by omega)⟩

theorem merge_agreeBelow (b : Builder) (k x y : Nat) : Builder.AgreeBelow b (b.merge k x y) k :=
  ⟨Eq.refl _, Eq.refl _, fun _ hj => merge_inner_other b x y (by omega)⟩

theorem innerAt_inner (b : Builder) (j : Nat) : b.innerAt (256 + j) = b.inner[j]? := by
  rw [Builder.innerAt, if_neg (by omega), Nat.add_sub_cancel_left]

theorem Builder.AgreeBelow.innerAt {k i : Nat} (h : Builder.AgreeBelow b b' k) (hi : i < 256 + k) :
    b'.innerAt i = b.innerAt i := by
  unfold Builder.innerAt
  split
  · rfl
  · rw [h.inner _ (by omega)]

theorem Builder.AgreeBelow.weight {k i : Nat} (h : Builder.AgreeBelow b b' k) (hi : i < 256 + k) :
    b'.weight i = b.weight i := by
  unfold Builder.weight
  split
  · rw [h.leafWeight]
  · next hl => rw [h.innerAt hi]

theorem Builder.AgreeBelow.keyBefore {k i j : Nat} (h : Builder.AgreeBelow b b' k) (hi : i < 256 + k)
    (hj : j < 256 + k) : b'.keyBefore i j = b.keyBefore i j := by
  unfold Builder.keyBefore
  rw [h.weight hi, h.weight hj]

theorem Builder.AgreeBelow.inQueueAt {k i : Nat} (h : Builder.AgreeBelow b b' k) :
    b'.inQueueAt k i ↔ b.inQueueAt k i := by
  unfold Builder.inQueueAt
  rw [h.inTree]
  refine and_congr_right fun _ => ⟨fun hx j hj n hn => hx j hj n ?_, fun hx j hj n hn => hx j hj n ?_⟩
  · rw [h.inner j hj]; exact hn
  · rw [← h.inner j hj]; exact hn

theorem inQueueAt_lt {k i : Nat} (h : b.inQueueAt k i) : i < 256 + k := by
  rcases h.1 with ⟨h, -⟩ | ⟨j, hj, rfl⟩ <;> omega

/-! ### What a merged slot is -/

/-- Internal slot `k` is merge `k` of R84 and R85: it joins the two least keys of the queue before it, the least on the
left, and its weight is their sum. -/
def Builder.MergedAt (b : Builder) (k : Nat) : Prop :=
  ∃ (x y : Nat) (n : InnerNode), x < 256 + k ∧ y < 256 + k ∧ b.inner[k]? = some n
    ∧ n.left = some (BitVec.ofNat 9 x) ∧ n.right = some (BitVec.ofNat 9 y)
    ∧ n.weight = b.weight x + b.weight y
    ∧ b.inQueueAt k x ∧ b.inQueueAt k y ∧ b.keyBefore x y = true
    ∧ ∀ z, b.inQueueAt k z → z = x ∨ z = y ∨ b.keyBefore y z = true

theorem Builder.MergedAt.transfer {j k : Nat} (h : b.MergedAt j) (ha : Builder.AgreeBelow b b' k) (hj : j < k) :
    b'.MergedAt j := by
  obtain ⟨x, y, n, hx, hy, hn, hl, hr, hw, qx, qy, hk, hz⟩ := h
  have hq := ha.mono (Nat.le_of_lt hj)
  refine ⟨x, y, n, hx, hy, by rw [ha.inner j hj]; exact hn, hl, hr, ?_, hq.inQueueAt.2 qx, hq.inQueueAt.2 qy, ?_, ?_⟩
  · rw [hw, hq.weight hx, hq.weight hy]
  · rw [hq.keyBefore hx hy]; exact hk
  · intro z qz
    have qz' := hq.inQueueAt.1 qz
    rw [hq.keyBefore hy (inQueueAt_lt qz')]
    exact hz z qz'

/-- The queue of the merge loop before merge `k`: no repeats, and exactly the slots of R84's Q; every earlier merge has
been made. -/
structure Builder.Merging (b : Builder) (k : Nat) (q : List Nat) : Prop where
  nodup : q.Nodup
  mem : ∀ i, i ∈ q ↔ b.inQueueAt k i
  room : k + q.length ≤ 256
  merged : ∀ j, j < k → b.MergedAt j

theorem ofNat9_inj {i j : Nat} (hi : i < 512) (hj : j < 512) (h : BitVec.ofNat 9 i = BitVec.ofNat 9 j) : i = j := by
  have := congrArg BitVec.toNat h
  simpa [Nat.mod_eq_of_lt hi, Nat.mod_eq_of_lt hj] using this

/-- One turn of the loop: two extractions and a merge. -/
theorem Builder.Merging.step {k : Nat} {q q1 q2 : List Nat} {x y : Nat} (h : b.Merging k q)
    (hx : b.extractMin q = some (x, q1)) (hy : b.extractMin q1 = some (y, q2)) :
    (b.merge k x y).Merging (k + 1) (q2 ++ [256 + k]) := by
  obtain ⟨mx, -, nd1, mem1, len1, lt1⟩ := extractMin_spec h.nodup hx
  obtain ⟨my, -, nd2, mem2, len2, lt2⟩ := extractMin_spec nd1 hy
  have myq : y ∈ q := ((mem1 y).1 my).1
  have hlt (i : Nat) (hi : i ∈ q) : i < 256 + k := inQueueAt_lt ((h.mem i).1 hi)
  have hxlt := hlt x mx
  have hylt := hlt y myq
  have hroom := h.room
  have hk : k < 255 := by omega
  have ha := merge_agreeBelow b k x y
  have hself := merge_inner_self b x y hk
  refine ⟨?_, ?_, ?_, ?_⟩
  · refine List.nodup_append.2 ⟨nd2, by simp, fun i hi j hj => ?_⟩
    have := hlt i ((mem1 i).1 ((mem2 i).1 hi).1).1
    simp only [List.mem_singleton] at hj
    omega
  · intro i
    rw [List.mem_append, List.mem_singleton, mem2, mem1, h.mem]
    constructor
    · rintro (⟨⟨hq, hix⟩, hiy⟩ | rfl)
      · have hilt := inQueueAt_lt hq
        refine ⟨hq.1.imp_right (fun ⟨j, hj, e⟩ => ⟨j, by omega, e⟩), fun j hj n hn => ?_⟩
        by_cases hjk : j = k
        · subst hjk
          rw [hself] at hn
          cases hn
          exact ⟨fun e => hix (ofNat9_inj (by omega) (by omega) (Option.some.inj e)).symm,
            fun e => hiy (ofNat9_inj (by omega) (by omega) (Option.some.inj e)).symm⟩
        · rw [ha.inner j (by omega)] at hn
          exact hq.2 j (by omega) n hn
      · refine ⟨.inr ⟨k, by omega, rfl⟩, fun j hj n hn => ?_⟩
        by_cases hjk : j = k
        · subst hjk
          rw [hself] at hn
          cases hn
          exact ⟨fun e => by have := ofNat9_inj (by omega) (by omega) (Option.some.inj e); omega,
            fun e => by have := ofNat9_inj (by omega) (by omega) (Option.some.inj e); omega⟩
        · rw [ha.inner j (by omega)] at hn
          obtain ⟨x', y', n', hx', hy', hn', hl, hr, -⟩ := h.merged j (by omega)
          rw [hn] at hn'
          cases hn'
          rw [hl, hr]
          exact ⟨fun e => by have := ofNat9_inj (by omega) (by omega) (Option.some.inj e); omega,
            fun e => by have := ofNat9_inj (by omega) (by omega) (Option.some.inj e); omega⟩
    · rintro ⟨hb, hc⟩
      by_cases hik : i = 256 + k
      · exact .inr hik
      · refine .inl ?_
        have hb' : (i < 256 ∧ (b.inTree[i]?).getD false = true) ∨ ∃ j, j < k ∧ i = 256 + j := by
          refine hb.imp_right fun ⟨j, hj, e⟩ => ⟨j, ?_, e⟩
          have : j ≠ k := fun e' => hik (e' ▸ e)
          omega
        have hck := hc k (by omega) _ hself
        refine ⟨⟨⟨hb', fun j hj n hn => hc j (by omega) n (by rw [ha.inner j hj]; exact hn)⟩, ?_⟩, ?_⟩
        · rintro rfl; exact hck.1 rfl
        · rintro rfl; exact hck.2 rfl
  · simp only [List.length_append, List.length_singleton]; omega
  · intro j hj
    by_cases hjk : j = k
    · subst hjk
      refine ⟨x, y, _, hxlt, hylt, hself, rfl, rfl, ?_, ?_, ?_, ?_, ?_⟩
      · rw [ha.weight hxlt, ha.weight hylt]
      · exact ha.inQueueAt.2 ((h.mem x).1 mx)
      · exact ha.inQueueAt.2 ((h.mem y).1 myq)
      · rw [ha.keyBefore hxlt hylt]; exact lt1 y my
      · intro z hz
        have hz' := ha.inQueueAt.1 hz
        have hzq := (h.mem z).2 hz'
        by_cases hzx : z = x
        · exact .inl hzx
        · by_cases hzy : z = y
          · exact .inr (.inl hzy)
          · refine .inr (.inr ?_)
            rw [ha.keyBefore hylt (inQueueAt_lt hz')]
            exact lt2 z ((mem2 z).2 ⟨(mem1 z).2 ⟨hzq, hzx⟩, hzy⟩)
    · exact (h.merged j (by omega)).transfer ha (by omega)

/-! ### The loop -/

/-- The loop's induction, once: with fuel for its merges it runs down to one slot `z`, keeps every property one turn
keeps, and writes the internal slots from `k` up to the last merge only. -/
theorem mergeLoop_induct {P : Builder → Nat → List Nat → Prop}
    (hstep : ∀ b k q x q1 y q2, P b k q → b.extractMin q = some (x, q1) → b.extractMin q1 = some (y, q2) →
      P (b.merge k x y) (k + 1) (q2 ++ [256 + k]))
    (fuel k : Nat) (q : List Nat) (b : Builder) (hP : P b k q) (hnd : b.Merging k q) (hne : q ≠ [])
    (hfuel : q.length ≤ fuel + 1) :
    ∃ (b' : Builder) (z : Nat), P b' (k + q.length - 1) [z] ∧ b'.Merging (k + q.length - 1) [z]
      ∧ (2 ≤ q.length → z = 256 + (k + q.length - 1) - 1) ∧ (q.length = 1 → q = [z])
      ∧ Builder.AgreeBelow b b' k ∧ (∀ j, k + q.length - 1 ≤ j → b'.inner[j]? = b.inner[j]?)
      ∧ mergeLoop fuel k q b = { b' with root := BitVec.ofNat 9 z, nInt := k + q.length - 1 } := by
  induction fuel generalizing k q b with
  | zero =>
    match q, hne with
    | [z], _ => exact ⟨b, z, hP, hnd, by simp, by simp, .rfl, fun _ _ => rfl, rfl⟩
    | _ :: _ :: _, _ => simp at hfuel
  | succ fuel ih =>
    obtain ⟨⟨x, q1⟩, hx⟩ := extractMin_isSome (b := b) hne
    obtain ⟨-, -, -, -, len1, -⟩ := extractMin_spec hnd.nodup hx
    cases hy : b.extractMin q1 with
    | none =>
      have h0 := extractMin_none hy
      subst h0
      match q, hne, len1 with
      | [z], _, _ =>
        refine ⟨b, z, hP, hnd, by simp, by simp, .rfl, fun _ _ => rfl, ?_⟩
        simp [mergeLoop, hx, hy]
      | _ :: _ :: _, _, l => simp at l
    | some r =>
      obtain ⟨y, q2⟩ := r
      have nd1 := (extractMin_spec hnd.nodup hx).2.2.1
      obtain ⟨-, -, -, -, len2, -⟩ := extractMin_spec nd1 hy
      have hlen : (q2 ++ [256 + k]).length + 1 = q.length := by simp; omega
      obtain ⟨b', z, h1, h2, h3, h4, h5, h6, h7⟩ := ih (k + 1) (q2 ++ [256 + k]) (b.merge k x y)
        (hstep b k q x q1 y q2 hP hx hy) (hnd.step hx hy) (by simp) (by omega)
      have hk : k + 1 + (q2 ++ [256 + k]).length - 1 = k + q.length - 1 := by omega
      rw [hk] at h1 h2 h3 h6 h7
      refine ⟨b', z, h1, h2, fun _ => ?_, fun hl => by omega, (merge_agreeBelow b k x y).trans h5 (by omega),
        fun j hj => ?_, ?_⟩
      · by_cases hq2 : q2 = []
        · subst hq2
          have := h4 (by simp)
          simp only [List.nil_append, List.cons.injEq, and_true] at this
          simp only [List.nil_append, List.length_singleton] at hlen
          omega
        · have : 0 < q2.length := List.length_pos_iff.2 hq2
          exact h3 (by simp; omega)
      · rw [h6 j hj, merge_inner_other _ _ _ (by omega)]
      · rw [← h7]
        simp [mergeLoop, hx, hy]

/-! ### The leaves below a slot -/

@[simp] theorem treeLevels_eq : treeLevels = 256 := rfl

theorem leavesBelow_leaf (b : Builder) (fuel : Nat) {i : Nat} (hi : i < 256) :
    b.leavesBelow (fuel + 1) i = [(i, [])] := by
  rw [Builder.leavesBelow, if_pos hi]

/-- The leaves below an internal slot with two children: those on the left, then those on the right. -/
theorem leavesBelow_inner {b : Builder} {j x y : Nat} {n : InnerNode} (fuel : Nat) (hn : b.inner[j]? = some n)
    (hl : n.left = some (BitVec.ofNat 9 x)) (hr : n.right = some (BitVec.ofNat 9 y)) (hx : x < 512) (hy : y < 512) :
    b.leavesBelow (fuel + 1) (256 + j) =
      (b.leavesBelow fuel x).map (fun e => (e.1, false :: e.2))
      ++ (b.leavesBelow fuel y).map (fun e => (e.1, true :: e.2)) := by
  have hx' : (BitVec.ofNat 9 x).toNat = x := by rw [BitVec.toNat_ofNat, Nat.mod_eq_of_lt hx]
  have hy' : (BitVec.ofNat 9 y).toNat = y := by rw [BitVec.toNat_ofNat, Nat.mod_eq_of_lt hy]
  rw [Builder.leavesBelow, if_neg (by omega), innerAt_inner, hn]
  simp only [hl, hr, hx', hy']

/-- Below merged slots the walk does not depend on how many levels it may take beyond those it needs. -/
theorem leavesBelow_stable {k : Nat} (hk : k ≤ 256) (h : ∀ j, j < k → b.MergedAt j) (f f' i : Nat) (hi : i < 256 + k)
    (hf : i < 255 + f) (hf' : i < 255 + f') (h0 : 0 < f) (h0' : 0 < f') :
    b.leavesBelow f i = b.leavesBelow f' i := by
  induction f generalizing f' i with
  | zero => omega
  | succ f ih =>
    obtain ⟨f', rfl⟩ : ∃ m, f' = m + 1 := ⟨f' - 1, by omega⟩
    by_cases hl : i < 256
    · rw [leavesBelow_leaf b f hl, leavesBelow_leaf b f' hl]
    · obtain ⟨j, rfl⟩ : ∃ j, i = 256 + j := ⟨i - 256, by omega⟩
      obtain ⟨x, y, n, hx, hy, hn, hnl, hnr, -⟩ := h j (by omega)
      rw [leavesBelow_inner f hn hnl hnr (by omega) (by omega), leavesBelow_inner f' hn hnl hnr (by omega) (by omega),
        ih f' x (by omega) (by omega) (by omega) (by omega) (by omega),
        ih f' y (by omega) (by omega) (by omega) (by omega) (by omega)]

theorem Builder.AgreeBelow.leavesBelow {k : Nat} (ha : Builder.AgreeBelow b b' k) (hk : k ≤ 256)
    (h : ∀ j, j < k → b.MergedAt j) (f i : Nat) (hi : i < 256 + k) : b'.leavesBelow f i = b.leavesBelow f i := by
  induction f generalizing i with
  | zero => rfl
  | succ f ih =>
    by_cases hl : i < 256
    · rw [leavesBelow_leaf b f hl, leavesBelow_leaf b' f hl]
    · obtain ⟨j, rfl⟩ : ∃ j, i = 256 + j := ⟨i - 256, by omega⟩
      obtain ⟨x, y, n, hx, hy, hn, hnl, hnr, -⟩ := h j (by omega)
      have hn' := (ha.inner j (by omega)).trans hn
      rw [leavesBelow_inner f hn hnl hnr (by omega) (by omega), leavesBelow_inner f hn' hnl hnr (by omega) (by omega),
        ih x (by omega), ih y (by omega)]

/-- The leaves below the slot of merge `k`. -/
theorem leavesBelow_merge {k x y : Nat} (hk : k < 255) (h : ∀ j, j < k → b.MergedAt j) (hx : x < 256 + k)
    (hy : y < 256 + k) :
    (b.merge k x y).leavesBelow treeLevels (256 + k) =
      (b.leavesBelow treeLevels x).map (fun e => (e.1, false :: e.2))
      ++ (b.leavesBelow treeLevels y).map (fun e => (e.1, true :: e.2)) := by
  have ha := merge_agreeBelow b k x y
  rw [treeLevels, leavesBelow_inner 255 (merge_inner_self b x y hk) rfl rfl (by omega) (by omega),
    ha.leavesBelow (by omega) h 255 x hx, ha.leavesBelow (by omega) h 255 y hy,
    leavesBelow_stable (by omega) h 255 256 x hx (by omega) (by omega) (by omega) (by omega),
    leavesBelow_stable (by omega) h 255 256 y hy (by omega) (by omega) (by omega) (by omega)]

/-! ### What the loop keeps about leaves and weights -/

/-- How often leaf `v` stands below slot `i`. -/
def Builder.leafCount (b : Builder) (v i : Nat) : Nat :=
  ((b.leavesBelow treeLevels i).filter fun e => decide (e.1 = v)).length

/-- The weights of the leaves below slot `i`, as numbers. -/
def Builder.leafSum (b : Builder) (i : Nat) : Nat :=
  ((b.leavesBelow treeLevels i).map fun e => (b.weight e.1).toNat).sum

/-- Before merge `k`: each leaf stands below one slot of the queue exactly as often as `inv` says, the queue's weights add
up to `total`, and each slot weighs what its leaves do. -/
structure Builder.Balanced (inv : Nat → Nat) (total : Nat) (b : Builder) (k : Nat) (q : List Nat) : Prop where
  count : ∀ v, (q.map (b.leafCount v)).sum = inv v
  total : (q.map fun i => (b.weight i).toNat).sum = total
  sums : ∀ i, i < 256 + k → (b.weight i).toNat = b.leafSum i

theorem leaf_lt {f i : Nat} {e : Nat × Bits} (h : e ∈ b.leavesBelow f i) : e.1 < 256 := by
  induction f generalizing i e with
  | zero => simp [Builder.leavesBelow] at h
  | succ f ih =>
    rw [Builder.leavesBelow] at h
    split at h
    · next hi => rw [List.mem_singleton.1 h]; exact hi
    · split at h
      · cases h
      · rcases List.mem_append.1 h with h | h <;> split at h
        · cases h
        · obtain ⟨e', he, rfl⟩ := List.mem_map.1 h; exact ih (e := e') he
        · cases h
        · obtain ⟨e', he, rfl⟩ := List.mem_map.1 h; exact ih (e := e') he

theorem sum_perm {f : Nat → Nat} {l l' : List Nat} (h : l.Perm l') : (l.map f).sum = (l'.map f).sum :=
  (h.map f).sum_nat

theorem Builder.AgreeBelow.leafSum {k i : Nat} (ha : Builder.AgreeBelow b b' k) (hk : k ≤ 256)
    (h : ∀ j, j < k → b.MergedAt j) (hi : i < 256 + k) : b'.leafSum i = b.leafSum i := by
  unfold Builder.leafSum
  rw [ha.leavesBelow hk h _ i hi]
  exact congrArg List.sum (List.map_congr_left fun e he => by rw [ha.weight (by have := leaf_lt he; omega)])

theorem Builder.AgreeBelow.leafCount {k i : Nat} (ha : Builder.AgreeBelow b b' k) (hk : k ≤ 256)
    (h : ∀ j, j < k → b.MergedAt j) (hi : i < 256 + k) (v : Nat) : b'.leafCount v i = b.leafCount v i := by
  unfold Builder.leafCount
  rw [ha.leavesBelow hk h _ i hi]

theorem filter_map_length (l : List (Nat × Bits)) (x : Bool) (v : Nat) :
    ((l.map fun e => (e.1, x :: e.2)).filter fun e => decide (e.1 = v)).length
      = (l.filter fun e => decide (e.1 = v)).length := by
  rw [List.filter_map, List.length_map]
  rfl

theorem map_sum_map (l : List (Nat × Bits)) (x : Bool) (w : Nat → Nat) :
    ((l.map fun e => (e.1, x :: e.2)).map fun e => w e.1).sum = (l.map fun e => w e.1).sum := by
  rw [List.map_map]
  rfl

/-- One turn of the loop keeps the balance. -/
theorem Builder.Balanced.step {inv : Nat → Nat} {total k : Nat} {q q1 q2 : List Nat} {x y : Nat}
    (h : b.Balanced inv total k q) (hm : b.Merging k q) (ht : total < 2 ^ 64)
    (hx : b.extractMin q = some (x, q1)) (hy : b.extractMin q1 = some (y, q2)) :
    (b.merge k x y).Balanced inv total (k + 1) (q2 ++ [256 + k]) := by
  obtain ⟨mx, e1, nd1, mem1, len1, -⟩ := extractMin_spec hm.nodup hx
  obtain ⟨my, e2, -, mem2, len2, -⟩ := extractMin_spec nd1 hy
  have hroom := hm.room
  have hk : k < 255 := by omega
  have hlt (i : Nat) (hi : i ∈ q) : i < 256 + k := inQueueAt_lt ((hm.mem i).1 hi)
  have hxlt := hlt x mx
  have hylt := hlt y ((mem1 y).1 my).1
  have hlt2 (i : Nat) (hi : i ∈ q2) : i < 256 + k := hlt i ((mem1 i).1 ((mem2 i).1 hi).1).1
  have ha := merge_agreeBelow b k x y
  have hperm : q.Perm (x :: y :: q2) := by
    refine (List.perm_cons_erase mx).trans (List.Perm.cons _ ?_)
    rw [← e1, e2]
    exact List.perm_cons_erase my
  have hnew := leavesBelow_merge hk hm.merged hxlt hylt
  have hw : (b.merge k x y).weight (256 + k) = b.weight x + b.weight y := by
    rw [Builder.weight, if_neg (by omega), innerAt_inner, merge_inner_self b x y hk]
    rfl
  have hsum := h.total
  rw [sum_perm hperm] at hsum
  simp only [List.map_cons, List.sum_cons] at hsum
  have hwn : ((b.merge k x y).weight (256 + k)).toNat = (b.weight x).toNat + (b.weight y).toNat := by
    rw [hw, BitVec.toNat_add, Nat.mod_eq_of_lt (by omega)]
  refine ⟨fun v => ?_, ?_, fun i hi => ?_⟩
  · have hc : (b.merge k x y).leafCount v (256 + k) = b.leafCount v x + b.leafCount v y := by
      unfold Builder.leafCount
      rw [hnew, List.filter_append, List.length_append, filter_map_length, filter_map_length]
    have hold : q2.map ((b.merge k x y).leafCount v) = q2.map (b.leafCount v) :=
      List.map_congr_left fun i hi => ha.leafCount (by omega) hm.merged (hlt2 i hi) v
    have := h.count v
    rw [sum_perm hperm] at this
    simp only [List.map_cons, List.sum_cons] at this
    simp only [List.map_append, List.map_cons, List.map_nil, List.sum_append_nat, List.sum_cons, List.sum_nil, hc, hold]
    omega
  · have hold : (q2.map fun i => ((b.merge k x y).weight i).toNat) = q2.map fun i => (b.weight i).toNat :=
      List.map_congr_left fun i hi => by rw [ha.weight (hlt2 i hi)]
    simp only [List.map_append, List.map_cons, List.map_nil, List.sum_append_nat, List.sum_cons, List.sum_nil, hwn, hold]
    omega
  · by_cases hik : i = 256 + k
    · subst hik
      have hleaf (e : Nat × Bits) (he : e.1 < 256) : (b.merge k x y).weight e.1 = b.weight e.1 :=
        ha.weight (by omega)
      rw [hwn, h.sums x hxlt, h.sums y hylt]
      unfold Builder.leafSum
      rw [hnew, List.map_append, List.sum_append_nat, map_sum_map _ _ fun v => ((b.merge k x y).weight v).toNat,
        map_sum_map _ _ fun v => ((b.merge k x y).weight v).toNat]
      have hsame (i : Nat) : ((b.leavesBelow treeLevels i).map fun e => ((b.merge k x y).weight e.1).toNat)
          = (b.leavesBelow treeLevels i).map fun e => (b.weight e.1).toNat :=
        List.map_congr_left fun e he => by rw [hleaf e (leaf_lt he)]
      rw [hsame, hsame]
    · have hi' : i < 256 + k := by omega
      rw [ha.weight hi', ha.leafSum (by omega) hm.merged hi']
      exact h.sums i hi'

/-! ### The queue BUILD starts from -/

theorem mem_presentBytes {freq : ByteTable U64} {i : Nat} :
    i ∈ presentBytes freq ↔ i < 256 ∧ ByteTable.get freq (BitVec.ofNat 8 i) ≠ 0 := by
  constructor
  · intro h
    have hi := ByteTable.keysWhere_lt h
    refine ⟨hi, ?_⟩
    have := (ByteTable.mem_keysWhere freq (fun c => c ≠ 0) (BitVec.ofNat 8 i)).1
      (by rw [BitVec.toNat_ofNat, Nat.mod_eq_of_lt hi]; exact h)
    simpa using this
  · rintro ⟨hi, h⟩
    have := (ByteTable.mem_keysWhere freq (fun c => c ≠ 0) (BitVec.ofNat 8 i)).2 (by simpa using h)
    rwa [BitVec.toNat_ofNat, Nat.mod_eq_of_lt hi] at this

theorem presentBytes_length_le (freq : ByteTable U64) : (presentBytes freq).length ≤ 256 := by
  have h := List.length_filter_le (fun v => (freq[v]?.map fun c => decide (c ≠ 0)).getD false) (List.range 256)
  rw [List.length_range] at h
  rw [presentBytes, ByteTable.keysWhere_eq]
  exact h

theorem totalWeight_eq (freq : ByteTable U64) :
    totalWeight freq = ((List.range 256).map fun v => (ByteTable.get freq (BitVec.ofNat 8 v)).toNat).sum := by
  unfold totalWeight
  refine congrArg List.sum (List.ext_getElem (by simp) fun i h1 h2 => ?_)
  have hi : i < 256 := by simpa using h1
  simp [ByteTable.get, Nat.mod_eq_of_lt hi]

theorem sum_filter_zero (w : Nat → Nat) (p : Nat → Bool) (l : List Nat) (h : ∀ i ∈ l, p i = false → w i = 0) :
    ((l.filter p).map w).sum = (l.map w).sum := by
  induction l with
  | nil => rfl
  | cons i rest ih =>
    have ih := ih fun j hj => h j (List.mem_cons_of_mem _ hj)
    by_cases hp : p i = true
    · simp [hp, ih]
    · have := h i List.mem_cons_self (by simpa using hp)
      simp [hp, ih, this]

theorem presentBytes_total (freq : ByteTable U64) :
    ((presentBytes freq).map fun v => (ByteTable.get freq (BitVec.ofNat 8 v)).toNat).sum = totalWeight freq := by
  rw [totalWeight_eq, presentBytes, ByteTable.keysWhere_eq]
  refine sum_filter_zero _ _ _ fun i hi hp => ?_
  have hi' : i < 256 := List.mem_range.1 hi
  simp only [hi', Vector.getElem?_eq_getElem, Option.map_some, Option.getD_some] at hp
  have hz : freq[i] = 0 := by simpa using hp
  simp [ByteTable.get, Nat.mod_eq_of_lt hi', hz]

theorem totalWeight_pos {freq : ByteTable U64} (h : presentBytes freq = []) : totalWeight freq = 0 := by
  rw [← presentBytes_total, h]
  rfl

theorem loadLeaves_weight (b : Builder) (freq : ByteTable U64) {i : Nat} (hi : i < 256) :
    (b.loadLeaves freq).weight i = ByteTable.get freq (BitVec.ofNat 8 i) := by
  simp [Builder.weight, Builder.loadLeaves, ByteTable.get, hi, Nat.mod_eq_of_lt hi]

theorem loadLeaves_inTree (b : Builder) (freq : ByteTable U64) {i : Nat} (hi : i < 256) :
    ((b.loadLeaves freq).inTree[i]?).getD false = decide (ByteTable.get freq (BitVec.ofNat 8 i) ≠ 0) := by
  simp [Builder.loadLeaves, ByteTable.get, hi, Nat.mod_eq_of_lt hi]

theorem loadLeaves_merging (b : Builder) (freq : ByteTable U64) :
    (b.loadLeaves freq).Merging 0 (presentBytes freq) where
  nodup := ByteTable.keysWhere_nodup _ _
  mem i := by
    rw [mem_presentBytes]
    constructor
    · rintro ⟨hi, h⟩
      exact ⟨.inl ⟨hi, by rw [loadLeaves_inTree b freq hi]; simpa using h⟩, fun j hj => by omega⟩
    · rintro ⟨⟨hi, h⟩ | ⟨j, hj, -⟩, -⟩
      · rw [loadLeaves_inTree b freq hi] at h
        exact ⟨hi, by simpa using h⟩
      · omega
  room := by have := presentBytes_length_le freq; omega
  merged j hj := by omega

theorem count_of_nodup {l : List Nat} (h : l.Nodup) (v : Nat) :
    (l.map fun i => if i = v then 1 else 0).sum = if v ∈ l then 1 else 0 := by
  induction l with
  | nil => rfl
  | cons i rest ih =>
    obtain ⟨hi, hr⟩ := List.nodup_cons.1 h
    have ih := ih hr
    simp only [List.map_cons, List.sum_cons, ih, List.mem_cons]
    by_cases hv : i = v
    · subst hv; simp [hi]
    · simp [hv, Ne.symm hv]

theorem leafCount_leaf (b : Builder) (v : Nat) {i : Nat} (hi : i < 256) :
    b.leafCount v i = if i = v then 1 else 0 := by
  rw [Builder.leafCount, treeLevels, leavesBelow_leaf b 255 hi]
  by_cases h : i = v <;> simp [h]

theorem loadLeaves_balanced (b : Builder) (freq : ByteTable U64) :
    (b.loadLeaves freq).Balanced (fun v => if v ∈ presentBytes freq then 1 else 0) (totalWeight freq) 0
      (presentBytes freq) where
  count v := by
    rw [← count_of_nodup (loadLeaves_merging b freq).nodup v]
    exact congrArg List.sum (List.map_congr_left fun i hi => leafCount_leaf _ v (mem_presentBytes.1 hi).1)
  total := by
    rw [← presentBytes_total]
    exact congrArg List.sum (List.map_congr_left fun i hi => by rw [loadLeaves_weight b freq (mem_presentBytes.1 hi).1])
  sums i hi := by
    rw [Builder.leafSum, treeLevels, leavesBelow_leaf _ 255 (by omega)]
    simp

/-! ### The tree BUILD leaves -/

/-- What BUILD's tree is (R83–R86, R89), for a table with a count whose total fits. -/
structure Builder.BuiltFrom (t : Builder) (freq : ByteTable U64) (old : Builder) : Prop where
  valid : t.valid = true
  nLeaves : t.nLeaves = (presentBytes freq).length
  nInt : t.nInt = if (presentBytes freq).length = 1 then 1 else (presentBytes freq).length - 1
  root : t.root.toNat = 256 + t.nInt - 1
  leafWeight : t.leafWeight = freq
  inTree : t.inTree = freq.map fun c => decide (c ≠ 0)
  untouched : ∀ j, t.nInt ≤ j → t.inner[j]? = old.inner[j]?
  merged : 2 ≤ (presentBytes freq).length → ∀ j, j < t.nInt → t.MergedAt j
  single : ∀ v, presentBytes freq = [v] → t.inner[0]? = some ⟨t.weight v, some (BitVec.ofNat 9 v), none⟩
  sums : ∀ j, j < t.nInt → (t.weight (256 + j)).toNat = t.leafSum (256 + j)
  count : ∀ v, t.leafCount v t.root.toNat = if v ∈ presentBytes freq then 1 else 0

theorem buildTree_single (freq : ByteTable U64) (b : Builder) {v : Nat} (h : presentBytes freq = [v]) :
    buildTree freq b = { singleSymbolTree v (b.loadLeaves freq) with valid := true, nLeaves := 1 } := by
  simp [buildTree, h]

theorem buildTree_many (freq : ByteTable U64) (b : Builder) (h : ¬ ∃ v, presentBytes freq = [v]) :
    buildTree freq b =
      { mergeLoop (presentBytes freq).length 0 (presentBytes freq) (b.loadLeaves freq) with
        valid := true, nLeaves := (presentBytes freq).length } := by
  unfold buildTree
  dsimp only
  split
  · next v hv => exact absurd ⟨v, hv⟩ h
  · rfl

theorem buildTree_builtFrom (freq : ByteTable U64) (b : Builder) (hne : presentBytes freq ≠ [])
    (ht : totalWeight freq < 2 ^ 64) : (buildTree freq b).BuiltFrom freq b := by
  have hlen := presentBytes_length_le freq
  by_cases h1 : ∃ v, presentBytes freq = [v]
  · obtain ⟨v, hv⟩ := h1
    rw [buildTree_single freq b hv]
    have hv' : v < 256 := (mem_presentBytes.1 (by rw [hv]; exact List.mem_singleton.2 rfl : v ∈ presentBytes freq)).1
    generalize ht' : Builder.mk _ _ _ _ _ _ _ = t
    have hinner : t.inner[0]? = some ⟨t.weight v, some (BitVec.ofNat 9 v), none⟩ := by
      subst ht'
      simp [singleSymbolTree, Builder.weight, hv']
    have hroot : t.root = 256 := by subst ht'; rfl
    have hbelow : t.leavesBelow treeLevels 256 = [(v, [false])] := by
      rw [treeLevels, Builder.leavesBelow, if_neg (by omega), show 256 = 256 + 0 from rfl, innerAt_inner, hinner]
      simp only [BitVec.toNat_ofNat, Nat.mod_eq_of_lt (show v < 2 ^ 9 by omega)]
      rw [leavesBelow_leaf t 254 hv']
      rfl
    have hweight : t.weight (256 + 0) = t.weight v := by
      rw [Builder.weight, if_neg (by omega), innerAt_inner, hinner]
      rfl
    have hnInt : t.nInt = 1 := by subst ht'; rfl
    refine ⟨by subst ht'; rfl, by rw [hv]; subst ht'; rfl, by rw [hv, hnInt]; rfl, by rw [hroot, hnInt]; rfl,
      by subst ht'; rfl, by subst ht'; rfl, ?_, by rw [hv]; simp, ?_, ?_, ?_⟩
    · intro j hj
      rw [hnInt] at hj
      subst ht'
      simp [singleSymbolTree, Builder.loadLeaves, show (0 : Nat) ≠ j by omega]
    · intro w hw
      rw [hv] at hw
      cases hw
      exact hinner
    · intro j hj
      have : j = 0 := by omega
      subst this
      rw [hweight, Builder.leafSum, hbelow]
      simp
    · intro w
      rw [hroot, show (256 : BitVec 9).toNat = 256 from rfl, Builder.leafCount, hbelow, hv]
      by_cases hw : v = w
      · simp [hw]
      · simp [hw, Ne.symm hw]
  · rw [buildTree_many freq b h1]
    have h2 : 2 ≤ (presentBytes freq).length := by
      match hp : presentBytes freq, hne, h1 with
      | [v], _, h1 => exact absurd ⟨v, rfl⟩ h1
      | _ :: _ :: _, _, _ => simp
    obtain ⟨b', z, hbal, hm, hz, -, ha, hun, hl⟩ := mergeLoop_induct
      (P := fun b k q => b.Merging k q ∧
        b.Balanced (fun v => if v ∈ presentBytes freq then 1 else 0) (totalWeight freq) k q)
      (fun b k q x q1 y q2 hP hx hy => ⟨hP.1.step hx hy, hP.2.step hP.1 ht hx hy⟩)
      (presentBytes freq).length 0 (presentBytes freq) (b.loadLeaves freq)
      ⟨loadLeaves_merging b freq, loadLeaves_balanced b freq⟩ (loadLeaves_merging b freq) hne (by omega)
    have hbal := hbal.2
    have hz := hz h2
    simp only [Nat.zero_add] at hbal hm hz hun hl
    rw [hl]
    dsimp only
    generalize ht' : Builder.mk _ _ _ _ _ _ _ = t
    have hroot : t.root.toNat = z := by
      subst ht'
      simp only [BitVec.toNat_ofNat]
      exact Nat.mod_eq_of_lt (by omega)
    have hnInt : t.nInt = (presentBytes freq).length - 1 := by subst ht'; rfl
    have hag (k : Nat) : Builder.AgreeBelow b' t k := by subst ht'; exact ⟨rfl, rfl, fun _ _ => rfl⟩
    refine ⟨by subst ht'; rfl, by subst ht'; rfl, by rw [hnInt, if_neg (by omega)], by omega, ?_, ?_, ?_, ?_, ?_, ?_, ?_⟩
    · rw [(hag 0).leafWeight, ha.leafWeight]; rfl
    · rw [(hag 0).inTree, ha.inTree]; rfl
    · intro j hj
      rw [(hag (j + 1)).inner j (by omega), hun j (by omega)]
      rfl
    · intro _ j hj
      exact (hm.merged j (by omega)).transfer (hag (j + 1)) (by omega)
    · intro v hv
      exact absurd ⟨v, hv⟩ h1
    · intro j hj
      rw [(hag _).weight (k := (presentBytes freq).length - 1) (by omega),
        (hag _).leafSum (k := (presentBytes freq).length - 1) (by omega) hm.merged (by omega)]
      exact hbal.sums _ (by omega)
    · intro v
      rw [hroot, (hag _).leafCount (k := (presentBytes freq).length - 1) (by omega) hm.merged (by omega) v]
      have := hbal.count v
      simpa using this

end Sys2Proof.Machine
end

