-- ==== Sys2Proof/Laws/CodeGenerator.lean ====
section
/-! SUPPORT. What GEN_CODES records (42_code_table.md R92–R94): the walk visits the leaves with their paths, the paths are
prefix-free, and a leaf that stands once in the tree gets its path. -/

namespace Sys2Proof.Machine

variable {b : Builder}

/-! ### The paths of the leaves -/

/-- A path below a slot takes one bit for each level walked. -/
theorem leaf_path_length {f i : Nat} {e : Nat × Bits} (h : e ∈ b.leavesBelow f i) : e.2.length < f := by
  induction f generalizing i e with
  | zero => simp [Builder.leavesBelow] at h
  | succ f ih =>
    rw [Builder.leavesBelow] at h
    split at h
    · rw [List.mem_singleton.1 h]; exact Nat.succ_pos f
    · split at h
      · cases h
      · rcases List.mem_append.1 h with h | h <;> split at h
        · cases h
        · obtain ⟨e', he, rfl⟩ := List.mem_map.1 h
          exact Nat.succ_lt_succ (ih (e := e') he)
        · cases h
        · obtain ⟨e', he, rfl⟩ := List.mem_map.1 h
          exact Nat.succ_lt_succ (ih (e := e') he)

/-- Below an internal slot every path has a bit. -/
theorem leaf_path_ne_nil {f i : Nat} (hi : 256 ≤ i) {e : Nat × Bits} (h : e ∈ b.leavesBelow f i) : e.2 ≠ [] := by
  cases f with
  | zero => simp [Builder.leavesBelow] at h
  | succ f =>
    rw [Builder.leavesBelow, if_neg (by omega)] at h
    split at h
    · cases h
    · rcases List.mem_append.1 h with h | h <;> split at h
      · cases h
      · obtain ⟨e', he, rfl⟩ := List.mem_map.1 h
        exact List.cons_ne_nil _ _
      · cases h
      · obtain ⟨e', he, rfl⟩ := List.mem_map.1 h
        exact List.cons_ne_nil _ _

/-- Paths to leaves are prefix-free: no leaf lies below another. -/
theorem leaf_paths_prefix_free {f i : Nat} {e e' : Nat × Bits} (h : e ∈ b.leavesBelow f i)
    (h' : e' ∈ b.leavesBelow f i) (hp : e.2 <+: e'.2) : e = e' := by
  induction f generalizing i e e' with
  | zero => simp [Builder.leavesBelow] at h
  | succ f ih =>
    rw [Builder.leavesBelow] at h h'
    split at h
    · next hi =>
      rw [if_pos hi] at h'
      rw [List.mem_singleton.1 h, List.mem_singleton.1 h']
    · next hi =>
      rw [if_neg hi] at h'
      split at h
      · cases h
      · next n hn =>
        simp only [hn] at h'
        rcases List.mem_append.1 h with h | h <;> rcases List.mem_append.1 h' with h' | h' <;> split at h
        · cases h
        · next l hl =>
          simp only [hl] at h'
          obtain ⟨a, ha, rfl⟩ := List.mem_map.1 h
          obtain ⟨a', ha', rfl⟩ := List.mem_map.1 h'
          rw [ih ha ha' (List.cons_prefix_cons.1 hp).2]
        · cases h
        · split at h'
          · cases h'
          · obtain ⟨a, ha, rfl⟩ := List.mem_map.1 h
            obtain ⟨a', ha', rfl⟩ := List.mem_map.1 h'
            exact absurd (List.cons_prefix_cons.1 hp).1 (by decide)
        · cases h
        · split at h'
          · cases h'
          · obtain ⟨a, ha, rfl⟩ := List.mem_map.1 h
            obtain ⟨a', ha', rfl⟩ := List.mem_map.1 h'
            exact absurd (List.cons_prefix_cons.1 hp).1 (by decide)
        · cases h
        · next r hr =>
          simp only [hr] at h'
          obtain ⟨a, ha, rfl⟩ := List.mem_map.1 h
          obtain ⟨a', ha', rfl⟩ := List.mem_map.1 h'
          rw [ih ha ha' (List.cons_prefix_cons.1 hp).2]

/-! ### The walk -/

/-- Recording a list of leaves, each with its path below the root path `p`. -/
def recordLeaves (p : Bits) (c : CodeArrays) (l : List (Nat × Bits)) : CodeArrays :=
  l.foldl (fun c e => recordCode e.1 (p ++ e.2) c) c

theorem recordLeaves_append (p : Bits) (c : CodeArrays) (l l' : List (Nat × Bits)) :
    recordLeaves p c (l ++ l') = recordLeaves p (recordLeaves p c l) l' := List.foldl_append

theorem recordLeaves_map (p : Bits) (c : CodeArrays) (x : Bool) (l : List (Nat × Bits)) :
    recordLeaves p c (l.map fun e => (e.1, x :: e.2)) = recordLeaves (p ++ [x]) c l := by
  unfold recordLeaves
  rw [List.foldl_map]
  simp

/-- R92's walk records the leaves below a slot, in order. -/
theorem visitNode_eq (f i : Nat) (p : Bits) (c : CodeArrays) :
    visitNode b f i p c = recordLeaves p c (b.leavesBelow f i) := by
  induction f generalizing i p c with
  | zero => rfl
  | succ f ih =>
    rw [visitNode, Builder.leavesBelow]
    split
    · simp [recordLeaves]
    · cases b.innerAt i with
      | none => rfl
      | some n =>
        simp only [recordLeaves_append]
        cases n.left <;> cases n.right <;> simp only [recordLeaves_map, ih] <;> rfl

/-- What recording leaves at one byte: the last path recorded for it, or what was there. -/
theorem recordLeaves_get (p : Bits) (c : CodeArrays) (l : List (Nat × Bits)) (v : Byte) :
    let own := l.filter fun e => decide (e.1 = v.toNat)
    ByteTable.get (recordLeaves p c l).1 v =
        (own.getLast?.map fun e => BitVec.ofNat 8 (p ++ e.2).length).getD (ByteTable.get c.1 v)
      ∧ ByteTable.get (recordLeaves p c l).2 v = (own.getLast?.map fun e => p ++ e.2).getD (ByteTable.get c.2 v) := by
  induction l generalizing c with
  | nil => exact ⟨rfl, rfl⟩
  | cons e rest ih =>
    obtain ⟨h1, h2⟩ := ih (recordCode e.1 (p ++ e.2) c)
    simp only [recordLeaves, List.foldl_cons] at h1 h2 ⊢
    rw [h1, h2]
    by_cases he : e.1 = v.toNat
    · have g1 : ByteTable.get (recordCode e.1 (p ++ e.2) c).1 v = BitVec.ofNat 8 (p ++ e.2).length := by
        simp [recordCode, ByteTable.get, he]
      have g2 : ByteTable.get (recordCode e.1 (p ++ e.2) c).2 v = p ++ e.2 := by
        simp [recordCode, ByteTable.get, he]
      rw [g1, g2]
      simp only [List.filter_cons, he, decide_true, if_true]
      rw [List.getLast?_cons]
      cases (List.filter (fun e => decide (e.1 = v.toNat)) rest).getLast? <;> simp
    · have g1 : ByteTable.get (recordCode e.1 (p ++ e.2) c).1 v = ByteTable.get c.1 v := by
        simp [recordCode, ByteTable.get, he]
      have g2 : ByteTable.get (recordCode e.1 (p ++ e.2) c).2 v = ByteTable.get c.2 v := by
        simp [recordCode, ByteTable.get, he]
      rw [g1, g2]
      simp [he]

theorem generateCodes_arrays (b : Builder) :
    ((generateCodes b).clen, (generateCodes b).cbits) = recordLeaves [] noCodes b.leaves := by
  rw [Builder.leaves, ← visitNode_eq]
  rfl

/-- A byte whose leaf stands once in the tree gets its path as its code. -/
theorem generateCodes_leaf {v : Byte} {p : Bits}
    (h : b.leaves.filter (fun e => decide (e.1 = v.toNat)) = [(v.toNat, p)]) :
    (ByteTable.get (generateCodes b).clen v).toNat = p.length ∧ ByteTable.get (generateCodes b).cbits v = p := by
  have hl : p.length < 256 := by
    have hm : (v.toNat, p) ∈ b.leaves := by
      have : (v.toNat, p) ∈ b.leaves.filter (fun e => decide (e.1 = v.toNat)) := by rw [h]; exact List.mem_singleton.2 rfl
      exact (List.mem_filter.1 this).1
    exact leaf_path_length (e := (v.toNat, p)) hm
  obtain ⟨h1, h2⟩ := recordLeaves_get [] noCodes b.leaves v
  rw [← generateCodes_arrays] at h1 h2
  rw [h] at h1 h2
  simp only [List.nil_append, List.getLast?_singleton, Option.map_some, Option.getD_some] at h1 h2
  exact ⟨by rw [h1, BitVec.toNat_ofNat, Nat.mod_eq_of_lt hl], h2⟩

/-- A byte with no leaf in the tree has no code. -/
theorem generateCodes_absent {v : Byte} (h : b.leaves.filter (fun e => decide (e.1 = v.toNat)) = []) :
    ByteTable.get (generateCodes b).clen v = 0 ∧ ByteTable.get (generateCodes b).cbits v = [] := by
  obtain ⟨h1, h2⟩ := recordLeaves_get [] noCodes b.leaves v
  rw [← generateCodes_arrays] at h1 h2
  rw [h] at h1 h2
  exact ⟨by rw [h1]; simp [noCodes], by rw [h2]; simp [noCodes]⟩

/-- On a valid tree of R36's shape each byte is in the tree, with one leaf and a nonempty path to it, or has no leaf. -/
theorem TreeInv.leaf_cases {s : State} (ht : TreeInv s) (hv : s.builder.valid = true) (v : Byte) :
    (ByteTable.get s.builder.inTree v = true ∧ ∃ p, p ≠ [] ∧ (v.toNat, p) ∈ s.builder.leaves
      ∧ s.builder.leaves.filter (fun e => decide (e.1 = v.toNat)) = [(v.toNat, p)])
    ∨ (ByteTable.get s.builder.inTree v = false
      ∧ s.builder.leaves.filter (fun e => decide (e.1 = v.toNat)) = []) := by
  obtain ⟨h1, -, h3, h4, -, h6⟩ := ht hv
  have hone := h6 v
  cases hi : ByteTable.get s.builder.inTree v with
  | true =>
    rw [hi, if_pos rfl] at hone
    obtain ⟨⟨w, p⟩, he⟩ := List.length_eq_one_iff.1 hone
    have hm : (w, p) ∈ s.builder.leaves.filter (fun e => decide (e.1 = v.toNat)) := by
      rw [he]; exact List.mem_singleton.2 rfl
    obtain ⟨hm1, hm2⟩ := List.mem_filter.1 hm
    have hw : w = v.toNat := by simpa using hm2
    subst hw
    have hr : 256 ≤ s.builder.root.toNat := by rw [h4]; split at h3 <;> omega
    exact .inl ⟨rfl, p, leaf_path_ne_nil (e := (v.toNat, p)) hr hm1, hm1, he⟩
  | false =>
    rw [hi, if_neg (by decide)] at hone
    exact .inr ⟨rfl, List.length_eq_zero_iff.1 hone⟩

/-- BUILD's tree has R36's shape. -/
theorem Builder.BuiltFrom.treeInv {t old : Builder} {freq : ByteTable U64} (h : t.BuiltFrom freq old)
    (hne : presentBytes freq ≠ []) {s : State} (hs : s.builder = t) : TreeInv s := by
  intro _
  have hpos := List.length_pos_iff.2 hne
  rw [hs]
  refine ⟨by rw [h.nLeaves]; exact hpos, ?_, by rw [h.nLeaves]; exact h.nInt, h.root, h.sums, fun v => ?_⟩
  · rw [h.nLeaves, h.inTree, presentBytes, ByteTable.keysWhere_eq, ByteTable.keysWhere_eq]
    refine congrArg List.length (List.filter_congr fun v hv => ?_)
    have hv := List.mem_range.1 hv
    simp [hv]
  · have hc := h.count v.toNat
    rw [Builder.leafCount] at hc
    have hv := v.isLt
    rw [Builder.leaves, hc]
    by_cases hm : v.toNat ∈ presentBytes freq
    · have := mem_presentBytes.1 hm
      rw [if_pos hm, h.inTree, if_pos]
      simpa [ByteTable.get] using this.2
    · rw [if_neg hm, h.inTree, if_neg]
      intro hx
      exact hm (mem_presentBytes.2 ⟨hv, by simpa [ByteTable.get] using hx⟩)

/-! ### MAXLEN -/

theorem le_foldl_max (l : List Nat) (a : Nat) : a ≤ l.foldl max a ∧ ∀ n ∈ l, n ≤ l.foldl max a := by
  induction l generalizing a with
  | nil => simp
  | cons x rest ih =>
    obtain ⟨h1, h2⟩ := ih (max a x)
    simp only [List.foldl_cons, List.mem_cons]
    refine ⟨by omega, fun n hn => ?_⟩
    rcases hn with rfl | hn
    · omega
    · exact h2 n hn

theorem foldl_max_mem (l : List Nat) (a : Nat) : l.foldl max a = a ∨ l.foldl max a ∈ l := by
  induction l generalizing a with
  | nil => exact .inl rfl
  | cons x rest ih =>
    simp only [List.foldl_cons, List.mem_cons]
    rcases ih (max a x) with h | h
    · rw [h]; omega
    · exact .inr (.inr h)

/-- MAXLEN is the longest code length. -/
theorem generateCodes_maxLen (b : Builder) :
    (∀ v, (ByteTable.get (generateCodes b).clen v).toNat ≤ (generateCodes b).maxLen)
      ∧ ∃ v, (ByteTable.get (generateCodes b).clen v).toNat = (generateCodes b).maxLen := by
  have hm : (generateCodes b).maxLen = ((generateCodes b).clen.toList.map BitVec.toNat).foldl max 0 := rfl
  have hget (v : Byte) : (ByteTable.get (generateCodes b).clen v).toNat
      ∈ (generateCodes b).clen.toList.map BitVec.toNat :=
    List.mem_map.2 ⟨_, by simp [ByteTable.get], rfl⟩
  refine ⟨fun v => by rw [hm]; exact (le_foldl_max _ 0).2 _ (hget v), ?_⟩
  rcases foldl_max_mem ((generateCodes b).clen.toList.map BitVec.toNat) 0 with h | h
  · refine ⟨0, ?_⟩
    have := (le_foldl_max ((generateCodes b).clen.toList.map BitVec.toNat) 0).2 _ (hget 0)
    rw [hm]
    omega
  · obtain ⟨x, hx, he⟩ := List.mem_map.1 h
    obtain ⟨i, hi, rfl⟩ := List.getElem_of_mem hx
    have hi' : i < 256 := by simpa using hi
    refine ⟨BitVec.ofNat 8 i, ?_⟩
    rw [hm, ← he]
    simp [ByteTable.get, Nat.mod_eq_of_lt hi']

end Sys2Proof.Machine
end

