-- ==== Sys2Proof/Machine/HostScript.lean ====
section
/-! DEFINITION. The host-script primitives and macros (30_encoding.md R74, R75), as lists of port events, and scripts with
CHECK. -/

namespace Sys2Proof.Machine

/-- `W off, v`. -/
def scriptW (offset : Nat) (v : Word) : PortEvent := .access (.write .reg offset .four v)

/-- `R off`. -/
def scriptR (offset : Nat) : PortEvent := .access (.read .reg offset .four)

/-- `WB a, v`. -/
def scriptWB (a : Nat) (v : Byte) : PortEvent := .access (.write .pay a .one (v.setWidth 32))

/-- `RB a`. -/
def scriptRB (a : Nat) : PortEvent := .access (.read .pay a .one)

/-- `C <command>`. -/
def scriptC (i : Instr) : PortEvent := commandWrite (encode i)

/-- `SETFREQ v, c`. -/
def scriptSetFreq (v : Byte) (c : U64) : List PortEvent :=
  [scriptW 0x008 (low32 c), scriptW 0x00C (high32 c), scriptC (.freqSet v)]

/-- `LOADCB s`. -/
def scriptLoadCb (s : Bits) : List PortEvent :=
  (List.range 8).map fun k => scriptW (0x040 + 4 * k) (codebufWord s k)

/-- |s| as the LEN of a command word. R75's LOADCB takes up to 256 bits and LEN holds at most 255: DESIGN CHOICE the low
8 bits of |s|, so that a sequence of 256 bits gives LEN = 0 (log 24). -/
def scriptLength (s : Bits) : Byte := BitVec.ofNat 8 s.length

/-- `APPEND s`. Of 256 bits: see `scriptLength` (log 24). -/
def scriptAppend (s : Bits) : List PortEvent := scriptLoadCb s ++ [scriptC (.pkAppendBits (scriptLength s))]

/-- `INSERT v, s`. Of 256 bits: see `scriptLength` (log 24). -/
def scriptInsert (v : Byte) (s : Bits) : List PortEvent := scriptLoadCb s ++ [scriptC (.decInsert v (scriptLength s))]

/-- `START n, k`. -/
def scriptStart (n : Word) (k : Byte) : List PortEvent := [scriptW 0x008 n, scriptC (.upStart k)]

/-- `NODE i`. -/
def scriptNode (i : Word) : List PortEvent := [scriptW 0x008 i, scriptC .readNode]

/-! ### Scripts -/

/-- An item of a script: an event, or the comparison that CHECK makes. -/
inductive ScriptItem where
  | access (e : PortEvent)
  /-- Bits 7:4 of the word just read must be the code of `e`. -/
  | compare (e : CmdOutcome)
deriving DecidableEq, Repr

/-- Events as a script. -/
def script (es : List PortEvent) : List ScriptItem := es.map .access

/-- `CHECK e`: `R STATUS`, then the comparison. -/
def scriptCheck (e : CmdOutcome) : List ScriptItem := [.access (scriptR 0x004), .compare e]

/-- The comparison of CHECK, on the port's last answer. Anything but a word read fails it. -/
def checkHolds (answer : Option Answer) (e : CmdOutcome) : Bool :=
  match answer with
  | some (.ok (some status)) => status.extractLsb' 4 4 = e.code
  | some (.ok none) | some .busError | some .abandoned | none => false

/-- How a script ends. -/
inductive ScriptEnd where
  | finished (s : State)
  /-- `CHECK expected` failed. -/
  | checkFailed (expected : CmdOutcome) (s : State)
  | fault (f : Fault)
  | refused (r : Refusal)
deriving DecidableEq, Repr

/-- A script from a state: its events served one at a time, in order (20_memory.md R56), up to the first CHECK that
fails. After an access answered BUS_ERROR it goes on with the next item: DESIGN CHOICE, since R49 leaves to the platform
how the host sees a bus error (log 25). -/
def runScript : List ScriptItem → State → ScriptEnd
  | [], s => .finished s
  | .access e :: rest, s =>
    match takeEvent e s with
    | .next t => runScript rest t
    | .fault f => .fault f
    | .refused r => .refused r
  | .compare e :: rest, s => if checkHolds s.answer e then runScript rest s else .checkFailed e s

end Sys2Proof.Machine
end

