-- ==== Sys2Proof/Laws/HostScript.lean ====
section
/-! SUPPORT. Host scripts: CHECK compares LASTRES, and how a script runs in two parts. -/

namespace Sys2Proof.Machine

/-- No two outcomes share a code. -/
theorem code_injective {a b : CmdOutcome} (h : a.code = b.code) : a = b := by
  cases a <;> cases b <;> first | rfl | exact absurd h (by decide)

/-- STATUS[7:4] is the code of LASTRES. -/
theorem statusWord_lastRes (s : State) : (statusWord s).extractLsb' 4 4 = s.lastRes.code := by
  apply BitVec.eq_of_getLsbD_eq
  intro i hi
  simp only [statusWord, flagBit, BitVec.getLsbD_extractLsb', BitVec.getLsbD_or, BitVec.getLsbD_shiftLeft,
    BitVec.getLsbD_setWidth, BitVec.getLsbD_ofBool]
  match i, hi with
  | 0, _ => simp
  | 1, _ => simp
  | 2, _ => simp
  | 3, _ => simp

/-- A CHECK goes on exactly when the outcome is the one it names; STATUS is the port's last answer either way. -/
theorem runScript_check (e : CmdOutcome) (rest : List ScriptItem) (s : State) :
    runScript (scriptCheck e ++ rest) s =
      if s.lastRes = e then runScript rest (answerOk (some (statusWord s)) s)
      else .checkFailed e (answerOk (some (statusWord s)) s) := by
  have hread : takeEvent (scriptR 0x004) s = .next (answerOk (some (statusWord s)) s) := rfl
  simp only [scriptCheck, List.cons_append, List.nil_append, runScript, hread, answerOk_answer, checkHolds,
    statusWord_lastRes]
  by_cases h : s.lastRes = e
  · simp [h]
  · simp [h, show s.lastRes.code ≠ e.code from fun hc => h (code_injective hc)]

/-- A script whose first part finishes goes on with its second. -/
theorem runScript_append {items rest : List ScriptItem} {s t : State} (h : runScript items s = .finished t) :
    runScript (items ++ rest) s = runScript rest t := by
  induction items generalizing s with
  | nil => cases h; rfl
  | cons item items ih =>
    cases item with
    | access e =>
      simp only [List.cons_append, runScript] at h ⊢
      cases he : takeEvent e s with
      | next u => rw [he] at h; exact ih h
      | fault f => rw [he] at h; cases h
      | refused r => rw [he] at h; cases h
    | compare e =>
      simp only [List.cons_append, runScript] at h ⊢
      split at h
      · next hc => rw [if_pos hc]; exact ih h
      · cases h

end Sys2Proof.Machine
end

