-- ==== Sys2Proof/Laws/Operands.lean ====
section
/-! SUPPORT. The code buffer (10_state.md R23, 20_memory.md R46, R50), register pairs and little-endian payload words. -/

namespace Sys2Proof.Machine

/-! ### A word of four bytes -/

/-- Bit `8j + r` of four bytes put together is bit `r` of byte j. -/
theorem getLsbD_bytes (f : Nat → Byte) {j r : Nat} (hj : j < 4) (hr : r < 8) :
    ((f 3).setWidth 32 <<< 24 ||| (f 2).setWidth 32 <<< 16 ||| (f 1).setWidth 32 <<< 8
      ||| (f 0).setWidth 32 : Word).getLsbD (8 * j + r) = (f j).getLsbD r := by
  have hi (k : Nat) (hk : 8 ≤ k) : (f 0).getLsbD k = false ∧ (f 1).getLsbD k = false ∧ (f 2).getLsbD k = false
      ∧ (f 3).getLsbD k = false :=
    ⟨BitVec.getLsbD_of_ge _ _ hk, BitVec.getLsbD_of_ge _ _ hk, BitVec.getLsbD_of_ge _ _ hk, BitVec.getLsbD_of_ge _ _ hk⟩
  simp only [BitVec.getLsbD_or, BitVec.getLsbD_shiftLeft, BitVec.getLsbD_setWidth]
  match j, hj with
  | 0, _ => simp [show r < 32 by omega, show r < 24 by omega, show r < 16 by omega, hr]
  | 1, _ =>
    simp [show 8 + r < 32 by omega, show 8 + r < 24 by omega, show 8 + r < 16 by omega, show r < 32 by omega]
  | 2, _ =>
    simp [show 16 + r < 32 by omega, show 16 + r < 24 by omega, show ¬ 16 + r < 8 by omega, show r < 32 by omega,
      show 16 + r - 8 < 32 by omega, (hi (16 + r) (by omega)).1, (hi (16 + r - 8) (by omega)).2.1]
  | 3, _ =>
    simp [show 24 + r < 32 by omega, show ¬ 24 + r < 16 by omega, show ¬ 24 + r < 8 by omega, show r < 32 by omega,
      show 24 + r - 8 < 32 by omega, show 24 + r - 16 < 32 by omega, (hi (24 + r) (by omega)).1,
      (hi (24 + r - 8) (by omega)).2.1, (hi (24 + r - 16) (by omega)).2.2.1]

/-! ### CODEBUF -/

/-- Position p of the buffer that holds `bits`: bit p of them, and 0 past their end. -/
theorem codebufBit_codebufOf (bits : Bits) {p : Nat} (hp : p < 256) :
    codebufBit (codebufOf bits) p = (bits[p]?).getD false := by
  have hk : p / 32 < 8 := by omega
  have hw : (codebufOf bits)[p / 32]?.getD 0 = codebufWord bits (p / 32) := by simp [codebufOf, hk]
  rw [codebufBit, hw]
  unfold codebufWord
  dsimp only
  rw [getLsbD_bytes (fun j => byteOfBits fun m => (bits[32 * (p / 32) + 8 * j + m]?).getD false)
    (Nat.mod_lt _ (by omega)) (by omega)]
  have := byteBit_byteOfBits (fun m => (bits[32 * (p / 32) + 8 * (p / 8 % 4) + m]?).getD false) p
  rw [byteBit] at this
  rw [this]
  congr 2
  omega

theorem codebufBits_getElem? (cb : Vector Word 8) {n k : Nat} (hk : k < n) :
    (codebufBits cb n)[k]? = some (codebufBit cb k) := by
  simp [codebufBits, hk]

/-! ### Register pairs -/

theorem high32_append_low32 (w : U64) : high32 w ++ low32 w = w := by
  apply BitVec.eq_of_getLsbD_eq
  intro i hi
  rw [BitVec.getLsbD_append, low32, high32, BitVec.getLsbD_setWidth, BitVec.getLsbD_setWidth,
    BitVec.getLsbD_ushiftRight]
  by_cases h : i < 32
  · simp [h]
  · simp [h, show 32 + (i - 32) = i by omega, show i - 32 < 32 by omega]

theorem pos_toNat (x : BitVec 35) : (posLow x).toNat + (posHigh x).toNat * 2 ^ 32 = x.toNat := by
  have hx := x.isLt
  simp only [posLow, posHigh, BitVec.toNat_setWidth, BitVec.toNat_ushiftRight, Nat.shiftRight_eq_div_pow]
  rw [Nat.mod_eq_of_lt (a := x.toNat / 2 ^ 32) (by omega)]
  omega

/-! ### Payload words -/

/-- A word whose bytes are all written reads as those bytes, the first least significant. -/
theorem memRead_of_bytes (m : Memory) (a n : Nat) (v : Word) (hn : n ≤ 4)
    (h : ∀ i, i < n → m.read (a + i) = some ((v >>> (8 * i)).setWidth 8)) :
    memRead m a n = .ok (BitVec.ofNat 32 (v.toNat % 2 ^ (8 * n))) := by
  induction n generalizing a v with
  | zero => simp [memRead, Nat.mod_one]
  | succ n ih =>
    have h0 := h 0 (by omega)
    have hrest : memRead m (a + 1) n = .ok (BitVec.ofNat 32 ((v >>> 8).toNat % 2 ^ (8 * n))) := by
      refine ih (a + 1) (v >>> 8) (by omega) fun i hi => ?_
      have := h (i + 1) (by omega)
      rw [show a + 1 + i = a + (i + 1) by omega, this, ← BitVec.shiftRight_add]
      congr 3
      omega
    simp only [Nat.add_zero, Nat.mul_zero, BitVec.ushiftRight_zero] at h0
    simp only [memRead, Memory.load_eq_ok.2 h0, hrest]
    congr 1
    apply BitVec.eq_of_toNat_eq
    have hv := v.isLt
    have hlow : (v.setWidth 8).toNat = v.toNat % 2 ^ 8 := BitVec.toNat_setWidth ..
    have hpow : 2 ^ (8 * n) ≤ 2 ^ 24 := Nat.pow_le_pow_right (by omega) (by omega)
    have hq : v.toNat / 2 ^ 8 % 2 ^ (8 * n) < 2 ^ 24 := by
      have := Nat.mod_lt (v.toNat / 2 ^ 8) (Nat.two_pow_pos (8 * n))
      omega
    rw [BitVec.toNat_or, BitVec.toNat_shiftLeft, BitVec.toNat_ofNat, BitVec.toNat_ofNat, BitVec.toNat_setWidth,
      BitVec.toNat_setWidth, BitVec.toNat_ushiftRight, Nat.shiftRight_eq_div_pow]
    rw [Nat.mod_eq_of_lt (a := v.toNat / 2 ^ 8 % 2 ^ (8 * n)) (by omega), Nat.mod_eq_of_lt (a := v.toNat % 2 ^ 8) (by omega)]
    rw [Nat.mod_eq_of_lt (a := (v.toNat / 2 ^ 8 % 2 ^ (8 * n)) <<< 8) (by rw [Nat.shiftLeft_eq]; omega)]
    rw [← Nat.shiftLeft_add_eq_or_of_lt (Nat.mod_lt _ (by omega)), Nat.shiftLeft_eq]
    rw [show 8 * (n + 1) = 8 + 8 * n by omega, Nat.pow_add, Nat.mod_mul]
    rw [Nat.mod_eq_of_lt (a := v.toNat % 2 ^ 8 + 2 ^ 8 * (v.toNat / 2 ^ 8 % 2 ^ (8 * n)))]
    · omega
    · omega

end Sys2Proof.Machine
end

