-- ==== Sys2Proof/Laws/PerInstr.lean ====
section
/-! SUPPORT. One statement per command of the opcode table: its word is a legal spelling by the machine-readable table
(30_encoding.md R77). -/

namespace Sys2Proof.Laws.Encoding

/-- The encoded word of a well-formed command matches the table row of its mnemonic. -/
def Statement (i : Instr) : Prop :=
  i.wellFormed = true → ∃ r ∈ opcodeTable, r.mnemonic = i.mnemonic ∧ encode i &&& r.mask = r.pattern

/-- Row `k` of the table is the command's row. -/
theorem of_row {i : Instr} (k : Nat) (hk : k < opcodeTable.length) (hm : opcodeTable[k].mnemonic = i.mnemonic)
    (h : i.wellFormed = true → encode i &&& opcodeTable[k].mask = opcodeTable[k].pattern) : Statement i :=
  fun hw => ⟨opcodeTable[k], List.getElem_mem _, hm, h hw⟩

theorem nop : Statement (.nop) := of_row 0 (by decide) rfl fun _ => by decide

theorem clearStatus : Statement (.clearStatus) := of_row 1 (by decide) rfl fun _ => by decide

theorem softReset : Statement (.softReset) := of_row 2 (by decide) rfl fun _ => by decide

theorem freqClear : Statement (.freqClear) := of_row 3 (by decide) rfl fun _ => by decide

theorem freqSet (v : Byte) : Statement (.freqSet v) := of_row 4 (by decide) rfl fun _ => by revert v; decide

theorem freqGet (v : Byte) : Statement (.freqGet v) := of_row 5 (by decide) rfl fun _ => by revert v; decide

theorem build : Statement (.build) := of_row 6 (by decide) rfl fun _ => by decide

theorem readNode : Statement (.readNode) := of_row 7 (by decide) rfl fun _ => by decide

theorem genCodes : Statement (.genCodes) := of_row 8 (by decide) rfl fun _ => by decide

theorem getCode (v : Byte) : Statement (.getCode v) := of_row 9 (by decide) rfl fun _ => by revert v; decide

theorem pkReset : Statement (.pkReset) := of_row 10 (by decide) rfl fun _ => by decide

theorem pkAppendBit (b : Byte) : Statement (.pkAppendBit b) :=
  of_row 11 (by decide) rfl (by revert b; decide)

theorem pkAppendBits (n : Byte) : Statement (.pkAppendBits n) := of_row 12 (by decide) rfl fun _ => by revert n; decide

theorem pkEncode (v : Byte) : Statement (.pkEncode v) := of_row 13 (by decide) rfl fun _ => by revert v; decide

theorem pkFinish : Statement (.pkFinish) := of_row 14 (by decide) rfl fun _ => by decide

theorem upStart (k : Byte) : Statement (.upStart k) := of_row 15 (by decide) rfl fun _ => by revert k; decide

theorem upNextBit : Statement (.upNextBit) := of_row 16 (by decide) rfl fun _ => by decide

theorem decClear : Statement (.decClear) := of_row 17 (by decide) rfl fun _ => by decide

theorem decInsert (v : Byte) (n : Byte) : Statement (.decInsert v n) :=
  of_row 18 (by decide) rfl fun _ => by
    have hn : ∀ n : Byte, (0x51000000 ||| n.setWidth 32 <<< 8 : Word) &&& 0xFFFF0000 = 0x51000000 := by decide
    have hv : ∀ v : Byte, (v.setWidth 32 : Word) &&& 0xFFFF0000 = 0 := by decide
    have hor (a b m : Word) : (a ||| b) &&& m = (a &&& m) ||| (b &&& m) := by
      apply BitVec.eq_of_getLsbD_eq
      intro i _
      simp [Bool.and_or_distrib_right]
    exact (hor _ _ _).trans ((congr (congrArg (fun x y : Word => x ||| y) (hn n)) (hv v)).trans (by decide))

theorem decStep : Statement (.decStep) := of_row 19 (by decide) rfl fun _ => by decide

end Sys2Proof.Laws.Encoding
end

