-- ==== Sys2Proof/Laws/Step.lean ====
section
/-! SUPPORT. Every way a step can go: idle, a reset, a command, or an access that runs no command. -/

namespace Sys2Proof.Machine

variable {s t u : State}

/-- A command word runs its command, or ends E_ILLEGAL. -/
theorem runCommand_cases {w : Word} (h : runCommand w s = .next u) :
    (∃ i, decode w = .ok i ∧ exec i { s with cmd := w } = .next u)
    ∨ (∃ e, decode w = .error e) ∧ u = State.failed { s with cmd := w } .eIllegal := by
  unfold runCommand at h
  cases hd : decode w with
  | ok i => rw [hd] at h; exact .inl ⟨i, rfl, h⟩
  | error e => rw [hd] at h; cases h; exact .inr ⟨⟨e, rfl⟩, rfl⟩

theorem answerCommand_next {r : Result} (h : answerCommand r = .next t) :
    ∃ u, r = .next u ∧ t = answerOk none u := by
  cases r with
  | next u => cases h; exact ⟨u, rfl, rfl⟩
  | fault f => cases h
  | refused r => cases h

/-- An access that runs no command: what it may change. -/
structure PlainAccess (s t : State) : Prop where
  rest : t = { s with arg0 := t.arg0, arg1 := t.arg1, cb := t.cb, pay := t.pay, answer := t.answer }
  pay : t.pay = s.pay ∨ ∃ a size v, payAccessOk s.params a size = true ∧ t.pay = memWrite s.pay a size.bytes v

theorem regAt_cmd {offset : Nat} (h : regAt offset = some .cmd) : offset = 0 := by
  by_cases ho : offset = 0
  · exact ho
  · unfold regAt at h
    rw [if_neg ho] at h
    repeat' split at h
    all_goals cases h

theorem serve_cases {a : Transaction} (h : serve a s = .next t) :
    PlainAccess s t
    ∨ ∃ w u, a = .write .reg 0x000 .four w ∧ runCommand w s = .next u ∧ t = answerOk none u := by
  unfold serve at h
  split at h
  · split at h <;> cases h <;> exact .inl ⟨rfl, .inl rfl⟩
  · next offset size w =>
    split at h
    · next r hr =>
      unfold writeReg at h
      split at h
      · obtain ⟨u, hu, ht⟩ := answerCommand_next h
        refine .inr ⟨w, u, ?_, hu, ht⟩
        unfold regOfAccess at hr
        split at hr
        · next hs =>
          rw [regAt_cmd hr, hs]
        · cases hr
      all_goals cases h; exact .inl ⟨rfl, .inl rfl⟩
    · cases h; exact .inl ⟨rfl, .inl rfl⟩
  · split at h
    · split at h
      · cases h; exact .inl ⟨rfl, .inl rfl⟩
      · cases h
    · cases h; exact .inl ⟨rfl, .inl rfl⟩
  · next a size v =>
    split at h
    · next hok => cases h; exact .inl ⟨rfl, .inr ⟨a, size, v, hok, rfl⟩⟩
    · cases h; exact .inl ⟨rfl, .inl rfl⟩

/-- A step: nothing pending and nothing changes; a reset; a command ended and answered; or a plain access. -/
theorem step_cases (h : step s = .next t) :
    (s.pending = [] ∧ t = s)
    ∨ ∃ e rest, s.pending = e :: rest ∧
      ((∃ k c, e = .reset k c ∧ t = resetState k c { s with pending := rest })
      ∨ (∃ w u, e = commandWrite w ∧ runCommand w { s with pending := rest } = .next u ∧ t = answerOk none u)
      ∨ PlainAccess { s with pending := rest } t) := by
  unfold step stepPort at h
  split at h
  · next hp => cases h; exact .inl ⟨hp, rfl⟩
  · next e rest hp =>
    refine .inr ⟨e, rest, hp, ?_⟩
    unfold takeEvent at h
    split at h
    · next a =>
      rcases serve_cases h with hpl | ⟨w, u, ha, hu, ht⟩
      · exact .inr (.inr hpl)
      · exact .inr (.inl ⟨w, u, by rw [ha]; rfl, hu, ht⟩)
    · next k c => cases h; exact .inl ⟨k, c, rfl, rfl⟩

end Sys2Proof.Machine
end

