-- ==== Sys2Proof/Laws/TreeDecoder.lean ====
section
/-! SUPPORT. What DEC_INSERT does to the decoder tree (45_decoder.md R114–R116): how it follows a path, one allocation, one
leaf placed, and that each keeps the shape of the tree (10_state.md R36 item 5). -/

namespace Sys2Proof.Machine

variable {d : Decoder}

/-! ### Walks over internal nodes -/

/-- The node a bit sequence leads to from node `i` over internal nodes only. -/
def Decoder.reach (d : Decoder) : Nat → Bits → Option Nat
  | i, [] => some i
  | i, b :: rest =>
    match d.child i b with
    | .node j => reach d j rest
    | _ => none

theorem reach_append (d : Decoder) (i : Nat) (p q : Bits) :
    d.reach i (p ++ q) = (d.reach i p).bind fun j => d.reach j q := by
  induction p generalizing i with
  | nil => rfl
  | cons b p ih =>
    simp only [List.cons_append, Decoder.reach]
    cases d.child i b with
    | none => rfl
    | leaf v => rfl
    | node j => exact ih j

theorem reach_snoc (d : Decoder) (i : Nat) (p : Bits) (b : Bool) {k : Nat} :
    d.reach i (p ++ [b]) = some k ↔ ∃ j, d.reach i p = some j ∧ d.child j b = .node k := by
  rw [reach_append]
  cases h : d.reach i p with
  | none => simp
  | some j =>
    simp only [Option.bind_some, Decoder.reach, Option.some.injEq, exists_eq_left']
    cases d.child j b <;> simp

/-- A code is a walk over internal nodes and one last bit to a leaf. -/
theorem byteOf_snoc (d : Decoder) (i : Nat) (p : Bits) (b : Bool) {v : Byte} :
    d.byteOf i (p ++ [b]) = some v ↔ ∃ j, d.reach i p = some j ∧ d.child j b = .leaf v := by
  induction p generalizing i with
  | nil =>
    simp only [List.nil_append, Decoder.byteOf, Decoder.reach, Option.some.injEq, exists_eq_left']
    cases d.child i b <;> simp
  | cons x p ih =>
    simp only [List.cons_append, Decoder.byteOf, Decoder.reach]
    cases d.child i x with
    | none => simp
    | leaf w => simp
    | node j => exact ih j

theorem byteOf_nil (d : Decoder) (i : Nat) : d.byteOf i [] = none := rfl

theorem bits_snoc {q : Bits} (h : q ≠ []) : ∃ p b, q = p ++ [b] :=
  ⟨q.dropLast, q.getLast h, (List.dropLast_concat_getLast h).symm⟩

/-- Two decoder trees whose walks and leaves agree hold the same codes. -/
theorem byteOf_congr {d d' : Decoder} {q : Bits} {v : Byte}
    (h : ∀ p b, q = p ++ [b] →
      ((∃ j, d'.reach 0 p = some j ∧ d'.child j b = .leaf v) ↔ ∃ j, d.reach 0 p = some j ∧ d.child j b = .leaf v)) :
    d'.byteOf 0 q = some v ↔ d.byteOf 0 q = some v := by
  by_cases hq : q = []
  · subst hq; simp [byteOf_nil]
  · obtain ⟨p, b, rfl⟩ := bits_snoc hq
    rw [byteOf_snoc, byteOf_snoc]
    exact h p b rfl

/-! ### Following a path -/

/-- Phase 1 of an insert: a LEAF on the way; or the node the existing part of the path reaches, with the bits that have no
node, the first of which leads to NONE. -/
theorem followPath_cases (d : Decoder) (i : Nat) (path : Bits) :
    (followPath d i path = none ∧ ∃ pre b rest v j, path = pre ++ b :: rest ∧ d.reach i pre = some j
        ∧ d.child j b = .leaf v)
    ∨ ∃ pre rest j, followPath d i path = some (j, rest) ∧ path = pre ++ rest ∧ d.reach i pre = some j
        ∧ ∀ b rest', rest = b :: rest' → d.child j b = .none := by
  induction path generalizing i with
  | nil => exact .inr ⟨[], [], i, rfl, rfl, rfl, by simp⟩
  | cons b path ih =>
    simp only [followPath]
    cases hc : d.child i b with
    | none =>
      refine .inr ⟨[], b :: path, i, rfl, rfl, rfl, fun b' r' h => ?_⟩
      cases h
      exact hc
    | leaf v => exact .inl ⟨rfl, [], b, path, v, i, rfl, rfl, hc⟩
    | node j =>
      rcases ih j with ⟨h, pre, b', rest, v, k, h1, h2, h3⟩ | ⟨pre, rest, k, h1, h2, h3, h4⟩
      · refine .inl ⟨h, b :: pre, b', rest, v, k, by rw [h1]; rfl, ?_, h3⟩
        simpa [Decoder.reach, hc] using h2
      · refine .inr ⟨b :: pre, rest, k, h1, by rw [h2]; rfl, ?_, h4⟩
        simpa [Decoder.reach, hc] using h3

/-- The slot and the depth a walk finds, in terms of the nodes it reaches. -/
theorem slotAt_reach {i j : Nat} {pre : Bits} {b : Bool} {rest : Bits} (h : d.reach i pre = some j) :
    d.slotAt i (pre ++ b :: rest) = d.slotAt j (b :: rest) := by
  induction pre generalizing i with
  | nil => cases h; rfl
  | cons x pre ih =>
    simp only [Decoder.reach] at h
    cases hc : d.child i x with
    | none => simp [hc] at h
    | leaf v => simp [hc] at h
    | node k =>
      simp only [hc] at h
      simp only [List.cons_append, Decoder.slotAt, hc]
      rw [if_neg (by simp)]
      exact ih h

theorem depthAlong_reach {i j : Nat} {pre q : Bits} (h : d.reach i pre = some j) :
    d.depthAlong i (pre ++ q) = pre.length + d.depthAlong j q := by
  induction pre generalizing i with
  | nil => cases h; simp
  | cons x pre ih =>
    simp only [Decoder.reach] at h
    cases hc : d.child i x with
    | none => simp [hc] at h
    | leaf v => simp [hc] at h
    | node k =>
      simp only [hc] at h
      simp only [List.cons_append, Decoder.depthAlong, hc, ih h, List.length_cons]
      omega

theorem slotAt_first (d : Decoder) (i : Nat) (b : Bool) (rest : Bits) (h : ∀ j, d.child i b ≠ .node j) :
    d.slotAt i (b :: rest) = d.child i b := by
  unfold Decoder.slotAt
  split
  · next j hj => exact absurd hj (h j)
  · rfl

theorem slotAt_last (d : Decoder) (i : Nat) (b : Bool) : d.slotAt i [b] = d.child i b := by
  simp only [Decoder.slotAt]
  split
  · next j hj => simp [hj]
  · rfl

theorem depthAlong_first (d : Decoder) (i : Nat) (b : Bool) (rest : Bits) (h : ∀ j, d.child i b ≠ .node j) :
    d.depthAlong i (b :: rest) = 0 := by
  unfold Decoder.depthAlong
  split
  · next j hj => exact absurd hj (h j)
  · rfl

/-- What an insert's phase 1 finds about its whole code: its slot is NONE exactly when the insert may go on, and then the
missing nodes are those of its path that the walk does not reach. -/
theorem followPath_code (d : Decoder) (path : Bits) (last : Bool) :
    (followPath d 0 path = none ∧ d.slotAt 0 (path ++ [last]) ≠ .none)
    ∨ ∃ j pre rest, followPath d 0 path = some (j, rest) ∧ path = pre ++ rest ∧ d.reach 0 pre = some j
        ∧ (∀ b rest', rest = b :: rest' → d.child j b = .none)
        ∧ d.slotAt 0 (path ++ [last]) = (if rest = [] then d.child j last else .none)
        ∧ (d.slotAt 0 (path ++ [last]) = .none → path.length - d.depthAlong 0 (path ++ [last]) = rest.length) := by
  rcases followPath_cases d 0 path with ⟨h, pre, b, rest, v, j, h1, h2, h3⟩ | ⟨pre, rest, j, h1, h2, h3, h4⟩
  · refine .inl ⟨h, ?_⟩
    rw [h1, List.append_assoc, List.cons_append, slotAt_reach h2, slotAt_first d j b _ (by simp [h3]), h3]
    simp
  · refine .inr ⟨j, pre, rest, h1, h2, h3, h4, ?_, ?_⟩
    · rw [h2, List.append_assoc]
      cases rest with
      | nil => rw [List.nil_append, slotAt_reach h3, slotAt_last]; simp
      | cons b rest =>
        have := h4 b rest rfl
        rw [List.cons_append, slotAt_reach h3, slotAt_first d j b _ (by simp [this]), this]
        simp
    · intro hn
      rw [h2, List.append_assoc, depthAlong_reach h3]
      cases rest with
      | nil =>
        rw [h2, List.append_assoc, List.nil_append, slotAt_reach h3, slotAt_last] at hn
        rw [List.nil_append, depthAlong_first d j last _ (by simp [hn])]
        simp
      | cons b rest =>
        have := h4 b rest rfl
        rw [List.cons_append, depthAlong_first d j b _ (by simp [this])]
        simp

/-! ### The shape of the tree -/

/-- R36 item 5's shape: a node's children have greater indices in use, no two slots lead to one node, and every node in
use but the root has a slot that leads to it. -/
structure Decoder.Shaped (d : Decoder) : Prop where
  pos : 1 ≤ d.dnCount
  up : ∀ i b j, i < d.dnCount → d.child i b = .node j → i < j ∧ j < d.dnCount
  once : ∀ i b i' b' j, i < d.dnCount → i' < d.dnCount → d.child i b = .node j → d.child i' b' = .node j → i = i' ∧ b = b'

theorem Decoder.Shaped.reach_lt (h : d.Shaped) {i j : Nat} {p : Bits} (hi : i < d.dnCount) (hr : d.reach i p = some j) :
    j < d.dnCount := by
  induction p generalizing i with
  | nil => cases hr; exact hi
  | cons b p ih =>
    simp only [Decoder.reach] at hr
    cases hc : d.child i b with
    | none => simp [hc] at hr
    | leaf v => simp [hc] at hr
    | node k =>
      simp only [hc] at hr
      exact ih (h.up i b k hi hc).2 hr

theorem Decoder.Shaped.reach_le (h : d.Shaped) {i j : Nat} {p : Bits} (hi : i < d.dnCount) (hr : d.reach i p = some j) :
    i + p.length ≤ j := by
  induction p generalizing i with
  | nil => cases hr; simp
  | cons b p ih =>
    simp only [Decoder.reach] at hr
    cases hc : d.child i b with
    | none => simp [hc] at hr
    | leaf v => simp [hc] at hr
    | node k =>
      simp only [hc] at hr
      have hk := h.up i b k hi hc
      have := ih hk.2 hr
      simp only [List.length_cons]
      omega

/-- Only one walk from the root reaches a node. -/
theorem Decoder.Shaped.reach_unique (h : d.Shaped) {j : Nat} {p p' : Bits} (hp : d.reach 0 p = some j)
    (hp' : d.reach 0 p' = some j) : p = p' := by
  have h0 : 0 < d.dnCount := h.pos
  induction j using Nat.strongRecOn generalizing p p' with
  | ind j ih =>
    by_cases hn : p = [] <;> by_cases hn' : p' = []
    · rw [hn, hn']
    · subst hn
      cases hp
      have := h.reach_le h0 hp'
      have := List.length_pos_iff.2 hn'
      omega
    · subst hn'
      cases hp'
      have := h.reach_le h0 hp
      have := List.length_pos_iff.2 hn
      omega
    · obtain ⟨q, b, rfl⟩ := bits_snoc hn
      obtain ⟨q', b', rfl⟩ := bits_snoc hn'
      obtain ⟨k, hk, hc⟩ := (reach_snoc d 0 q b).1 hp
      obtain ⟨k', hk', hc'⟩ := (reach_snoc d 0 q' b').1 hp'
      have hkl := h.reach_lt h0 hk
      obtain ⟨rfl, rfl⟩ := h.once k b k' b' j hkl (h.reach_lt h0 hk') hc hc'
      rw [ih k (h.up k b j hkl hc).1 hk hk']

/-! ### One allocation -/

/-- Phase 2's turn: node `dnCount` allocated empty and linked from slot `b` of node `i`. -/
def Decoder.link (d : Decoder) (i : Nat) (b : Bool) : Decoder :=
  ({ d.setNode d.dnCount DNode.empty with dnCount := d.dnCount + 1 } : Decoder).setChild i b (.node d.dnCount)

theorem extendPath_cons (d : Decoder) (i : Nat) (b : Bool) (rest : Bits) :
    extendPath d i (b :: rest) = extendPath (d.link i b) d.dnCount rest := rfl

@[simp] theorem link_dnCount (d : Decoder) (i : Nat) (b : Bool) : (d.link i b).dnCount = d.dnCount + 1 := rfl
@[simp] theorem link_seen (d : Decoder) (i : Nat) (b : Bool) : (d.link i b).seen = d.seen := rfl
@[simp] theorem link_nEnt (d : Decoder) (i : Nat) (b : Bool) : (d.link i b).nEnt = d.nEnt := rfl

theorem child_empty (b : Bool) : DNode.empty.child b = .none := by cases b <;> rfl

theorem link_child (d : Decoder) {i : Nat} (b : Bool) (hi : i < d.dnCount) (j : Nat) (b' : Bool) :
    (d.link i b).child j b' =
      if j = i ∧ b' = b then .node d.dnCount else if j = d.dnCount then .none else d.child j b' := by
  rw [Decoder.link, Decoder.child_setChild]
  split
  · rfl
  · split
    · next hj =>
      subst hj
      exact (congrArg (fun n => DNode.child n b') (Decoder.nodeAt_setNode_same d d.dnCount DNode.empty)).trans
        (child_empty b')
    · next hj =>
      exact congrArg (fun n => DNode.child n b') (Decoder.nodeAt_setNode_other d d.dnCount j DNode.empty hj)

theorem Decoder.Shaped.link (h : d.Shaped) {i : Nat} {b : Bool} (hi : i < d.dnCount) :
    (d.link i b).Shaped where
  pos := by simp
  up i' b' j hi' hc := by
    rw [link_child d b hi] at hc
    rw [link_dnCount] at hi' ⊢
    split at hc
    · next hs => cases hc; omega
    · split at hc
      · cases hc
      · next hne =>
        have := h.up i' b' j (by omega) hc
        omega
  once i1 b1 i2 b2 j h1 h2 c1 c2 := by
    rw [link_child d b hi] at c1 c2
    rw [link_dnCount] at h1 h2
    split at c1 <;> split at c2
    · next s1 s2 => exact ⟨s1.1.trans s2.1.symm, s1.2.trans s2.2.symm⟩
    · split at c2
      · cases c2
      · next hne =>
        cases c1
        have := (h.up i2 b2 _ (by omega) c2).2
        omega
    · split at c1
      · cases c1
      · next hne =>
        cases c2
        have := (h.up i1 b1 _ (by omega) c1).2
        omega
    · split at c1
      · cases c1
      · split at c2
        · cases c2
        · exact h.once i1 b1 i2 b2 j (by omega) (by omega) c1 c2

/-- Walks to the old nodes are as before. -/
theorem link_reach (h : d.Shaped) {i : Nat} {b : Bool} (hi : i < d.dnCount) (hn : d.child i b = .none) (p : Bits) {j : Nat}
    (hj : j < d.dnCount) : (d.link i b).reach 0 p = some j ↔ d.reach 0 p = some j := by
  have h0 : 0 < d.dnCount := h.pos
  have h' := h.link (b := b) hi
  by_cases hp : p = []
  · subst hp; rfl
  · obtain ⟨q, x, rfl⟩ := bits_snoc hp
    induction j using Nat.strongRecOn generalizing q x with
    | ind j ih =>
      have ih' {k : Nat} (hk : k < j) (hkl : k < d.dnCount) (q : Bits) :
          (d.link i b).reach 0 q = some k ↔ d.reach 0 q = some k := by
        by_cases hq : q = []
        · subst hq; rfl
        · obtain ⟨q', y, rfl⟩ := bits_snoc hq
          exact ih k hk hkl q' y (by simp)
      rw [reach_snoc, reach_snoc]
      constructor
      · rintro ⟨k, hk, hc⟩
        have hkl : k < d.dnCount + 1 := h'.reach_lt (Nat.succ_pos _) hk
        have hup := (h'.up k x j hkl hc).1
        rw [link_child d b hi] at hc
        split at hc
        · cases hc; omega
        · split at hc
          · cases hc
          · exact ⟨k, (ih' hup (by omega) q).1 hk, hc⟩
      · rintro ⟨k, hk, hc⟩
        have hkl := h.reach_lt h0 hk
        have hup := (h.up k x j hkl hc).1
        refine ⟨k, (ih' hup hkl q).2 hk, ?_⟩
        rw [link_child d b hi, if_neg, if_neg (by omega)]
        · exact hc
        · rintro ⟨rfl, rfl⟩
          rw [hn] at hc
          cases hc

/-- An allocation adds and removes no code. -/
theorem link_byteOf (h : d.Shaped) {i : Nat} {b : Bool} (hi : i < d.dnCount) (hn : d.child i b = .none) (q : Bits)
    (v : Byte) : (d.link i b).byteOf 0 q = some v ↔ d.byteOf 0 q = some v := by
  have h0 : 0 < d.dnCount := h.pos
  have h' := h.link (b := b) hi
  refine byteOf_congr fun p x _ => ⟨?_, ?_⟩
  · rintro ⟨k, hk, hc⟩
    have hkl : k < d.dnCount + 1 := h'.reach_lt (Nat.succ_pos _) hk
    rw [link_child d b hi] at hc
    split at hc
    · cases hc
    · split at hc
      · cases hc
      · exact ⟨k, (link_reach h hi hn p (by omega)).1 hk, hc⟩
  · rintro ⟨k, hk, hc⟩
    have hkl := h.reach_lt h0 hk
    refine ⟨k, (link_reach h hi hn p hkl).2 hk, ?_⟩
    rw [link_child d b hi, if_neg, if_neg (by omega)]
    · exact hc
    · rintro ⟨rfl, rfl⟩
      rw [hn] at hc
      cases hc

/-- The new node is reached by its parent's walk and the linked bit. -/
theorem link_reach_new (h : d.Shaped) {i : Nat} {b : Bool} {p : Bits} (hn : d.child i b = .none)
    (hr : d.reach 0 p = some i) : (d.link i b).reach 0 (p ++ [b]) = some d.dnCount := by
  have hi := h.reach_lt h.pos hr
  exact (reach_snoc _ 0 p b).2 ⟨i, (link_reach h hi hn p hi).2 hr, by rw [link_child d b hi, if_pos ⟨rfl, rfl⟩]⟩

/-- All of phase 2: the missing nodes are allocated in order, the path leads to the last one, whose slots are NONE if it is
new, and no code is added or removed. -/
theorem extendPath_spec (h : d.Shaped) {i : Nat} {p rest : Bits} (hr : d.reach 0 p = some i)
    (hn : ∀ b rest', rest = b :: rest' → d.child i b = .none) :
    let r := extendPath d i rest
    r.1.Shaped ∧ r.1.dnCount = d.dnCount + rest.length ∧ r.1.seen = d.seen ∧ r.1.nEnt = d.nEnt
      ∧ r.1.reach 0 (p ++ rest) = some r.2
      ∧ (∀ b, rest ≠ [] → r.1.child r.2 b = .none) ∧ (rest = [] → r = (d, i))
      ∧ ∀ q v, r.1.byteOf 0 q = some v ↔ d.byteOf 0 q = some v := by
  induction rest generalizing d i p with
  | nil => exact ⟨h, rfl, rfl, rfl, by simpa [extendPath] using hr, by simp, fun _ => rfl, fun _ _ => Iff.rfl⟩
  | cons b rest ih =>
    have hi := h.reach_lt h.pos hr
    have hb := hn b rest rfl
    have hnew (x : Bool) : (d.link i b).child d.dnCount x = .none := by
      rw [link_child d b hi, if_neg (by omega), if_pos rfl]
    obtain ⟨h1, h2, h3, h4, h5, h6, h7, h8⟩ := ih (h.link (b := b) hi) (link_reach_new h hb hr) fun x _ _ => hnew x
    rw [extendPath_cons]
    refine ⟨h1, ?_, h3, h4, ?_, fun x _ => ?_, by simp, fun q v => (h8 q v).trans (link_byteOf h hi hb q v)⟩
    · rw [h2, link_dnCount, List.length_cons]; omega
    · rw [← h5, List.append_assoc]; rfl
    · by_cases hre : rest = []
      · rw [h7 hre]; exact hnew x
      · exact h6 x hre

/-! ### One leaf placed -/

theorem leaf_reach {i : Nat} {b : Bool} {v : Byte} (hn : d.child i b = .none) (a : Nat) (p : Bits) :
    (d.setChild i b (.leaf v)).reach a p = d.reach a p := by
  induction p generalizing a with
  | nil => rfl
  | cons x p ih =>
    simp only [Decoder.reach]
    by_cases hs : a = i ∧ x = b
    · rw [Decoder.child_setChild, if_pos hs, hs.1, hs.2, hn]
    · rw [Decoder.child_setChild, if_neg hs]
      cases d.child a x with
      | none => rfl
      | leaf w => rfl
      | node j => exact ih j

theorem Decoder.Shaped.leaf (h : d.Shaped) {i : Nat} {b : Bool} {v : Byte} : (d.setChild i b (.leaf v)).Shaped where
  pos := h.pos
  up i' b' j hi' hc := by
    rw [Decoder.child_setChild] at hc
    split at hc
    · cases hc
    · exact h.up i' b' j hi' hc
  once i1 b1 i2 b2 j h1 h2 c1 c2 := by
    rw [Decoder.child_setChild] at c1 c2
    split at c1 <;> split at c2
    · cases c1
    · cases c1
    · cases c2
    · exact h.once i1 b1 i2 b2 j h1 h2 c1 c2

/-- Placing a leaf in a slot that was NONE adds exactly the code of its walk. -/
theorem leaf_byteOf (h : d.Shaped) {i : Nat} {b : Bool} {v : Byte} {p : Bits} (hn : d.child i b = .none)
    (hr : d.reach 0 p = some i) :
    (d.setChild i b (.leaf v)).byteOf 0 (p ++ [b]) = some v
      ∧ ∀ q w, q ≠ p ++ [b] → ((d.setChild i b (.leaf v)).byteOf 0 q = some w ↔ d.byteOf 0 q = some w) := by
  constructor
  · exact (byteOf_snoc _ 0 p b).2 ⟨i, by rw [leaf_reach hn]; exact hr, by rw [Decoder.child_setChild, if_pos ⟨rfl, rfl⟩]⟩
  · intro q w hq
    refine byteOf_congr fun p' x hpx => ?_
    simp only [leaf_reach hn]
    refine exists_congr fun j => and_congr_right fun hj => ?_
    rw [Decoder.child_setChild, if_neg]
    rintro ⟨rfl, rfl⟩
    exact hq (hpx.trans (by rw [h.reach_unique hj hr]))

/-! ### Counting slots -/

/-- How many child slots of the nodes in use hold a value that satisfies `P`. -/
def Decoder.slotCount (d : Decoder) (P : DChild → Bool) : Nat := (d.slots.filter fun x => P x.2).length

theorem mem_slots (d : Decoder) (i : Nat) (c : DChild) : (i, c) ∈ d.slots ↔ i < d.dnCount ∧ ∃ b, d.child i b = c := by
  simp only [Decoder.slots, List.mem_flatMap, List.mem_range, List.mem_cons, Prod.mk.injEq, List.not_mem_nil, or_false]
  constructor
  · rintro ⟨a, ha, ⟨rfl, rfl⟩ | ⟨rfl, rfl⟩⟩
    · exact ⟨ha, false, rfl⟩
    · exact ⟨ha, true, rfl⟩
  · rintro ⟨hi, b, rfl⟩
    cases b
    · exact ⟨i, hi, .inl ⟨rfl, rfl⟩⟩
    · exact ⟨i, hi, .inr ⟨rfl, rfl⟩⟩

theorem slotCount_eq (d : Decoder) (P : DChild → Bool) :
    d.slotCount P = ((List.range d.dnCount).map fun i => (P (d.child i false)).toNat + (P (d.child i true)).toNat).sum := by
  unfold Decoder.slotCount Decoder.slots
  induction List.range d.dnCount with
  | nil => rfl
  | cons i l ih =>
    rw [List.flatMap_cons, List.filter_append, List.length_append, ih, List.map_cons, List.sum_cons]
    congr 1
    cases h1 : P (d.child i false) <;> cases h2 : P (d.child i true) <;> simp [h1, h2]

theorem sum_range_update {f g : Nat → Nat} {i n k : Nat} (hi : i < n) (hne : ∀ j, j ≠ i → g j = f j)
    (hi' : g i = f i + k) : ((List.range n).map g).sum = ((List.range n).map f).sum + k := by
  induction n with
  | zero => omega
  | succ n ih =>
    simp only [List.range_succ, List.map_append, List.sum_append_nat, List.map_cons, List.map_nil, List.sum_cons,
      List.sum_nil]
    by_cases hin : i = n
    · subst hin
      have : (List.range i).map g = (List.range i).map f :=
        List.map_congr_left fun j hj => hne j (by have := List.mem_range.1 hj; omega)
      rw [this, hi']
      omega
    · rw [ih (by omega), hne n (by omega)]
      omega

/-- A slot written where nothing counted: the count grows by the new value. -/
theorem setChild_slotCount (d : Decoder) {P : DChild → Bool} {i : Nat} {b : Bool} {c : DChild} (hi : i < d.dnCount)
    (hP : P (d.child i b) = false) : (d.setChild i b c).slotCount P = d.slotCount P + (P c).toNat := by
  rw [slotCount_eq, slotCount_eq, Decoder.setChild_dnCount]
  refine sum_range_update hi (fun j hj => ?_) ?_
  · simp [Decoder.child_setChild, hj]
  · cases b <;> simp [Decoder.child_setChild, hP] <;> omega

/-- An allocation adds one slot that leads to the new node. -/
theorem link_slotCount (d : Decoder) {P : DChild → Bool} {i : Nat} {b : Bool} (hi : i < d.dnCount)
    (hn : d.child i b = .none) (hP : P .none = false) :
    (d.link i b).slotCount P = d.slotCount P + (P (.node d.dnCount)).toNat := by
  have hchild (j : Nat) (x : Bool) :
      ({ d.setNode d.dnCount DNode.empty with dnCount := d.dnCount + 1 } : Decoder).child j x
        = if j = d.dnCount then .none else d.child j x := by
    split
    · next hj =>
      subst hj
      exact (congrArg (fun n => DNode.child n x) (Decoder.nodeAt_setNode_same d d.dnCount DNode.empty)).trans
        (child_empty x)
    · next hj =>
      exact congrArg (fun n => DNode.child n x) (Decoder.nodeAt_setNode_other d d.dnCount j DNode.empty hj)
  rw [Decoder.link, setChild_slotCount _ (show i < d.dnCount + 1 by omega)
    (by rw [hchild, if_neg (by omega), hn]; exact hP)]
  congr 1
  rw [slotCount_eq, slotCount_eq]
  simp only [List.range_succ, List.map_append, List.sum_append_nat, List.map_cons, List.map_nil, List.sum_cons,
    List.sum_nil, hchild, if_true, hP]
  have : ((List.range d.dnCount).map fun j => (P (if j = d.dnCount then .none else d.child j false)).toNat
        + (P (if j = d.dnCount then .none else d.child j true)).toNat)
      = (List.range d.dnCount).map fun j => (P (d.child j false)).toNat + (P (d.child j true)).toNat :=
    List.map_congr_left fun j hj => by
      have := List.mem_range.1 hj
      rw [if_neg (by omega), if_neg (by omega)]
  rw [this]
  rfl

/-! ### The codes of a decoder depend on DN alone, and are prefix-free -/

theorem child_of_dn_eq {d d' : Decoder} (h : d'.dn = d.dn) (i : Nat) (b : Bool) : d'.child i b = d.child i b := by
  simp only [Decoder.child, Decoder.nodeAt, h]

theorem byteOf_of_dn_eq {d d' : Decoder} (h : d'.dn = d.dn) (i : Nat) (q : Bits) : d'.byteOf i q = d.byteOf i q := by
  induction q generalizing i with
  | nil => rfl
  | cons b q ih => simp only [Decoder.byteOf, child_of_dn_eq h, ih]

theorem byteOf_prefix_free (d : Decoder) {i : Nat} {p q : Bits} {v w : Byte} (hp : d.byteOf i p = some v)
    (hq : d.byteOf i q = some w) (hpq : p <+: q) : p = q := by
  obtain ⟨r, rfl⟩ := hpq
  have hne : p ≠ [] := by rintro rfl; simp [byteOf_nil] at hp
  obtain ⟨p', b, rfl⟩ := bits_snoc hne
  obtain ⟨j, h1, h2⟩ := (byteOf_snoc _ _ _ _).1 hp
  by_cases hr : r = []
  · simp [hr]
  · exfalso
    obtain ⟨r', x, rfl⟩ := bits_snoc hr
    rw [← List.append_assoc] at hq
    obtain ⟨j', h1', -⟩ := (byteOf_snoc _ _ _ _).1 hq
    rw [reach_append] at h1'
    cases hz : d.reach i (p' ++ [b]) with
    | none => simp [hz] at h1'
    | some m =>
      obtain ⟨m', hm, hmc⟩ := (reach_snoc _ _ _ _).1 hz
      rw [h1] at hm
      cases hm
      rw [h2] at hmc
      cases hmc

/-! ### What phase 2 keeps -/

theorem extendPath_form (hf : KeysRise d.dn) (hf' : ∀ e ∈ d.dn, e.2 ≠ DNode.empty) (i : Nat) (rest : Bits) :
    KeysRise (extendPath d i rest).1.dn ∧ ∀ e ∈ (extendPath d i rest).1.dn, e.2 ≠ DNode.empty := by
  induction rest generalizing d i with
  | nil => exact ⟨hf, hf'⟩
  | cons b rest ih =>
    rw [extendPath_cons]
    have h1 := Decoder.setNode_form hf hf' d.dnCount DNode.empty
    let e : Decoder := { d.setNode d.dnCount DNode.empty with dnCount := d.dnCount + 1 }
    have h2 := Decoder.setNode_form (d := e) h1.1 h1.2 i ((e.nodeAt i).setChild b (.node d.dnCount))
    exact ih h2.1 h2.2 _

/-- The leaf slots are as before, each new node has one slot that leads to it, and the last node is in use. -/
theorem extendPath_slotCount (h : d.Shaped) {i : Nat} {rest : Bits} (hi : i < d.dnCount)
    (hn : ∀ b rest', rest = b :: rest' → d.child i b = .none) :
    let r := extendPath d i rest
    (∀ v, r.1.slotCount (fun c => decide (c = .leaf v)) = d.slotCount (fun c => decide (c = .leaf v)))
    ∧ ((∀ j, 1 ≤ j → j < d.dnCount → d.slotCount (fun c => decide (c = .node j)) = 1) →
        ∀ j, 1 ≤ j → j < r.1.dnCount → r.1.slotCount (fun c => decide (c = .node j)) = 1)
    ∧ r.2 < r.1.dnCount := by
  induction rest generalizing d i with
  | nil => exact ⟨fun _ => rfl, fun h => h, hi⟩
  | cons b rest ih =>
    have hb := hn b rest rfl
    have hnew (x : Bool) : (d.link i b).child d.dnCount x = .none := by
      rw [link_child d b hi, if_neg (by omega), if_pos rfl]
    obtain ⟨h1, h2, h3⟩ := ih (h.link (b := b) hi) (show d.dnCount < d.dnCount + 1 by omega) fun x _ _ => hnew x
    rw [extendPath_cons]
    refine ⟨fun v => ?_, fun h' => h2 fun j hj1 hj2 => ?_, h3⟩
    · rw [h1, link_slotCount d hi hb (by simp)]; simp
    · rw [link_slotCount d hi hb (by simp)]
      by_cases hj : j = d.dnCount
      · subst hj
        have : d.slotCount (fun c => decide (c = .node d.dnCount)) = 0 := by
          unfold Decoder.slotCount
          rw [List.length_eq_zero_iff, List.filter_eq_nil_iff]
          rintro ⟨k, c⟩ hm
          obtain ⟨hk, x, hc⟩ := (mem_slots d k c).1 hm
          simp only [decide_eq_true_eq]
          rintro rfl
          have := (h.up k x _ hk hc).2
          omega
        simp [this]
      · rw [h' j hj1 (by simp only [link_dnCount] at hj2; omega)]
        simp [Ne.symm hj]

/-! ### From R36 item 5 to the shape -/

/-- A slot that leads to a node, emptied: the count of such slots falls by one. -/
theorem slotCount_erase (d : Decoder) {i j : Nat} {b : Bool} (hi : i < d.dnCount) (hc : d.child i b = .node j) :
    d.slotCount (fun c => decide (c = .node j))
      = (d.setChild i b .none).slotCount (fun c => decide (c = .node j)) + 1 := by
  have := setChild_slotCount (d.setChild i b .none) (P := fun c => decide (c = .node j)) (i := i) (b := b)
    (c := .node j) hi (by simp [Decoder.child_setChild])
  simp only [decide_true, Bool.toNat_true] at this
  rw [← this, slotCount_eq, slotCount_eq]
  refine congrArg List.sum (List.map_congr_left fun k _ => ?_)
  simp only [Decoder.child_setChild]
  cases b <;> by_cases hk : k = i <;> simp [hk, hc]

theorem DecoderInv.shaped {s : State} (h : DecoderInv s) : s.decoder.Shaped := by
  obtain ⟨h1, -, -, -, h5, h6, -⟩ := h
  refine ⟨h1, fun i b j hi hc => h5 i j ((mem_slots _ _ _).2 ⟨hi, b, hc⟩), fun i b i' b' j hi hi' hc hc' => ?_⟩
  have hj := h5 i j ((mem_slots _ _ _).2 ⟨hi, b, hc⟩)
  have h0 : s.decoder.slotCount (fun c => decide (c = .node j)) = 1 := h6 j (by omega) hj.2
  by_cases he : i = i' ∧ b = b'
  · exact he
  · exfalso
    have a1 := slotCount_erase s.decoder hi hc
    have a2 := slotCount_erase (s.decoder.setChild i b .none) (i := i') (b := b') (j := j) hi'
      (by rw [Decoder.child_setChild, if_neg fun hx => he ⟨hx.1.symm, hx.2.symm⟩]; exact hc')
    omega

/-! ### Code operands -/

theorem codebufBits_length (cb : Vector Word 8) (n : Nat) : (codebufBits cb n).length = n := by
  simp [codebufBits]

theorem codebufBits_snoc (cb : Vector Word 8) {n : Byte} (hn : n ≠ 0) :
    ∃ path last, codebufBits cb n.toNat = path ++ [last] ∧ path.length = n.toNat - 1 := by
  have hpos : n.toNat ≠ 0 := fun h => hn (BitVec.eq_of_toNat_eq (by simpa using h))
  have hl := codebufBits_length cb n.toNat
  obtain ⟨p, b, hp⟩ := bits_snoc (q := codebufBits cb n.toNat) (by intro h; rw [h] at hl; exact hpos hl.symm)
  refine ⟨p, b, hp, ?_⟩
  rw [hp, List.length_append, List.length_singleton] at hl
  omega

end Sys2Proof.Machine
end

