-- ==== Sys2Proof/Machine/Container.lean ====
section
/-! DEFINITION. The host software of 47_host_container.md: the container, its parse checks and the procedures that drive
HTB. It is outside the block (00_scope.md R6): nothing here is State, and everything it does to HTB is a port event. -/

namespace Sys2Proof.Machine

/-- The error kinds R132 maps onto, and how a run can end besides. -/
inductive HostError where
  /-- "not an error — a defined terminal case". -/
  | emptyInput
  /-- An "explicit state", not a failure. -/
  | endOfData
  | formatError
  | unsupportedSize
  /-- E_ILLEGAL, E_SEQUENCE, E_BAD_ARGS, E_NO_CODE, a bus error: a defect of the host software. -/
  | hostDefect
  /-- The block stopped with a model fault (60_exceptions.md R144). -/
  | modelFault (f : Fault)
  | refused (r : Refusal)
deriving DecidableEq, Repr

/-- R132's table. BUILD alone ends EMPTY and only DEC_STEP and UP_NEXT_BIT end END (60_exceptions.md R136), so the outcome
alone selects the row; OK has none. -/
def CmdOutcome.hostError : CmdOutcome → Option HostError
  | .ok => none
  | .empty => some .emptyInput
  | .endOfData => some .endOfData
  | .eDuplicate | .ePrefix | .eTruncated | .eNoChild | .eBadLength => some .formatError
  | .ePayloadFull | .eNodeFull | .eOverflow => some .unsupportedSize
  | .eIllegal | .eSequence | .eBadArgs | .eNoCode => some .hostDefect

/-- R132's row for the port's answer: a bus error. -/
def Answer.hostError : Answer → Option HostError
  | .busError => some .hostDefect
  | .ok _ | .abandoned => none

/-- Whether a host that meets this kind stops (R132): EmptyInput and the end of data are states, not failures. -/
def HostError.isFailure : HostError → Bool
  | .emptyInput | .endOfData => false
  | .formatError | .unsupportedSize | .hostDefect | .modelFault _ | .refused _ => true

/-! ### The container (R124–R128) -/

structure ContainerEntry where
  value : Byte
  code : Bits
deriving DecidableEq, Repr

/-- A container with entries; the empty container has no more fields (R128). -/
structure Container where
  entries : List ContainerEntry
  validBits : Byte
  payload : List Byte
deriving DecidableEq, Repr

/-- A 4-byte integer, least significant byte first (R125). -/
def int32Bytes (x : Word) : List Byte :=
  [x.extractLsb' 0 8, x.extractLsb' 8 8, x.extractLsb' 16 8, x.extractLsb' 24 8]

/-- One ASCII character per bit (R126). -/
def bitChar (b : Bool) : Byte := if b then 0x31 else 0x30

def ContainerEntry.bytes (e : ContainerEntry) : List Byte :=
  e.value :: int32Bytes (BitVec.ofNat 32 e.code.length) ++ e.code.map bitChar

/-- The container's bytes (R124, R128). -/
def Container.bytes (c : Container) : List Byte :=
  if c.entries = [] then int32Bytes 0
  else
    int32Bytes (BitVec.ofNat 32 c.entries.length) ++ c.entries.flatMap ContainerEntry.bytes
      ++ [c.validBits] ++ c.payload

/-! ### The parse checks (R130) -/

/-- A 4-byte integer, two's complement, and the bytes after it; a file that ends inside it is a FormatError. -/
def readInt32 : List Byte → Except HostError (Int × List Byte)
  | a :: b :: c :: d :: rest => .ok ((d ++ c ++ b ++ a : Word).toInt, rest)
  | _ => .error .formatError

/-- `n` codeBits characters. -/
def readCodeBits : Nat → List Byte → Except HostError (Bits × List Byte)
  | 0, rest => .ok ([], rest)
  | _ + 1, [] => .error .formatError
  | n + 1, c :: rest =>
    if c ≠ 0x30 ∧ c ≠ 0x31 then .error .formatError
    else
      match readCodeBits n rest with
      | .error e => .error e
      | .ok (bits, after) => .ok ((c = 0x31) :: bits, after)

/-- `n` entries. -/
def readEntries : Nat → List Byte → Except HostError (List ContainerEntry × List Byte)
  | 0, rest => .ok ([], rest)
  | _ + 1, [] => .error .formatError
  | n + 1, v :: rest =>
    match readInt32 rest with
    | .error e => .error e
    | .ok (len, afterLen) =>
      if len ≤ 0 ∨ 255 < len then .error .formatError
      else
        match readCodeBits len.toNat afterLen with
        | .error e => .error e
        | .ok (code, afterCode) =>
          match readEntries n afterCode with
          | .error e => .error e
          | .ok (entries, after) => .ok (⟨v, code⟩ :: entries, after)

/-- The host's parse of a container for a block with `payBytes` bytes of PAY (R130). Bytes after an empty container are
ignored (R128). -/
def parseContainer (payBytes : Nat) (file : List Byte) : Except HostError Container :=
  match readInt32 file with
  | .error e => .error e
  | .ok (count, rest) =>
    if count < 0 ∨ 256 < count then .error .formatError
    else if count = 0 then .ok ⟨[], 8, []⟩
    else
      match readEntries count.toNat rest with
      | .error e => .error e
      | .ok (_, []) => .error .formatError
      | .ok (entries, k :: payload) =>
        if k.toNat < 1 ∨ 8 < k.toNat then .error .formatError
        else if payBytes < payload.length then .error .unsupportedSize
        else .ok ⟨entries, k, payload⟩

/-! ### The procedures (R129, R131) -/

/-- One event; a bus error is a defect of the host (R132). -/
def issue (e : PortEvent) (s : State) : Except HostError State :=
  match takeEvent e s with
  | .next t =>
    match t.answer.bind Answer.hostError with
    | some e => .error e
    | none => .ok t
  | .fault f => .error (.modelFault f)
  | .refused r => .error (.refused r)

/-- Events in order. -/
def issueAll (es : List PortEvent) (s : State) : Except HostError State := es.foldlM (fun t e => issue e t) s

/-- Events whose last is a command, and the check of its outcome: a failure of R132 ends the procedure. -/
def issueChecked (es : List PortEvent) (s : State) : Except HostError State := do
  let t ← issueAll es s
  match t.lastRes.hostError with
  | some e => if e.isFailure then .error e else .ok t
  | none => .ok t

/-- The bytes PAY[a .. a+n−1], read through the payload aperture. -/
def readPayload : Nat → Nat → State → Except HostError (List Byte × State)
  | _, 0, s => .ok ([], s)
  | a, n + 1, s => do
    let t ← issue (scriptRB a) s
    let b : Byte :=
      match t.answer with
      | some (.ok (some w)) => w.setWidth 8
      | _ => 0
    let (rest, u) ← readPayload (a + 1) n t
    return (b :: rest, u)

/-- Step 3 of R129: the code of each byte value that has one, ascending. -/
def readCodes : List Byte → State → Except HostError (List ContainerEntry × State)
  | [], s => .ok ([], s)
  | v :: rest, s => do
    let t ← issueChecked [scriptC (.getCode v)] s
    let (entries, u) ← readCodes rest t
    if t.res0 = 0 then return (entries, u)
    else return (⟨v, codebufBits t.cb t.res0.toNat⟩ :: entries, u)

/-- Every byte value, ascending. -/
def allBytes : List Byte := (List.range 256).map (BitVec.ofNat 8)

/-- The compress procedure (R129): the container's bytes, and HTB after it. -/
def compress (input : List Byte) (s : State) : Except HostError (List Byte × State) := do
  let distinct := allBytes.filter fun v => input.contains v
  let s ← issueChecked [scriptC .freqClear] s
  let s ← distinct.foldlM (fun t v => issueChecked (scriptSetFreq v (BitVec.ofNat 64 (input.count v))) t) s
  let s ← issueChecked [scriptC .build] s
  if s.lastRes.hostError = some .emptyInput then return (int32Bytes 0, s)
  let s ← issueChecked [scriptC .genCodes] s
  let (entries, s) ← readCodes allBytes s
  let s ← issueChecked [scriptC .pkReset] s
  let s ← input.foldlM (fun t v => issueChecked [scriptC (.pkEncode v)] t) s
  let s ← issueChecked [scriptC .pkFinish] s
  let k := s.res1.setWidth 8
  let (payload, s) ← readPayload 0 s.res0.toNat s
  return (Container.bytes ⟨entries, k, payload⟩, s)

/-- Step 4 of R131: DEC_STEP until it ends with something other than OK. At most T of them end OK
(45_decoder.md R118), which `fuel` bounds. -/
def decodeAll : Nat → State → Except HostError (List Byte × State)
  | 0, s => .ok ([], s)
  | fuel + 1, s => do
    let t ← issueChecked [scriptC .decStep] s
    if t.lastRes.hostError = some .endOfData then return ([], t)
    let (rest, u) ← decodeAll fuel t
    return (t.res0.setWidth 8 :: rest, u)

/-- The decompress procedure (R130, R131): the output, and HTB after it. -/
def decompress (file : List Byte) (s : State) : Except HostError (List Byte × State) := do
  let c ← parseContainer s.params.payBytes file
  if c.entries = [] then return ([], s)
  let s ← issueChecked [scriptC .decClear] s
  let s ← c.entries.foldlM (fun t e => issueChecked (scriptInsert e.value e.code) t) s
  let s ← issueAll (c.payload.mapIdx scriptWB) s
  let s ← issueChecked (scriptStart (BitVec.ofNat 32 c.payload.length) c.validBits) s
  decodeAll (8 * c.payload.length + 1) s

end Sys2Proof.Machine
end

