-- ==== Sys2Proof/Tests/Slice0.lean ====
section
/-! SUPPORT. Tests: expected results from 95_test_vectors.md (named V...) and the encodings of 30_encoding.md; then one
witness for each obligation with hypotheses. -/

namespace Sys2Proof.Tests

-- One thread: many kernel evaluations at once pass the sandbox's memory limit.
set_option Elab.async false

open Sys2Proof.Machine

/-! ### WellFormed and command words -/

theorem test_appendBit_above_one_is_ill_formed : (Instr.pkAppendBit 2).wellFormed = false := by decide
theorem test_appendBit_one_is_well_formed : (Instr.pkAppendBit 1).wellFormed = true := by decide

/-- One word for each command, from the OP column and the fields of R65 and R73. -/
theorem test_decode_control :
    decode 0x00000000 = .ok .nop ∧ decode 0x01000000 = .ok .clearStatus ∧ decode 0x02000000 = .ok .softReset := ⟨rfl, rfl, rfl⟩
theorem test_decode_builder :
    decode 0x10000000 = .ok .freqClear ∧ decode 0x11000061 = .ok (.freqSet 97) ∧ decode 0x120000FF = .ok (.freqGet 255)
    ∧ decode 0x13000000 = .ok .build ∧ decode 0x14000000 = .ok .readNode := ⟨rfl, rfl, rfl, rfl, rfl⟩
theorem test_decode_codes : decode 0x20000000 = .ok .genCodes ∧ decode 0x2100007A = .ok (.getCode 122) := ⟨rfl, rfl⟩
theorem test_decode_packer :
    decode 0x30000000 = .ok .pkReset ∧ decode 0x31000001 = .ok (.pkAppendBit 1) ∧ decode 0x32000A00 = .ok (.pkAppendBits 10)
    ∧ decode 0x33000061 = .ok (.pkEncode 97) ∧ decode 0x34000000 = .ok .pkFinish := ⟨rfl, rfl, rfl, rfl, rfl⟩
theorem test_decode_unpacker : decode 0x40000700 = .ok (.upStart 7) ∧ decode 0x41000000 = .ok .upNextBit := ⟨rfl, rfl⟩
theorem test_decode_decoder :
    decode 0x50000000 = .ok .decClear ∧ decode 0x51000362 = .ok (.decInsert 98 3) ∧ decode 0x52000000 = .ok .decStep := ⟨rfl, rfl, rfl⟩

/-- DEC_INSERT 'b', 3 bit by bit: OP 0101 0001, RSV 0, LEN 0000 0011, VAL 0110 0010 (R64, R65). -/
theorem test_decode_bit_by_bit : decode 0b01010001_00000000_00000011_01100010 = .ok (.decInsert 0x62 3) := rfl

/-- V6.4. -/
theorem test_illegal_words :
    decode 0x03000000 = .error .unassignedOp ∧ decode 0xFF000000 = .error .unassignedOp
    ∧ decode 0x10010000 = .error .rsvNonzero ∧ decode 0x51010161 = .error .rsvNonzero
    ∧ decode 0x10000100 = .error .lenNonzero ∧ decode 0x13000001 = .error .valNonzero
    ∧ decode 0x21000100 = .error .lenNonzero ∧ decode 0x00000001 = .error .valNonzero
    ∧ decode 0x31000002 = .error .bitAboveOne := ⟨rfl, rfl, rfl, rfl, rfl, rfl, rfl, rfl, rfl⟩

/-- V6.6. -/
theorem test_disassemble :
    disassemble 0x13000000 = "BUILD" ∧ disassemble 0x13000001 = ".word 0x13000001"
    ∧ disassemble 0x51000362 = "DEC_INSERT 98, 3" := by decide +kernel

theorem test_decodeTableWord :
    decodeTableWord 32 0x51000362 = some (.decInsert 0x62 3) ∧ decodeTableWord 32 0x13000001 = none := by decide

/-! ### Start states -/

/-- Reset, with `n` bytes of PAY. -/
def fresh (n : Nat) : State := State.resetWith ⟨n, 65025⟩

/-- The counts of a frequency table, as FREQ_SET leaves them. -/
def withFreq (counts : List (Byte × U64)) (s : State) : State :=
  { s with freq := counts.foldl (fun t e => ByteTable.put t e.1 e.2) s.freq }

/-- `build(S)` of the vectors, from the counts. -/
def built (counts : List (Byte × U64)) (s : State) : State :=
  let t := withFreq counts s
  { t with builder := buildTree t.freq t.builder }

/-- `codes(S)` of the vectors. -/
def coded (counts : List (Byte × U64)) (s : State) : State :=
  let t := built counts s
  { t with codes := generateCodes t.builder }

/-- "ab". -/
def ab : List (Byte × U64) := [(0x61, 1), (0x62, 1)]

/-- "abracadabra". -/
def abracadabra : List (Byte × U64) := [(0x61, 5), (0x62, 2), (0x63, 1), (0x64, 1), (0x72, 2)]

/-- The decoder tree of a 'a' = "0", 'b' = "10", 'c' = "11": node 1 hangs on bit 1 of the root. -/
def abcTree : Decoder where
  dn := [(0, ⟨.leaf 0x61, .node 1⟩), (1, ⟨.leaf 0x62, .leaf 0x63⟩)]
  dnCount := 2
  seen := [0x61, 0x62, 0x63].foldl (fun t v => ByteTable.put t v true) (Vector.replicate 256 false)
  nEnt := 3

/-- The decoder tree of 'a' = "0" (V5.3). -/
def aTree : Decoder where
  dn := [(0, ⟨.leaf 0x61, .none⟩)]
  dnCount := 1
  seen := ByteTable.put (Vector.replicate 256 false) 0x61 true
  nEnt := 1

/-- PAY[0] = b and `START 1, k`. -/
def playing (b : Byte) (k : BitVec 4) (s : State) : State :=
  { s with pay := [(0, b)], unpacker := ⟨1, k, 0⟩ }

/-- One step that runs the command word `w`. -/
def run (w : Word) (s : State) : Result := step { s with pending := [commandWrite w] }

/-- A next state that `p` holds of. -/
def nextIs (r : Result) (p : State → Bool) : Bool :=
  match r with
  | .next t => p t
  | .fault _ => false
  | .refused _ => false

/-- The fault `f`. -/
def faultIs (r : Result) (f : Fault) : Bool :=
  match r with
  | .next _ => false
  | .fault g => g = f
  | .refused _ => false

/-- A step that runs `w` and ends with the STATUS word `status` and a state `p` holds of. -/
def ends (w : Word) (s : State) (status : Word) (p : State → Bool) : Bool :=
  nextIs (run w s) fun t => statusWord t = status && t.cmd = w && t.answer = some (.ok none) && p t

/-! ### Control (V6) -/

theorem test_nop : ends 0x00000000 { fresh 4 with err := true, lastRes := .eSequence } 0x01 (fun _ => true) := by
  decide +kernel
theorem test_clearStatus : ends 0x01000000 { fresh 4 with err := true, lastRes := .eSequence } 0x00 (fun _ => true) := by
  decide +kernel
/-- V6.3. -/
theorem test_softReset :
    ends 0x02000000 { built ab (fresh 4) with arg0 := 5, arg1 := 6, pay := [(0, 0x11)] } 0 (fun t =>
      t.arg0 = 0 && t.arg1 = 0 && t.res0 = 0 && ByteTable.get t.freq 0x61 = 0 && t.pay.read 0 = some 0x11) := by
  decide +kernel
/-- V6.4. -/
theorem test_illegal : ends 0x13000001 (fresh 4) 0x41 (fun _ => true) := by decide +kernel

/-! ### Tree builder (V1) -/

theorem test_freqClear :
    ends 0x10000000 (coded ab (fresh 4)) 0 (fun t => ByteTable.get t.freq 0x61 = 0 && t.builder.root = 0) := by
  decide +kernel
theorem test_freqSet :
    ends 0x11000061 { fresh 4 with arg0 := 5, arg1 := 1 } 0 (fun t => ByteTable.get t.freq 0x61 = 0x100000005) := by
  decide +kernel
/-- V1.11. -/
theorem test_freqGet :
    ends 0x12000061 (withFreq [(0x61, 0x100000005)] (fresh 4)) 0 (fun t => t.res0 = 5 && t.res1 = 1) := by decide +kernel
/-- V1.1. -/
theorem test_build_empty :
    ends 0x13000000 { fresh 4 with res0 := 9 } 0x10 (fun t => t.res0 = 0 && t.res1 = 0 && t.res2 = 0) := by decide +kernel
/-- V1.5: the four internal nodes and the results. -/
theorem test_build :
    ends 0x13000000 (withFreq abracadabra (fresh 4)) 0x100 (fun t =>
      t.res0 = 0x103 && t.res1 = 5 && t.res2 = 4
      && t.builder.inner.toList.take 4 = [⟨2, some 0x63, some 0x64⟩, ⟨4, some 0x62, some 0x72⟩, ⟨6, some 256, some 257⟩,
        ⟨11, some 0x61, some 258⟩]) := by decide +kernel
/-- V1.6, merges 3 to 6: internal nodes tie with a leaf and with each other. -/
theorem test_build_ties :
    ends 0x13000000
      (withFreq [(0x20, 1), (0x64, 1), (0x65, 1), (0x68, 1), (0x6C, 3), (0x6F, 2), (0x72, 1), (0x77, 1)] (fresh 4)) 0x100
      (fun t => t.res0 = 0x106 && (t.builder.inner.toList.drop 3).take 4 =
        [⟨4, some 0x6F, some 256⟩, ⟨4, some 257, some 258⟩, ⟨7, some 0x6C, some 259⟩, ⟨11, some 260, some 261⟩]) := by
  decide +kernel
/-- V1.9. -/
theorem test_build_overflow :
    ends 0x13000000 (withFreq [(0x61, 0xFFFFFFFFFFFFFFFF), (0x62, 1)] (fresh 4)) 0x61 (fun _ => true) := by decide +kernel
/-- V1.10: the lighter 'b' is on the left. -/
theorem test_build_largest :
    ends 0x13000000 (withFreq [(0x61, 0x8000000000000000), (0x62, 0x7FFFFFFFFFFFFFFF)] (fresh 4)) 0x100
      (fun t => t.builder.inner[0] = ⟨0xFFFFFFFFFFFFFFFF, some 0x62, some 0x61⟩) := by decide +kernel
/-- V1.5: `NODE 259`. -/
theorem test_readNode_inner :
    ends 0x14000000 { built abracadabra (fresh 4) with arg0 := 259 } 0x100 (fun t =>
      t.res0 = 0x30001 && t.res1 = 11 && t.res2 = 0 && t.res3 = 0x03020261) := by decide +kernel
/-- V1.5: `NODE 0x1FF`. -/
theorem test_readNode_rejects :
    ends 0x14000000 { built abracadabra (fresh 4) with arg0 := 0x1FF, res0 := 7 } 0x1E1 (fun t => t.res0 = 7) := by
  decide +kernel

/-! ### Code table (V2) -/

/-- V2.5. -/
theorem test_genCodes :
    ends 0x20000000 (built abracadabra (fresh 4)) 0x300 (fun t =>
      t.res0 = 5 && t.res1 = 3 && ByteTable.get t.codes.cbits 0x62 = [true, true, false]
      && ByteTable.get t.codes.clen 0x65 = 0) := by decide +kernel
theorem test_genCodes_without_tree : ends 0x20000000 (fresh 4) 0x51 (fun _ => true) := by decide +kernel
/-- V2.5: 'd' = "101". -/
theorem test_getCode :
    ends 0x21000064 { coded abracadabra (fresh 4) with cb := Vector.replicate 8 0xFFFFFFFF } 0x300 (fun t =>
      t.res0 = 3 && t.cb.toList = [0xA0, 0, 0, 0, 0, 0, 0, 0]) := by decide +kernel
/-- V2.9. -/
theorem test_getCode_absent : ends 0x2100007A (coded ab (fresh 4)) 0x300 (fun t => t.res0 = 0) := by decide +kernel

/-! ### Bit packer (V3) -/

theorem test_pkReset : ends 0x30000000 { fresh 4 with packer := ⟨0, 0, 3, true⟩, res0 := 9 } 0 (fun t =>
    t.packer = ⟨0, 0, 0, false⟩ && t.res0 = 0) := by decide +kernel
/-- V3.16: the eighth 1 fills the byte. -/
theorem test_pkAppendBit :
    ends 0x31000001 { fresh 1 with packer := ⟨0xFE, 7, 0, false⟩ } 0 (fun t =>
      t.res0 = 1 && t.res1 = 0 && t.pay = [(0, 0xFF)]) := by decide +kernel
/-- V3.16: the sixteenth append. -/
theorem test_pkAppendBit_full :
    ends 0x31000000 { fresh 1 with packer := ⟨0, 7, 1, false⟩ } 0xD1 (fun t => t.packer.nb = 7) := by decide +kernel
/-- V3.12. -/
theorem test_pkAppendBits :
    ends 0x32000A00 { fresh 4 with cb := #v[0x0000406E, 0, 0, 0, 0, 0, 0, 0] } 0 (fun t =>
      t.res0 = 1 && t.res1 = 2 && t.pay = [(0, 0x6E)] && t.packer.cur = 0x40) := by decide +kernel
/-- V3.11. -/
theorem test_pkAppendBits_none : ends 0x32000000 (fresh 4) 0 (fun t => t.res0 = 0 && t.res1 = 0) := by decide +kernel
/-- V3.1: the third encode. -/
theorem test_pkEncode :
    ends 0x33000072 { coded abracadabra (fresh 16) with packer := ⟨0x60, 4, 0, false⟩ } 0x300 (fun t =>
      t.res0 = 0 && t.res1 = 7 && t.res2 = 3 && t.packer.cur = 0x6E) := by decide +kernel
/-- V3.7. -/
theorem test_pkEncode_no_code : ends 0x3300007A (coded ab (fresh 4)) 0x371 (fun t => t.packer.nb = 0) := by decide +kernel
/-- V3.1. -/
theorem test_pkFinish :
    ends 0x34000000 { fresh 16 with packer := ⟨0xDC, 7, 2, false⟩, pay := [(0, 0x6E), (1, 0x8A)] } 0x400 (fun t =>
      t.res0 = 3 && t.res1 = 7 && t.pay = [(0, 0x6E), (1, 0x8A), (2, 0xDC)]) := by decide +kernel
/-- V3.9. -/
theorem test_pkFinish_no_bits : ends 0x34000000 (fresh 4) 0x400 (fun t => t.res0 = 0 && t.res1 = 8 && t.pay = []) := by
  decide +kernel

/-! ### Bit unpacker (V4) -/

/-- V4.4. -/
theorem test_upStart :
    ends 0x40000700 { fresh 4 with arg0 := 3 } 0 (fun t => t.res0 = 23 && t.res1 = 0 && t.unpacker = ⟨3, 7, 0⟩) := by
  decide +kernel
/-- V4.2. -/
theorem test_upStart_rejects :
    ends 0x40000900 { fresh 4 with arg0 := 1 } 0xE1 (fun t => t.unpacker = ⟨0, 8, 0⟩) := by decide +kernel
/-- V4.1: the second bit. -/
theorem test_upNextBit :
    ends 0x41000000 { playing 0x40 2 (fresh 4) with unpacker := ⟨1, 2, 1⟩ } 0 (fun t => t.res0 = 1 && t.res1 = 2) := by
  decide +kernel
/-- V4.8. -/
theorem test_upNextBit_unwritten :
    faultIs (run 0x41000000 { fresh 4 with unpacker := ⟨1, 8, 0⟩ }) (.unwrittenPayload 0) = true := by decide +kernel

/-! ### Decoder (V5) -/

theorem test_decClear :
    ends 0x50000000 { fresh 4 with decoder := abcTree } 0 (fun t =>
      t.decoder.dnCount = 1 && t.decoder.nodeAt 0 = DNode.empty && ByteTable.get t.decoder.seen 0x62 = false) := by
  decide +kernel
/-- V5.11: 254 new nodes. -/
theorem test_decInsert :
    ends 0x5100FF00 { fresh 4 with params := ⟨4, 255⟩ } 0x800 (fun t => t.res0 = 1 && t.res1 = 0xFF) := by decide +kernel
/-- V5.4: "01" extends "0". -/
theorem test_decInsert_collides :
    ends 0x51000262 { fresh 4 with decoder := aTree, cb := #v[0x40, 0, 0, 0, 0, 0, 0, 0] } 0x8A1 (fun t =>
      t.decoder = aTree) := by decide +kernel
/-- V5.7: the second step. -/
theorem test_decStep :
    ends 0x52000000 { playing 0x60 3 (fresh 4) with decoder := abcTree, unpacker := ⟨1, 3, 1⟩ } 0x800 (fun t =>
      t.res0 = 0x63 && t.res1 = 2 && t.res2 = 3 && t.res3 = 0 && t.unpacker.pos = 3) := by decide +kernel
/-- V5.6. -/
theorem test_decStep_truncated :
    ends 0x52000000 { playing 0x80 1 (fresh 4) with decoder := abcTree } 0x8B1 (fun t => t.unpacker.pos = 0) := by
  decide +kernel

/-! ### Host port (V7) and reset (V6.1) -/

/-- The port's answer to one transaction, when it serves it. -/
def answerTo (t : Transaction) (s : State) : Option Answer :=
  match serve t s with
  | .next u => u.answer
  | .fault _ => none
  | .refused _ => none

/-- V7.1 to V7.7. -/
theorem test_bus_errors :
    answerTo (.write .reg 0x004 .four 1) (fresh 4) = some .busError
    ∧ answerTo (.read .reg 0x004 .one) (fresh 4) = some .busError
    ∧ answerTo (.read .reg 0x002 .four) (fresh 4) = some .busError
    ∧ answerTo (.read .reg 0x030 .four) (fresh 4) = some .busError
    ∧ answerTo (.write .reg 0x010 .four 1) (fresh 4) = some .busError
    ∧ answerTo (.read .pay 1 .two) (fresh 4) = some .busError
    ∧ answerTo (.write .pay 4 .four 1) (fresh 4) = some .busError := by decide +kernel

/-- V7.8. -/
theorem test_payload_write :
    nextIs (serve (.write .pay 0 .four 0x11223344) (fresh 4)) (fun t =>
      t.pay = [(0, 0x44), (1, 0x33), (2, 0x22), (3, 0x11)]) := by decide +kernel

/-- V7.9. -/
theorem test_payload_read :
    answerTo (.read .pay 2 .two) { fresh 4 with pay := [(0, 0x44), (1, 0x33), (2, 0x22), (3, 0x11)] }
      = some (.ok (some 0x1122)) := by decide +kernel

/-- V7.11. -/
theorem test_cb7_write : nextIs (serve (.write .reg 0x05C .four 0xDEADBEEF) (fresh 4)) (fun t => t.cb[7] = 0xDEADBEEF) := by
  decide +kernel

/-- V6.1. -/
theorem test_reset_reads :
    answerTo (.read .reg 0x004 .four) State.reset = some (.ok (some 0))
    ∧ answerTo (.read .reg 0x020 .four) State.reset = some (.ok (some 0x48544231))
    ∧ answerTo (.read .reg 0x028 .four) State.reset = some (.ok (some 0xFE01)) := by decide +kernel

/-- R154: a hardware reset that cuts a command short keeps PAY below PK_WPTR. -/
theorem test_hardware_reset :
    nextIs (step { fresh 64 with
        pay := [(0, 1), (1, 2), (32, 3), (33, 4)], packer := ⟨0, 0, 1, false⟩, pending := [.reset .hardware true] })
      (fun t => t.pay = [(0, 1), (33, 4)] && t.packer = ⟨0, 0, 0, false⟩ && t.pending = []) := by decide +kernel

/-! ### Host scripts (R75) and host software (V8) -/

/-- Whether a script finishes. -/
def finishes (items : List ScriptItem) (s : State) : Bool :=
  match runScript items s with
  | .finished _ => true
  | .checkFailed _ _ | .fault _ | .refused _ => false

/-- Whether a script fails at `CHECK e`. -/
def failsCheck (e : CmdOutcome) (items : List ScriptItem) (s : State) : Bool :=
  match runScript items s with
  | .checkFailed e' _ => e' = e
  | .finished _ | .fault _ | .refused _ => false

/-- R75: CHECK compares STATUS[7:4] with the outcome (GEN_CODES after reset ends E_SEQUENCE, V2.8). -/
theorem test_check :
    finishes (script [scriptC .genCodes] ++ scriptCheck .eSequence) (fresh 4) = true
    ∧ failsCheck .ok (script [scriptC .genCodes] ++ scriptCheck .ok) (fresh 4) = true := by decide +kernel

/-- R132, its five rows. -/
theorem test_host_errors :
    CmdOutcome.hostError .empty = some .emptyInput ∧ CmdOutcome.hostError .endOfData = some .endOfData
    ∧ (∀ o ∈ [CmdOutcome.eDuplicate, .ePrefix, .eTruncated, .eNoChild, .eBadLength], o.hostError = some .formatError)
    ∧ (∀ o ∈ [CmdOutcome.ePayloadFull, .eNodeFull, .eOverflow], o.hostError = some .unsupportedSize)
    ∧ (∀ o ∈ [CmdOutcome.eIllegal, .eSequence, .eBadArgs, .eNoCode], o.hostError = some .hostDefect)
    ∧ Answer.hostError .busError = some .hostDefect := by decide

/-- V8.1, both ways. -/
theorem test_container_ab :
    let bytes : List Byte := [2, 0, 0, 0, 0x61, 1, 0, 0, 0, 0x30, 0x62, 1, 0, 0, 0, 0x31, 2, 0x40]
    let c : Container := ⟨[⟨0x61, [false]⟩, ⟨0x62, [true]⟩], 2, [0x40]⟩
    c.bytes = bytes ∧ parseContainer 4 bytes = .ok c := ⟨rfl, rfl⟩

/-- V8.5. -/
theorem test_parse_rejections :
    parseContainer 4 [0xFF, 0xFF, 0xFF, 0xFF] = .error .formatError
    ∧ parseContainer 4 [1, 0, 0, 0, 0x61, 0, 0, 0, 0] = .error .formatError
    ∧ parseContainer 4 [1, 0, 0, 0, 0x61, 1, 0, 0, 0, 0x32, 1, 0] = .error .formatError
    ∧ parseContainer 4 [1, 0, 0, 0, 0x61, 1, 0, 0, 0, 0x30, 0, 0] = .error .formatError
    ∧ parseContainer 4 [1, 0, 0, 0, 0x61, 1, 0, 0] = .error .formatError := ⟨rfl, rfl, rfl, rfl, rfl⟩

/-! ### Witnesses: concrete states and operands that meet the hypotheses of each obligation that has some, clause by clause -/

/-- A next state exists and `p` holds of it. -/
theorem exists_next {r : Result} {p : State → Bool} (h : nextIs r p = true) : ∃ t, r = .next t ∧ p t = true := by
  cases r with
  | next t => exact ⟨t, rfl, h⟩
  | fault f => cases h
  | refused r => cases h

/-- A fault. -/
theorem fault_of {r : Result} {f : Fault} (h : faultIs r f = true) : r = .fault f := by
  cases r with
  | next t => cases h
  | fault g => exact congrArg _ (of_decide_eq_true h)
  | refused r => cases h

theorem witness_DecodeOfEncodeIsTheCommand : (Instr.pkAppendBit 1).wellFormed = true := by decide

theorem witness_EncodeOfDecodeIsTheWord : decode 0x5100FFFF = .ok (.decInsert 0xFF 0xFF) := rfl

theorem witness_OpcodeTableSelectsTheDecodedCommand :
    (⟨"FREQ_SET", 0x11000000, 0xFFFFFF00⟩ : TableRow) ∈ opcodeTable
    ∧ (0x110000FF : Word) &&& 0xFFFFFF00 = 0x11000000 := by decide

/-- One word for each cause of R69, at the start of `pending`. -/
theorem witness_IllegalWordChangesOnlyCmdAndStatus :
    ∀ w ∈ [(0x03000000 : Word), 0x10010000, 0x10000100, 0x13000001, 0x31000002],
      ∃ s : State, s.pending = commandWrite w :: [] ∧ ∃ e, decode w = .error e := by
  intro w hw
  refine ⟨{ fresh 4 with pending := [commandWrite w] }, rfl, ?_⟩
  simp only [List.mem_cons, List.not_mem_nil, or_false] at hw
  obtain rfl | rfl | rfl | rfl | rfl := hw <;> exact ⟨_, rfl⟩

theorem witness_StepRunsTheDecodedCommand :
    let s : State := { fresh 4 with pending := [commandWrite 0] }
    s.pending = commandWrite 0 :: [] ∧ decode 0 = .ok .nop := ⟨rfl, rfl⟩

/-- A payload write, and no event. -/
theorem witness_StepServesTheOldestAccess :
    (let s : State := { fresh 4 with pending := [scriptWB 0 0x40] };
      s.pending = .access (.write .pay 0 .one 0x40) :: [])
    ∧ (fresh 4).pending = [] := ⟨rfl, rfl⟩

theorem witness_ErrorsArePrecise : ∃ t, exec .genCodes (fresh 4) = .next t ∧ t.lastRes.isError = true :=
  exists_next (p := fun t => t.lastRes.isError) (by decide +kernel)

/-- ERR 1 after a non-error end; EMPTY; END. -/
theorem witness_NonErrorOutcomesKeepErr :
    (∃ t, exec .nop { fresh 4 with err := true } = .next t ∧ (t.lastRes.isError = false ∧ t.err = true))
    ∧ (∃ t, exec .build (fresh 4) = .next t ∧ t.lastRes = .empty)
    ∧ ∃ t, exec .upNextBit (fresh 4) = .next t ∧ t.lastRes = .endOfData := by
  refine ⟨?_, ?_, ?_⟩
  · exact ⟨_, rfl, rfl, rfl⟩
  · obtain ⟨t, h, hp⟩ := exists_next (r := exec .build (fresh 4)) (p := fun t => t.lastRes = .empty) (by decide +kernel)
    exact ⟨t, h, of_decide_eq_true hp⟩
  · obtain ⟨t, h, hp⟩ := exists_next (r := exec .upNextBit (fresh 4)) (p := fun t => t.lastRes = .endOfData)
      (by decide +kernel)
    exact ⟨t, h, of_decide_eq_true hp⟩

theorem witness_ErrIsSticky : ∃ t, exec .nop (fresh 4) = .next t := ⟨_, rfl⟩

theorem witness_OutcomesAreThoseOfTheTable : Instr.nop.wellFormed = true ∧ ∃ t, exec .nop (fresh 4) = .next t := ⟨rfl, _, rfl⟩

theorem witness_ESequenceExactlyWhenThePreconditionFails :
    (Instr.genCodes.wellFormed = true ∧ preconditionHolds .genCodes (fresh 4) = false)
    ∧ Instr.nop.wellFormed = true ∧ preconditionHolds .nop (fresh 4) = true := ⟨⟨rfl, rfl⟩, rfl, rfl⟩

/-- Both commands that can stop. -/
theorem witness_OnlyUnwrittenPayloadStopsACommand :
    exec .upNextBit { fresh 4 with unpacker := ⟨1, 8, 0⟩ } = .fault (.unwrittenPayload 0)
    ∧ exec .decStep { fresh 4 with unpacker := ⟨1, 8, 0⟩, decoder := aTree } = .fault (.unwrittenPayload 0) :=
  ⟨fault_of (by decide +kernel), fault_of (by decide +kernel)⟩

/-- The last bit below T, with other bytes at UP_LEN and above: read, and stopped on; and PK_RESET, which reads nothing. -/
theorem witness_ReadsStayBelowUpLen :
    (let s := { playing 0x41 8 (fresh 4) with unpacker := ⟨1, 8, 7⟩ };
      let m : Memory := [(0, 0x41), (1, 0xFF)];
      UnpackerInv s ∧ (∀ a, a < s.unpacker.len.toNat → m.read a = s.pay.read a) ∧ m.read 1 ≠ s.pay.read 1
      ∧ ∃ t, exec .upNextBit s = .next t ∧ (t.res0 == 1) = true)
    ∧ (let s : State := { fresh 4 with unpacker := ⟨1, 8, 7⟩ };
      let m : Memory := [(1, 0xFF)];
      UnpackerInv s ∧ (∀ a, a < s.unpacker.len.toNat → m.read a = s.pay.read a)
      ∧ exec .upNextBit s = .fault (.unwrittenPayload 0))
    ∧ ∃ t, exec .pkReset (fresh 4) = .next t :=
  ⟨⟨by decide +kernel, by decide +kernel, by decide +kernel, exists_next (by decide +kernel)⟩,
    ⟨by decide +kernel, by decide +kernel, fault_of (by decide +kernel)⟩, _, rfl⟩

/-- NOP is none of the writers, and names no RES; GET_CODE names RES0 alone, BUILD RES0 to RES2; END writes none. -/
theorem witness_EachUnitHasItsWriters :
    ((∃ t, exec .nop (fresh 4) = .next t) ∧ appendedBits .nop (fresh 4) = none ∧ Instr.nop ≠ .softReset
      ∧ resultCount .nop = 0)
    ∧ ((∃ t, exec (.getCode 0x61) (fresh 4) = .next t) ∧ resultCount (.getCode 0x61) = 1)
    ∧ ((∃ t, exec .build (fresh 4) = .next t) ∧ resultCount .build = 3)
    ∧ ∃ t, exec .decStep (fresh 4) = .next t ∧ t.lastRes = .endOfData ∧ resultCount .decStep = 4 :=
  ⟨⟨⟨_, rfl⟩, rfl, by decide, rfl⟩, ⟨⟨_, rfl⟩, rfl⟩,
    ⟨(exists_next (p := fun _ => true) (by decide +kernel)).imp fun _ h => h.1, rfl⟩, _, rfl, rfl, rfl⟩

theorem witness_BuildOfAnEmptyTable : ∀ v, ByteTable.get (fresh 4).freq v = 0 := by
  intro v
  simp [fresh, State.resetWith]

/-- The least total that does not fit. -/
theorem witness_BuildReportsOverflow :
    let s := withFreq [(0x61, 0xFFFFFFFFFFFFFFFF), (0x62, 1)] (fresh 4)
    2 ^ 64 - 1 < ((List.range 256).map fun v => (ByteTable.get s.freq (BitVec.ofNat 8 v)).toNat).sum := by decide +kernel

/-- Two bytes with the largest total, and one byte. -/
theorem witness_BuildCompletes :
    (let s := withFreq [(0x61, 0x8000000000000000), (0x62, 0x7FFFFFFFFFFFFFFF)] (fresh 4);
      2 = ((List.range 256).filter fun v => ByteTable.get s.freq (BitVec.ofNat 8 v) ≠ 0).length
      ∧ ((List.range 256).map fun v => (ByteTable.get s.freq (BitVec.ofNat 8 v)).toNat).sum ≤ 2 ^ 64 - 1)
    ∧ let s := withFreq [(0x61, 4)] (fresh 4);
      1 = ((List.range 256).filter fun v => ByteTable.get s.freq (BitVec.ofNat 8 v) ≠ 0).length
      ∧ ((List.range 256).map fun v => (ByteTable.get s.freq (BitVec.ofNat 8 v)).toNat).sum ≤ 2 ^ 64 - 1 := by
  decide +kernel

/-- The last merge of "abracadabra", k = 3. -/
theorem witness_EachMergeJoinsTheTwoLeastKeys :
    ∃ t, exec .build (withFreq abracadabra (fresh 4)) = .next t
      ∧ (t.lastRes = .ok && 2 ≤ t.builder.nLeaves && 3 < t.builder.nInt) = true :=
  exists_next (by decide +kernel)

theorem witness_SingleSymbolTreeHasOneLeftLeaf :
    let s := withFreq [(0x61, 4)] (fresh 4)
    ByteTable.get s.freq 0x61 ≠ 0 ∧ ∀ w, w ≠ 0x61 → ByteTable.get s.freq w = 0 := by
  refine ⟨by decide +kernel, fun w hw => ?_⟩
  have hw' : ¬ w = 97#8 := hw
  simp [withFreq, fresh, State.resetWith, ByteTable.get_put, hw']

/-- Two states with one FREQ and different trees. -/
theorem witness_TreeDependsOnFreqAlone :
    let s := withFreq ab (fresh 4)
    let s' := { built abracadabra (fresh 8) with freq := s.freq }
    s.freq = s'.freq ∧ (∃ t, exec .build s = .next t ∧ (t.lastRes == .ok) = true) ∧ ∃ t, exec .build s' = .next t := by
  refine ⟨rfl, exists_next (by decide +kernel), ?_⟩
  obtain ⟨t, h, -⟩ := exists_next (r := exec .build { built abracadabra (fresh 8) with freq := (withFreq ab (fresh 4)).freq })
    (p := fun _ => true) (by decide +kernel)
  exact ⟨t, h⟩

/-- No tree; index 511; the leaf 'z' not in the tree; the first unused internal slot; a leaf; the slots 256 and 510. -/
theorem witness_ReadNodeDescribesANode :
    (fresh 4).builder.valid = false
    ∧ (let s := built ab (fresh 4);
      s.builder.valid = true ∧ 510 < (511 : Word).toNat ∧ ByteTable.get s.builder.inTree 0x7A = false
        ∧ s.builder.nInt ≤ (257 : Word).toNat - 256 ∧ ByteTable.get s.builder.inTree 0x61 = true
        ∧ (256 : Word).toNat - 256 < s.builder.nInt ∧ s.builder.inner[(256 : Word).toNat - 256]? ≠ none)
    ∧ let b : Builder := { Builder.reset with valid := true, nInt := 255 };
      (510 : Word).toNat - 256 < b.nInt ∧ b.inner[(510 : Word).toNat - 256]? ≠ none := by decide +kernel

theorem witness_BuilderCommandsFrame :
    ∀ i ∈ [Instr.freqClear, .freqSet 0x61, .freqGet 0x61, .build, .readNode],
      ∃ t, exec i { built ab (fresh 4) with arg0 := 256 } = .next t := by
  intro i hi
  have h : nextIs (exec i { built ab (fresh 4) with arg0 := 256 }) (fun _ => true) = true := by
    revert i
    decide +kernel
  obtain ⟨t, ht, -⟩ := exists_next h
  exact ⟨t, ht⟩

theorem witness_GenCodesCompletes :
    (fresh 4).builder.valid = false ∧ (built ab (fresh 4)).builder.valid = true := by decide +kernel

/-- The tree of "ab" has R36's shape. -/
theorem ab_treeInv (s : State) (h : s.builder = (built ab (fresh 4)).builder) : TreeInv s :=
  (buildTree_builtFrom (withFreq ab (fresh 4)).freq Builder.reset (by decide +kernel) (by decide +kernel)).treeInv
    (by decide +kernel) h

theorem witness_CodesAreTheRootToLeafPaths :
    TreeInv (built ab (fresh 4)) ∧ (built ab (fresh 4)).builder.valid = true
    ∧ (0x62, [true]) ∈ (built ab (fresh 4)).builder.leaves := ⟨ab_treeInv _ rfl, by decide +kernel, by decide +kernel⟩

theorem witness_GetCodeFillsTheCodeBuffer :
    (fresh 4).codes.valid = false ∧ (coded ab (fresh 4)).codes.valid = true := by decide +kernel

/-- SOFT_RESET reopens a closed packer. -/
theorem witness_PkResetStartsAStream :
    let s : State := { fresh 1 with packer := ⟨0, 0, 0, true⟩ }
    s.packer.closed = true ∧ ∃ t, exec .softReset s = .next t ∧ t.packer.closed = false := ⟨rfl, _, rfl, rfl⟩

/-- Each append command, with the last byte of PAY just filled. -/
theorem witness_AppendPlacesEachBit :
    (let s : State := { fresh 1 with packer := ⟨0xFE, 7, 0, false⟩ };
      ParamsInv s ∧ PackerInv s ∧ appendedBits (.pkAppendBit 1) s = some [true]
      ∧ preconditionHolds (.pkAppendBit 1) s = true ∧ s.packer.wptr.toNat + (s.packer.nb + 1) / 8 ≤ s.params.payBytes)
    ∧ (let s := fresh 1;
      ParamsInv s ∧ PackerInv s ∧ appendedBits (.pkAppendBits 8) s = some (List.replicate 8 false)
      ∧ preconditionHolds (.pkAppendBits 8) s = true ∧ s.packer.wptr.toNat + (s.packer.nb + 8) / 8 ≤ s.params.payBytes)
    ∧ let s : State := { coded ab (fresh 1) with packer := ⟨0xFE, 7, 0, false⟩ };
      ParamsInv s ∧ PackerInv s ∧ appendedBits (.pkEncode 0x62) s = some [true]
      ∧ preconditionHolds (.pkEncode 0x62) s = true ∧ ByteTable.get s.codes.clen 0x62 ≠ 0
      ∧ s.packer.wptr.toNat + (s.packer.nb + 1) / 8 ≤ s.params.payBytes := by decide +kernel

/-- Closed; no code; one byte too many. -/
theorem witness_AppendErrorsInOrder :
    preconditionHolds (.pkAppendBit 1) { fresh 1 with packer := ⟨0, 0, 0, true⟩ } = false
    ∧ (preconditionHolds (.pkEncode 0x7A) (coded ab (fresh 1)) = true
      ∧ ByteTable.get (coded ab (fresh 1)).codes.clen 0x7A = 0)
    ∧ let s : State := { fresh 1 with packer := ⟨0, 7, 1, false⟩ };
      appendedBits (.pkAppendBit 1) s = some [true] ∧ preconditionHolds (.pkAppendBit 1) s = true
      ∧ s.params.payBytes < s.packer.wptr.toNat + (s.packer.nb + 1) / 8 := by decide +kernel

/-- Closed; a partial byte without room; no partial byte at the end of PAY; a partial byte that just fits. -/
theorem witness_PkFinishReportsTheValidCount :
    ∀ pk ∈ [(⟨0, 0, 1, true⟩ : Packer), ⟨0x80, 1, 1, false⟩, ⟨0, 0, 1, false⟩, ⟨0x80, 1, 0, false⟩],
      ParamsInv { fresh 1 with packer := pk } ∧ PackerInv { fresh 1 with packer := pk } := by decide +kernel

theorem witness_PackerCommandsFrame :
    ∀ i ∈ [Instr.pkReset, .pkFinish, .pkAppendBit 1, .pkAppendBits 8, .pkEncode 0x62],
      (ParamsInv (coded ab (fresh 1)) ∧ PackerInv (coded ab (fresh 1))) ∧ ∃ t, exec i (coded ab (fresh 1)) = .next t := by
  intro i hi
  refine ⟨by decide +kernel, ?_⟩
  have h : nextIs (exec i (coded ab (fresh 1))) (fun _ => true) = true := by
    revert i
    decide +kernel
  obtain ⟨t, ht, -⟩ := exists_next h
  exact ⟨t, ht⟩

/-- Valid counts 0, 1, 8 and 9; lengths PAY_BYTES and PAY_BYTES + 1. -/
theorem witness_UpStartReportsT :
    let s : State := { fresh 4 with arg0 := 4 }
    (0 : Byte).toNat < 1 ∧ 1 ≤ (1 : Byte).toNat ∧ (8 : Byte).toNat ≤ 8 ∧ 8 < (9 : Byte).toNat
    ∧ s.arg0.toNat ≤ s.params.payBytes ∧ s.params.payBytes < (5 : Word).toNat := by decide +kernel

/-- At T; the last bit below it, written and not written. -/
theorem witness_UpNextBitReplaysOneBit :
    (let s : State := { fresh 4 with unpacker := ⟨1, 2, 2⟩ };
      s.unpacker.pos.toNat = meaningfulBits s.unpacker)
    ∧ (let s : State := { playing 0x40 2 (fresh 4) with unpacker := ⟨1, 2, 1⟩ };
      s.unpacker.pos.toNat < meaningfulBits s.unpacker ∧ s.pay.read (s.unpacker.pos.toNat / 8) = some 0x40)
    ∧ let s : State := { fresh 4 with unpacker := ⟨1, 2, 1⟩ };
      s.unpacker.pos.toNat < meaningfulBits s.unpacker ∧ s.pay.read (s.unpacker.pos.toNat / 8) = none := by decide +kernel

/-- Ten bits: one byte written and two in PK_CUR. -/
theorem witness_FinishedStreamReplaysItsBits :
    let s : State := { fresh 2 with packer := ⟨0x40, 2, 1, false⟩, pay := [(0, 0x6E)] }
    ParamsInv s ∧ PackerInv s ∧ (∀ a, a < s.packer.wptr.toNat → s.pay.read a ≠ none)
    ∧ ∃ t, exec .pkFinish s = .next t ∧ (t.lastRes == .ok) = true :=
  ⟨by decide +kernel, by decide +kernel, by decide +kernel, exists_next (by decide +kernel)⟩

/-- Length 0; a value already present; a slot that is taken; one node too few. -/
theorem witness_DecInsertErrorsInOrder :
    let s : State := { fresh 4 with decoder := { aTree with dnCount := 65025 } }
    ByteTable.get s.decoder.seen 0x61 = true ∧ ByteTable.get s.decoder.seen 0x62 = false
    ∧ codebufBits s.cb 1 = [false] ∧ s.decoder.slotAt 0 [false] ≠ .none
    ∧ (let s' : State := { s with cb := #v[0x80, 0, 0, 0, 0, 0, 0, 0] };
      codebufBits s'.cb 2 = [true, false] ∧ s'.decoder.slotAt 0 [true, false] = .none
      ∧ s'.params.decIntCap < s'.decoder.dnCount + (2 - 1 - s'.decoder.depthAlong 0 [true, false])) := by decide +kernel

/-- The new code extends, equals, and is a proper prefix of a code already there. -/
theorem witness_CollidingCodeEndsEPrefix :
    let s : State := { fresh 4 with decoder := abcTree, cb := #v[0x80, 0, 0, 0, 0, 0, 0, 0] }
    ByteTable.get s.decoder.seen 0x7A = false ∧ s.decoder.byteOf 0 [true, false] = some 0x62
    ∧ [true, false] <+: codebufBits s.cb 3 ∧ [true, false] = codebufBits s.cb 2
    ∧ codebufBits s.cb 1 <+: [true, false] := by decide +kernel

/-- The empty decoder tree meets its invariant. -/
theorem reset_decoderInv (p : Params) (h : 1 ≤ p.decIntCap) (s : State) (hs : s.decoder = Decoder.reset) (hp : s.params = p) :
    DecoderInv s := by
  have hslots : Decoder.reset.slots = [(0, .none), (0, .none)] := rfl
  have hbyte : ∀ q, Decoder.reset.byteOf 0 q = none := by
    intro q
    cases q with
    | nil => rfl
    | cons b rest => cases b <;> rfl
  unfold DecoderInv
  rw [hs, hp]
  refine ⟨Nat.le_refl 1, h, List.Pairwise.nil, by simp [Decoder.reset], ?_, ?_, ?_, by decide +kernel, ?_⟩
  · intro i j hij
    simp [hslots] at hij
  · intro j h1 h2
    simp only [Decoder.reset] at h2
    omega
  · intro v
    rw [hslots]
    simp [Decoder.reset]
  · intro q q' v w hq
    rw [hbyte] at hq
    cases hq

/-- A code of 255 bits that just fits a decoder of 255 nodes. -/
theorem witness_DecInsertAddsExactlyItsCode :
    let s := State.resetWith ⟨4, 255⟩
    ParamsInv s ∧ DecoderInv s ∧ (255 : Byte) ≠ 0 ∧ ByteTable.get s.decoder.seen 0 = false
    ∧ s.decoder.slotAt 0 (codebufBits s.cb 255) = .none
    ∧ s.decoder.dnCount + ((255 : Byte).toNat - 1 - s.decoder.depthAlong 0 (codebufBits s.cb 255)) ≤ s.params.decIntCap :=
  ⟨by decide +kernel, reset_decoderInv ⟨4, 255⟩ (by decide) _ rfl rfl, by decide, by decide +kernel, by decide +kernel,
    by decide +kernel⟩

/-- 'c' = "11" as the last code of the stream. -/
theorem witness_DecStepDecodesACode :
    let s : State := { playing 0x60 3 (fresh 4) with decoder := abcTree, unpacker := ⟨1, 3, 1⟩ }
    s.decoder.nEnt ≠ 0 ∧ s.decoder.byteOf 0 [true, true] = some 0x63
    ∧ s.unpacker.pos.toNat + [true, true].length ≤ meaningfulBits s.unpacker
    ∧ ∀ k b, [true, true][k]? = some b → streamBit s.pay (s.unpacker.pos.toNat + k) = .ok b := by
  refine ⟨by decide, by decide +kernel, by decide +kernel, ?_⟩
  intro k b h
  match k with
  | 0 => cases h; rfl
  | 1 => cases h; rfl
  | k + 2 => simp at h

/-- No code; no bit left; the bits end below the root; an empty slot. -/
theorem witness_DecStepEndsWithoutAByte :
    (fresh 4).decoder.nEnt = 0
    ∧ (fresh 4).unpacker.pos.toNat = meaningfulBits (fresh 4).unpacker
    ∧ (let s : State := { playing 0x80 1 (fresh 4) with decoder := abcTree };
      s.decoder.nEnt ≠ 0 ∧ (∀ k b, [true][k]? = some b → streamBit s.pay (s.unpacker.pos.toNat + k) = .ok b)
      ∧ s.unpacker.pos.toNat + 1 = meaningfulBits s.unpacker ∧ s.decoder.depthAlong 0 [true] = 1)
    ∧ let s : State := { playing 0x20 3 (fresh 4) with decoder := aTree, unpacker := ⟨1, 3, 2⟩ };
      s.decoder.nEnt ≠ 0 ∧ (∀ k b, [true][k]? = some b → streamBit s.pay (s.unpacker.pos.toNat + k) = .ok b)
      ∧ s.unpacker.pos.toNat + 1 ≤ meaningfulBits s.unpacker
      ∧ s.decoder.depthAlong 0 [true] + 1 = 1 ∧ s.decoder.slotAt 0 [true] = .none := by
  refine ⟨rfl, rfl, ⟨by decide, ?_, by decide +kernel, by decide +kernel⟩, by decide, ?_, by decide +kernel,
    by decide +kernel, by decide +kernel⟩ <;>
  · intro k b h
    match k with
    | 0 => cases h; rfl
    | k + 1 => simp at h

/-- The model fault: no bit read and the first byte unwritten; the last bit of byte 0 read, over an internal node, and byte 1
unwritten. -/
theorem witness_DecStepEndsWithoutAByte_fault :
    (let s : State := { fresh 4 with decoder := abcTree, unpacker := ⟨1, 1, 0⟩ };
      s.decoder.nEnt ≠ 0 ∧ s.unpacker.pos.toNat + 0 < meaningfulBits s.unpacker
      ∧ s.decoder.depthAlong 0 [] = 0 ∧ s.pay.read ((s.unpacker.pos.toNat + 0) / 8) = none)
    ∧ (let s : State := { playing 0x01 8 (fresh 4) with decoder := abcTree, unpacker := ⟨2, 8, 7⟩ };
      s.decoder.nEnt ≠ 0 ∧ (∀ k b, [true][k]? = some b → streamBit s.pay (s.unpacker.pos.toNat + k) = .ok b)
      ∧ s.unpacker.pos.toNat + 1 < meaningfulBits s.unpacker ∧ s.decoder.depthAlong 0 [true] = 1
      ∧ s.pay.read ((s.unpacker.pos.toNat + 1) / 8) = none) := by
  refine ⟨by decide +kernel, by decide, ?_, by decide +kernel, by decide +kernel, by decide +kernel⟩
  intro k b h
  match k with
  | 0 => cases h; rfl
  | k + 1 => simp at h

/-- Offsets at the edges of the holes of the register map, and of PAY. -/
theorem witness_BusErrorsChangeNothing :
    (Size.two ≠ .four ∧ 0x002 % 4 ≠ 0 ∧ 0x02C ≤ 0x02C ∧ 0x03C < 0x040 ∧ 0x060 ≤ 0x060)
    ∧ 0x004 ∈ [0x004, 0x010, 0x014, 0x018, 0x01C, 0x020, 0x024, 0x028]
    ∧ 1 % Size.two.bytes ≠ 0 ∧ (fresh 4).params.payBytes < 4 + Size.one.bytes := by decide +kernel

theorem witness_ReadsHaveNoSideEffect : ∃ t, serve (.read .reg 0x004 .four) (fresh 4) = .next t := ⟨_, rfl⟩

/-- Each size at the end of PAY. -/
theorem witness_PayloadWriteThenRead :
    (4 % Size.four.bytes = 0 ∧ 4 + Size.four.bytes ≤ (fresh 8).params.payBytes)
    ∧ (6 % Size.two.bytes = 0 ∧ 6 + Size.two.bytes ≤ (fresh 8).params.payBytes)
    ∧ 7 % Size.one.bytes = 0 ∧ 7 + Size.one.bytes ≤ (fresh 8).params.payBytes := by decide +kernel

/-- A word whose last byte nothing has written. -/
theorem witness_UnwrittenPayloadReadFaults :
    let s : State := { fresh 4 with pay := [(0, 1), (1, 2), (2, 3)] }
    0 % Size.four.bytes = 0 ∧ 0 + Size.four.bytes ≤ s.params.payBytes ∧ s.pay.read 3 = none := by decide +kernel

/-- Every kind of reset. -/
theorem witness_ResetsGiveTheResetState :
    ∀ kind cuts, ∃ s : State, s.pending = .reset kind cuts :: [] := fun kind cuts =>
  ⟨{ fresh 4 with pending := [.reset kind cuts] }, rfl⟩

/-- The smallest and the largest instance. -/
theorem witness_ResetMeetsTheInvariants : Params.wf ⟨1, 255⟩ ∧ Params.wf ⟨2 ^ 32 - 1, 65025⟩ := by decide

/-- An append that writes a byte. -/
theorem witness_StepKeepsTheStreamInvariants :
    let s : State := { fresh 1 with packer := ⟨0xFE, 7, 0, false⟩, pending := [commandWrite 0x31000001] }
    ParamsInv s ∧ PackerInv s ∧ UnpackerInv s ∧ PayInv s ∧ ∃ t, step s = .next t ∧ (t.pay == [(0, 0xFF)]) = true :=
  ⟨by decide +kernel, by decide +kernel, by decide +kernel, by decide +kernel, exists_next (by decide +kernel)⟩

/-- GEN_CODES on the tree of "ab". -/
theorem witness_StepKeepsTheTreeAndCodeInvariants :
    let s : State := { built ab (fresh 4) with pending := [commandWrite 0x20000000] }
    TreeInv s ∧ CodesInv s ∧ ∃ t, step s = .next t ∧ t.codes.valid = true :=
  ⟨ab_treeInv _ rfl, fun h : false = true => Bool.noConfusion h,
    exists_next (r := step { built ab (fresh 4) with pending := [commandWrite 0x20000000] }) (p := fun t => t.codes.valid)
      (by decide +kernel)⟩

/-- DEC_INSERT into the empty tree. -/
theorem witness_StepKeepsTheDecoderInvariant :
    let s : State := { fresh 4 with pending := [commandWrite 0x51000161] }
    ParamsInv s ∧ DecoderInv s ∧ ∃ t, step s = .next t ∧ (t.decoder.nEnt == 1) = true :=
  ⟨by decide +kernel, reset_decoderInv ⟨4, 65025⟩ (by decide) _ rfl rfl, exists_next (by decide +kernel)⟩

end Sys2Proof.Tests
end

section
/-! SUPPORT. What each command writes (10_state.md R18–R32 `Written by`, 30_encoding.md R65 `results`), said once: every
claim that a command leaves a unit alone is read off `exec_next_cases`. -/

namespace Sys2Proof.Machine

variable {i : Instr} {s t : State}

/-- `s` with the fields a command may write taken from `t`. -/
def State.overwritten (s : State) (i : Instr) (t : State) : State :=
  match i with
  | .nop => { s with lastRes := t.lastRes }
  | .clearStatus => { s with lastRes := t.lastRes, err := t.err }
  | .softReset => { t with params := s.params, cmd := s.cmd, pay := s.pay, pending := s.pending, answer := s.answer }
  | .freqClear => { s with lastRes := t.lastRes, freq := t.freq, builder := t.builder, codes := t.codes }
  | .freqSet _ => { s with lastRes := t.lastRes, freq := t.freq }
  | .freqGet _ => { s with lastRes := t.lastRes, res0 := t.res0, res1 := t.res1 }
  | .build =>
    { s with
      lastRes := t.lastRes, res0 := t.res0, res1 := t.res1, res2 := t.res2, builder := t.builder, codes := t.codes }
  | .readNode => { s with lastRes := t.lastRes, res0 := t.res0, res1 := t.res1, res2 := t.res2, res3 := t.res3 }
  | .genCodes => { s with lastRes := t.lastRes, res0 := t.res0, res1 := t.res1, codes := t.codes }
  | .getCode _ => { s with lastRes := t.lastRes, res0 := t.res0, cb := t.cb }
  | .pkReset => { s with lastRes := t.lastRes, res0 := t.res0, res1 := t.res1, packer := t.packer }
  | .pkAppendBit _ | .pkAppendBits _ | .pkFinish =>
    { s with lastRes := t.lastRes, res0 := t.res0, res1 := t.res1, packer := t.packer, pay := t.pay }
  | .pkEncode _ =>
    { s with lastRes := t.lastRes, res0 := t.res0, res1 := t.res1, res2 := t.res2, packer := t.packer, pay := t.pay }
  | .upStart _ => { s with lastRes := t.lastRes, res0 := t.res0, res1 := t.res1, unpacker := t.unpacker }
  | .upNextBit =>
    { s with lastRes := t.lastRes, res0 := t.res0, res1 := t.res1, res2 := t.res2, unpacker := t.unpacker }
  | .decClear => { s with lastRes := t.lastRes, decoder := t.decoder }
  | .decInsert _ _ => { s with lastRes := t.lastRes, res0 := t.res0, res1 := t.res1, decoder := t.decoder }
  | .decStep =>
    { s with
      lastRes := t.lastRes, res0 := t.res0, res1 := t.res1, res2 := t.res2, res3 := t.res3, unpacker := t.unpacker }

/-- A command ends on the state before it with LASTRES and ERR written, as every error (60_exceptions.md R140) and END
(R142) do; or it ends OK or EMPTY and has written no field but its own. -/
theorem exec_next_cases (h : exec i s = .next t) :
    t = { s with lastRes := t.lastRes, err := t.err }
    ∨ ((t.lastRes = .ok ∨ t.lastRes = .empty) ∧ t = s.overwritten i t) := by
  cases i with
  | nop | clearStatus | softReset | freqClear | freqSet v | freqGet v | pkReset | decClear =>
    cases h
    exact .inr ⟨.inl rfl, rfl⟩
  | build =>
    rcases execBuild_cases h with ⟨-, rfl⟩ | ⟨-, -, rfl⟩ | ⟨-, -, rfl⟩
    · exact .inr ⟨.inr rfl, rfl⟩
    · exact .inl rfl
    · exact .inr ⟨.inl rfl, rfl⟩
  | readNode =>
    rcases execReadNode_cases h with ⟨-, rfl⟩ | ⟨-, -, rfl⟩ | ⟨-, -, -, rfl⟩ | ⟨-, -, -, rfl⟩
    · exact .inl rfl
    · exact .inl rfl
    · exact .inr ⟨.inl rfl, rfl⟩
    · exact .inr ⟨.inl rfl, rfl⟩
  | genCodes =>
    rcases execGenCodes_cases h with ⟨-, rfl⟩ | ⟨-, rfl⟩
    · exact .inl rfl
    · exact .inr ⟨.inl rfl, rfl⟩
  | getCode v =>
    rcases execGetCode_cases h with ⟨-, rfl⟩ | ⟨-, rfl⟩
    · exact .inl rfl
    · exact .inr ⟨.inl rfl, rfl⟩
  | pkAppendBit b =>
    rcases execPkAppendBit_cases h with ⟨-, rfl⟩ | ⟨-, h⟩
    · exact .inl rfl
    · rcases complete_append_cases h with ⟨-, rfl⟩ | ⟨-, -, rfl⟩ | ⟨-, -, rfl⟩
      · exact .inl rfl
      · exact .inl rfl
      · exact .inr ⟨.inl rfl, rfl⟩
  | pkAppendBits n =>
    rcases complete_append_cases h with ⟨-, rfl⟩ | ⟨-, -, rfl⟩ | ⟨-, -, rfl⟩
    · exact .inl rfl
    · exact .inl rfl
    · exact .inr ⟨.inl rfl, rfl⟩
  | pkEncode v =>
    rcases execPkEncode_cases h with ⟨-, rfl⟩ | ⟨-, -, -, rfl⟩ | ⟨-, -, -, -, rfl⟩ | ⟨-, -, -, -, rfl⟩
    · exact .inl rfl
    · exact .inl rfl
    · exact .inl rfl
    · exact .inr ⟨.inl rfl, rfl⟩
  | pkFinish =>
    rcases execPkFinish_cases h with ⟨-, rfl⟩ | ⟨-, -, rfl⟩ | ⟨-, -, -, rfl⟩ | ⟨-, -, -, rfl⟩
    · exact .inl rfl
    · exact .inr ⟨.inl rfl, rfl⟩
    · exact .inl rfl
    · exact .inr ⟨.inl rfl, rfl⟩
  | upStart k =>
    rcases execUpStart_cases h with ⟨-, rfl⟩ | ⟨-, -, -, rfl⟩
    · exact .inl rfl
    · exact .inr ⟨.inl rfl, rfl⟩
  | upNextBit =>
    rcases execUpNextBit_cases h with ⟨-, rfl⟩ | ⟨-, b, -, rfl⟩
    · exact .inl rfl
    · exact .inr ⟨.inl rfl, rfl⟩
  | decInsert v n =>
    rcases execDecInsert_cases h with ⟨-, rfl⟩ | ⟨path, last, -, ⟨e, -, rfl⟩ | ⟨d, -, rfl⟩⟩
    · exact .inl rfl
    · exact .inl rfl
    · exact .inr ⟨.inl rfl, rfl⟩
  | decStep =>
    rcases execDecStep_cases h with ⟨-, rfl⟩ | ⟨-, -, (rfl | rfl) | ⟨v, next, -, -, -, rfl⟩⟩
    · exact .inl rfl
    · exact .inl rfl
    · exact .inl rfl
    · exact .inr ⟨.inl rfl, rfl⟩

/-- Settles O14, from the fields each command writes. -/
theorem eachUnitHasItsWriters : Obligations.EachUnitHasItsWriters := by
  intro i s t h
  rcases exec_next_cases h with he | ⟨ho, he⟩
  · rw [he]
    simp [HostSideKept]
  · rw [he]
    rcases ho with ho | ho
    all_goals cases i <;> simp [State.overwritten, HostSideKept, resultCount, appendedBits, ho]

/-! What the commands outside a unit's `Written by` leave alone, one unit at a time. -/

theorem exec_params (h : exec i s = .next t) : t.params = s.params := by
  obtain ⟨⟨hp, -⟩, -⟩ := eachUnitHasItsWriters i s t h
  exact hp

theorem exec_builder (h : exec i s = .next t) (hb : i ≠ .build) (hf : i ≠ .freqClear) (hr : i ≠ .softReset) :
    t.builder = s.builder := by
  obtain ⟨-, -, -, -, -, -, -, -, hk, -⟩ := eachUnitHasItsWriters i s t h
  exact hk hb hf hr

theorem exec_codes (h : exec i s = .next t) (hg : i ≠ .genCodes) (hb : i ≠ .build) (hf : i ≠ .freqClear)
    (hr : i ≠ .softReset) : t.codes = s.codes := by
  obtain ⟨-, -, -, -, -, -, -, -, -, hk, -⟩ := eachUnitHasItsWriters i s t h
  exact hk hg hb hf hr

theorem exec_packer (h : exec i s = .next t) (ha : appendedBits i s = none) (hp : i ≠ .pkReset) (hf : i ≠ .pkFinish)
    (hr : i ≠ .softReset) : t.packer = s.packer := by
  obtain ⟨-, -, -, -, -, -, -, -, -, -, hk, -⟩ := eachUnitHasItsWriters i s t h
  exact hk ha hp hf hr

theorem exec_pay (h : exec i s = .next t) (ha : appendedBits i s = none) (hf : i ≠ .pkFinish) : t.pay = s.pay := by
  obtain ⟨-, -, -, -, -, -, -, -, -, -, -, hk, -⟩ := eachUnitHasItsWriters i s t h
  exact hk ha hf

theorem exec_unpacker (h : exec i s = .next t) (hs : ∀ k, i ≠ .upStart k) (hn : i ≠ .upNextBit) (hd : i ≠ .decStep)
    (hr : i ≠ .softReset) : t.unpacker = s.unpacker := by
  obtain ⟨-, -, -, -, -, -, -, -, -, -, -, -, hk, -⟩ := eachUnitHasItsWriters i s t h
  exact hk hs hn hd hr

theorem exec_decoder (h : exec i s = .next t) (hc : i ≠ .decClear) (hi : ∀ v n, i ≠ .decInsert v n)
    (hr : i ≠ .softReset) : t.decoder = s.decoder := by
  obtain ⟨-, -, -, -, -, -, -, -, -, -, -, -, -, hk⟩ := eachUnitHasItsWriters i s t h
  exact hk hc hi hr

end Sys2Proof.Machine
end

section
/-! SUPPORT. One induction step for every invariant of the machine: a property that does not look at the host side is kept
by a step when a reset, a plain access and each command keep it. -/

namespace Sys2Proof.Machine

variable {s t : State}

/-- A property that CMD, STATUS's own fields, the pending events and the answer do not bear on. -/
def IgnoresHostSide (Inv : State → Prop) : Prop :=
  ∀ (s : State) (c : Word) (e : Bool) (o : CmdOutcome) (q : List PortEvent) (a : Option Answer),
    Inv s → Inv { s with cmd := c, err := e, lastRes := o, pending := q, answer := a }

theorem step_keeps {Inv : State → Prop} (hhost : IgnoresHostSide Inv)
    (hreset : ∀ k c s, Inv s → Inv (resetState k c s))
    (hplain : ∀ s t, PlainAccess s t → Inv s → Inv t)
    (hexec : ∀ i s t, exec i s = .next t → Inv s → Inv t)
    (h : step s = .next t) (hs : Inv s) : Inv t := by
  rcases step_cases h with ⟨-, rfl⟩ | ⟨e, rest, -, ⟨k, c, -, rfl⟩ | ⟨w, u, -, hu, rfl⟩ | hpl⟩
  · exact hs
  · exact hreset k c _ (hhost s s.cmd s.err s.lastRes rest s.answer hs)
  · have hw : Inv { s with cmd := w, pending := rest } := hhost s w s.err s.lastRes rest s.answer hs
    rcases runCommand_cases hu with ⟨i, -, hi⟩ | ⟨-, rfl⟩
    · exact hhost u u.cmd u.err u.lastRes u.pending (some (.ok none)) (hexec i _ u hi hw)
    · exact hhost s w true .eIllegal rest (some (.ok none)) hs
  · exact hplain _ t hpl (hhost s s.cmd s.err s.lastRes rest s.answer hs)

/-- A plain access leaves the parameters and every unit but PAY alone. -/
theorem PlainAccess.kept (h : PlainAccess s t) :
    t.params = s.params ∧ t.builder = s.builder ∧ t.codes = s.codes ∧ t.packer = s.packer ∧ t.unpacker = s.unpacker
      ∧ t.decoder = s.decoder := by
  rw [h.rest]
  exact ⟨rfl, rfl, rfl, rfl, rfl, rfl⟩

end Sys2Proof.Machine
end

section
/-! PROOFS. R36 items 3 and 4 with the parameters and PAY's form. -/

namespace Sys2Proof.Machine

variable {i : Instr} {s t : State} {bits : Bits}

/-! ### The packer and PAY -/

theorem ParamsInv.of_eq (h : ParamsInv s) (hp : t.params = s.params) : ParamsInv t := by
  unfold ParamsInv
  rwa [hp]

theorem PackerInv.fits (h : PackerInv s) : s.packer.Fits :=
  have ⟨hnb, _, hpad⟩ := h
  ⟨hnb, hpad⟩

theorem PackerInv.of_eq (h : PackerInv s) (hp : t.params = s.params) (hk : t.packer = s.packer) : PackerInv t := by
  unfold PackerInv
  rwa [hp, hk]

theorem PayInv.of_eq (h : PayInv s) (hp : t.params = s.params) (hk : t.pay = s.pay) : PayInv t := by
  unfold PayInv
  rwa [hp, hk]

/-- PK_RESET's packer meets its invariant. -/
theorem packerInv_of_reset (h : t.packer = Packer.reset) : PackerInv t := by
  unfold PackerInv
  rw [h]
  exact ⟨Nat.zero_le _, Nat.zero_le _, rfl⟩

/-- How an append of `bits` ends (R102): the packer and PAY stay, or the bits fit and are pushed. -/
def KeptOrPushed (bits : Bits) (s t : State) : Prop :=
  (t.packer = s.packer ∧ t.pay = s.pay)
  ∨ (s.packer.wptr.toNat + bytesCompleted s.packer bits ≤ s.params.payBytes
      ∧ t.packer = (pushBits s.packer s.pay bits).1 ∧ t.pay = (pushBits s.packer s.pay bits).2)

theorem complete_append_keptOrPushed (h : complete s (append bits s) = .next t) : KeptOrPushed bits s t := by
  rcases complete_append_cases h with ⟨-, rfl⟩ | ⟨-, -, rfl⟩ | ⟨-, hf, rfl⟩
  · exact .inl ⟨rfl, rfl⟩
  · exact .inl ⟨rfl, rfl⟩
  · exact .inr ⟨hf, rfl, rfl⟩

theorem exec_append_keptOrPushed (hb : appendedBits i s = some bits) (h : exec i s = .next t) :
    KeptOrPushed bits s t := by
  cases i with
  | pkAppendBit b =>
    cases hb
    rcases execPkAppendBit_cases h with ⟨-, rfl⟩ | ⟨-, h⟩
    · exact .inl ⟨rfl, rfl⟩
    · exact complete_append_keptOrPushed h
  | pkAppendBits n =>
    cases hb
    exact complete_append_keptOrPushed h
  | pkEncode v =>
    cases hb
    rcases execPkEncode_cases h with ⟨-, rfl⟩ | ⟨-, -, -, rfl⟩ | ⟨-, -, -, -, rfl⟩ | ⟨-, -, -, hf, rfl⟩
    · exact .inl ⟨rfl, rfl⟩
    · exact .inl ⟨rfl, rfl⟩
    · exact .inl ⟨rfl, rfl⟩
    · exact .inr ⟨hf, rfl, rfl⟩
  | _ => cases hb

/-- Bits that fit leave the packer in its ranges, padded, and PAY in its form and size. -/
theorem pushBits_keeps (hw : ParamsInv s) (hk : PackerInv s) (hm : PayInv s)
    (hfit : s.packer.wptr.toNat + bytesCompleted s.packer bits ≤ s.params.payBytes)
    (htp : t.params = s.params) (htk : t.packer = (pushBits s.packer s.pay bits).1)
    (htm : t.pay = (pushBits s.packer s.pay bits).2) : PackerInv t ∧ PayInv t := by
  have ⟨_, hmax, _⟩ := hw
  have hroom : s.packer.wptr.toNat + (s.packer.nb + bits.length) / 8 < 2 ^ 32 := by
    unfold bytesCompleted at hfit
    omega
  have hfits := pushBits_fits hk.fits s.pay bits
  obtain ⟨hwptr, -⟩ := pushBits_counts hk.fits s.pay bits hroom
  unfold PackerInv PayInv
  rw [htp, htk, htm]
  have ⟨hform, hsize⟩ := hm
  refine ⟨⟨hfits.nb_le, by rw [hwptr]; exact hfit, hfits.padded⟩, pushBits_wf hform _ _, fun e he => ?_⟩
  rcases pushBits_mem hk.fits s.pay bits hroom he with hnew | hold
  · omega
  · exact hsize e hold

theorem execPkFinish_keeps (hw : ParamsInv s) (hk : PackerInv s) (hm : PayInv s) (h : execPkFinish s = .next t) :
    PackerInv t ∧ PayInv t := by
  rcases execPkFinish_cases h with ⟨-, rfl⟩ | ⟨-, -, rfl⟩ | ⟨-, -, -, rfl⟩ | ⟨-, -, hfit, rfl⟩
  · exact ⟨hk, hm⟩
  · have ⟨_, hwptr, _⟩ := hk
    exact ⟨⟨Nat.zero_le _, hwptr, rfl⟩, hm⟩
  · exact ⟨hk, hm⟩
  · have ⟨_, hmax, _⟩ := hw
    have ⟨hform, hsize⟩ := hm
    have hnext := toNat_add_one (x := s.packer.wptr) (by omega)
    refine ⟨⟨Nat.zero_le _, Nat.le_trans (Nat.le_of_eq hnext) hfit, rfl⟩, Memory.wf_write hform _ _, fun e he => ?_⟩
    rcases Memory.mem_write he with rfl | hold
    · exact hfit
    · exact hsize e hold

theorem exec_keeps_packer_and_pay (hw : ParamsInv s) (hk : PackerInv s) (hm : PayInv s) (h : exec i s = .next t) :
    PackerInv t ∧ PayInv t := by
  have hp := exec_params h
  cases hb : appendedBits i s with
  | some bits =>
    rcases exec_append_keptOrPushed hb h with ⟨hpk, hpay⟩ | ⟨hfit, hpk, hpay⟩
    · exact ⟨hk.of_eq hp hpk, hm.of_eq hp hpay⟩
    · exact pushBits_keeps hw hk hm hfit hp hpk hpay
  | none =>
    by_cases hf : i = .pkFinish
    · subst hf
      exact execPkFinish_keeps hw hk hm h
    · refine ⟨?_, hm.of_eq hp (exec_pay h hb hf)⟩
      by_cases hr : i = .pkReset
      · subst hr
        cases h
        exact packerInv_of_reset rfl
      · by_cases hs : i = .softReset
        · subst hs
          cases h
          exact packerInv_of_reset rfl
        · exact hk.of_eq hp (exec_packer h hb hr hf hs)

/-! ### The unpacker -/

theorem UnpackerInv.of_eq (h : UnpackerInv s) (hp : t.params = s.params) (hk : t.unpacker = s.unpacker) :
    UnpackerInv t := by
  unfold UnpackerInv
  rwa [hp, hk]

theorem unpackerInv_of_reset (h : t.unpacker = Unpacker.reset) : UnpackerInv t := by
  unfold UnpackerInv
  rw [h]
  exact ⟨by decide, by decide, Nat.zero_le _, Nat.zero_le _⟩

/-- T fits in UP_POS's 35 bits. -/
theorem meaningfulBits_lt {u : Unpacker} (hv : u.valid.toNat ≤ 8) : meaningfulBits u < 2 ^ 35 := by
  have hl := u.len.isLt
  unfold meaningfulBits
  split <;> omega

/-- A new position up to T keeps the invariant. -/
theorem UnpackerInv.moved (h : UnpackerInv s) {p : BitVec 35} (hp : p.toNat ≤ meaningfulBits s.unpacker)
    (htp : t.params = s.params) (htu : t.unpacker = { s.unpacker with pos := p }) : UnpackerInv t := by
  obtain ⟨h1, h2, h3, -⟩ := h
  unfold UnpackerInv
  rw [htp, htu]
  exact ⟨h1, h2, h3, hp⟩

theorem exec_keeps_unpacker (hu : UnpackerInv s) (h : exec i s = .next t) : UnpackerInv t := by
  have hp := exec_params h
  have ⟨_, hvalid, _, hpos⟩ := hu
  have hlt := meaningfulBits_lt hvalid
  cases i with
  | upStart k =>
    rcases execUpStart_cases h with ⟨-, rfl⟩ | ⟨h1, h8, hl, rfl⟩
    · exact hu
    · have hk : (k.setWidth 4).toNat = k.toNat := by
        rw [BitVec.toNat_setWidth, Nat.mod_eq_of_lt (by omega)]
      exact ⟨Nat.le_trans h1 (Nat.le_of_eq hk.symm), Nat.le_trans (Nat.le_of_eq hk) h8, hl, Nat.zero_le _⟩
  | upNextBit =>
    rcases execUpNextBit_cases h with ⟨-, rfl⟩ | ⟨hne, b, -, rfl⟩
    · exact hu
    · refine hu.moved (p := s.unpacker.pos + 1) ?_ rfl rfl
      rw [BitVec.toNat_add, show (1 : BitVec 35).toNat = 1 from rfl, Nat.mod_eq_of_lt (by omega)]
      omega
  | decStep =>
    rcases execDecStep_cases h with ⟨-, rfl⟩ | ⟨-, -, (rfl | rfl) | ⟨v, next, hgt, hle, -, rfl⟩⟩
    · exact hu
    · exact hu
    · exact hu
    · refine hu.moved (p := BitVec.ofNat 35 next) ?_ rfl rfl
      rw [BitVec.toNat_ofNat, Nat.mod_eq_of_lt (by omega)]
      omega
  | softReset =>
    cases h
    exact unpackerInv_of_reset rfl
  | _ => exact hu.of_eq hp (exec_unpacker h (by simp) (by simp) (by simp) (by simp))

/-! ### The step -/

/-- R36 items 3 and 4, the parameters `p` in range, and PAY's form: what StepKeepsTheStreamInvariants keeps. -/
structure StreamInv (p : Params) (s : State) : Prop where
  params_eq : s.params = p
  params : ParamsInv s
  packer : PackerInv s
  unpacker : UnpackerInv s
  pay : PayInv s

variable {p : Params}

theorem StreamInv.exec (hs : StreamInv p s) (h : exec i s = .next t) : StreamInv p t := by
  have hp := exec_params h
  obtain ⟨hk, hm⟩ := exec_keeps_packer_and_pay hs.params hs.packer hs.pay h
  exact ⟨hp.trans hs.params_eq, hs.params.of_eq hp, hk, exec_keeps_unpacker hs.unpacker h, hm⟩

theorem StreamInv.plainAccess (hs : StreamInv p s) (h : PlainAccess s t) : StreamInv p t := by
  obtain ⟨hp, -, -, hk, hu, -⟩ := h.kept
  refine ⟨hp.trans hs.params_eq, hs.params.of_eq hp, hs.packer.of_eq hp hk,
    hs.unpacker.of_eq hp hu, ?_⟩
  rcases h.pay with hm | ⟨a, size, v, hok, hm⟩
  · exact hs.pay.of_eq hp hm
  · have hend : a + size.bytes ≤ s.params.payBytes := by
      simp only [payAccessOk, decide_eq_true_eq] at hok
      exact hok.2
    unfold PayInv
    rw [hp, hm]
    refine ⟨memWrite_wf hs.pay.1 _ _ _, fun e he => ?_⟩
    rcases memWrite_mem he with hnew | hold
    · omega
    · exact hs.pay.2 e hold

theorem StreamInv.reset (hs : StreamInv p s) (k : ResetKind) (c : Bool) : StreamInv p (resetState k c s) := by
  refine ⟨hs.params_eq, hs.params, packerInv_of_reset rfl, unpackerInv_of_reset rfl, ?_⟩
  cases k with
  | powerOn => exact ⟨List.Pairwise.nil, by simp⟩
  | hardware =>
    cases c with
    | false => exact hs.pay
    | true =>
      refine ⟨Memory.wf_clearMarks hs.pay.1 _ _, fun e he => ?_⟩
      exact hs.pay.2 e (List.mem_filter.1 he).1

/-- Settles O54: each command, reset and access keeps `StreamInv` of the same parameters. -/
theorem stepKeepsTheStreamInvariants : Obligations.StepKeepsTheStreamInvariants := by
  intro s t hw hk hu hm h
  have ht : StreamInv s.params t :=
    step_keeps (fun _ _ _ _ _ _ hs => ⟨hs.params_eq, hs.params, hs.packer, hs.unpacker, hs.pay⟩)
      (fun k c _ hs => hs.reset k c) (fun _ _ hpl hs => hs.plainAccess hpl) (fun _ _ _ he hs => hs.exec he) h
      ⟨rfl, hw, hk, hu, hm⟩
  exact ⟨ht.params_eq, ht.params, ht.packer, ht.unpacker, ht.pay⟩

end Sys2Proof.Machine
end
section
/-! PROOFS. R36 items 1 and 2: the builder tree and the code table. -/

namespace Sys2Proof.Machine

variable {i : Instr} {s t : State}

theorem TreeInv.of_eq (h : TreeInv s) (hb : t.builder = s.builder) : TreeInv t := by
  unfold TreeInv
  rwa [hb]

theorem CodesInv.of_eq (h : CodesInv s) (hb : t.builder = s.builder) (hc : t.codes = s.codes) : CodesInv t := by
  unfold CodesInv
  rwa [hb, hc]

/-- With TREE_VALID and CODES_VALID 0 nothing is claimed of the tree and the codes. -/
theorem treeInv_of_invalid (h : t.builder.valid = false) : TreeInv t := fun hv => by simp [h] at hv

theorem codesInv_of_invalid (h : t.codes.valid = false) : CodesInv t := fun hv => by simp [h] at hv

/-- What GEN_CODES records for each byte of a tree of R36's shape: the path to its leaf, or no code outside the tree. -/
theorem TreeInv.generated (ht : TreeInv s) (hv : s.builder.valid = true) (v : Byte) :
    (ByteTable.get s.builder.inTree v = true ∧ ∃ p, p ≠ [] ∧ (v.toNat, p) ∈ s.builder.leaves
      ∧ (ByteTable.get (generateCodes s.builder).clen v).toNat = p.length
      ∧ ByteTable.get (generateCodes s.builder).cbits v = p)
    ∨ (ByteTable.get s.builder.inTree v = false ∧ ByteTable.get (generateCodes s.builder).clen v = 0
      ∧ ByteTable.get (generateCodes s.builder).cbits v = []) := by
  rcases ht.leaf_cases hv v with ⟨hin, p, hne, hmem, hone⟩ | ⟨hout, hnone⟩
  · exact .inl ⟨hin, p, hne, hmem, generateCodes_leaf hone⟩
  · exact .inr ⟨hout, generateCodes_absent hnone⟩

/-- A byte has a code exactly when it is in the tree. -/
theorem TreeInv.generated_clen (ht : TreeInv s) (hv : s.builder.valid = true) (v : Byte) :
    ByteTable.get (generateCodes s.builder).clen v ≠ 0 ↔ ByteTable.get s.builder.inTree v = true := by
  rcases ht.generated hv v with ⟨hin, p, hne, -, hlen, -⟩ | ⟨hout, hlen, -⟩
  · refine iff_of_true (fun h0 => hne ?_) hin
    rw [h0] at hlen
    exact List.length_eq_zero_iff.1 hlen.symm
  · simp [hout, hlen]

/-- No two codes are such that one begins the other, since no leaf lies below another. -/
theorem TreeInv.generated_prefix_free (ht : TreeInv s) (hv : s.builder.valid = true) {v w : Byte} (hvw : v ≠ w)
    (hcv : ByteTable.get (generateCodes s.builder).clen v ≠ 0) (hcw : ByteTable.get (generateCodes s.builder).clen w ≠ 0) :
    ¬ ByteTable.get (generateCodes s.builder).cbits v <+: ByteTable.get (generateCodes s.builder).cbits w := by
  rcases ht.generated hv v with ⟨-, p, -, hp, -, hbv⟩ | ⟨-, h0, -⟩
  · rcases ht.generated hv w with ⟨-, q, -, hq, -, hbw⟩ | ⟨-, h0, -⟩
    · rw [hbv, hbw]
      intro hpre
      have he := leaf_paths_prefix_free (e := (v.toNat, p)) (e' := (w.toNat, q)) hp hq hpre
      exact hvw (BitVec.eq_of_toNat_eq (congrArg Prod.fst he))
    · exact absurd h0 hcw
  · exact absurd h0 hcv

/-- NCODES is NLEAVES: both count the bytes in the tree. -/
theorem TreeInv.generated_nCodes (ht : TreeInv s) (hv : s.builder.valid = true) :
    (generateCodes s.builder).nCodes = s.builder.nLeaves := by
  have hn : (generateCodes s.builder).nCodes
      = (ByteTable.keysWhere (generateCodes s.builder).clen fun n => n ≠ 0).length := rfl
  obtain ⟨-, hleaves, -⟩ := ht hv
  rw [hn, hleaves, ByteTable.keysWhere_length, ByteTable.keysWhere_length]
  refine congrArg List.length (List.filter_congr fun v _ => ?_)
  have hiff := ht.generated_clen hv (BitVec.ofNat 8 v)
  rw [id, Bool.eq_iff_iff, decide_eq_true_iff]
  exact hiff

/-- The code table GEN_CODES makes meets R36 item 2. -/
theorem TreeInv.codesInv_generated (ht : TreeInv s) (hv : s.builder.valid = true) (hb : t.builder = s.builder)
    (hc : t.codes = generateCodes s.builder) : CodesInv t := by
  unfold CodesInv
  rw [hb, hc]
  refine fun _ => ⟨hv, ht.generated_clen hv, fun v => ?_, fun _ _ => ht.generated_prefix_free hv, ht.generated_nCodes hv,
    (generateCodes_maxLen s.builder).1⟩
  rcases ht.generated hv v with ⟨-, p, -, -, hlen, hbits⟩ | ⟨-, hlen, hbits⟩
  · rw [hlen, hbits]
  · rw [hlen, hbits]
    rfl

/-- BUILD leaves no codes, and no tree (EMPTY) or the merged one (OK); E_OVERFLOW discards every change. -/
theorem execBuild_keeps_tree_and_codes (ht : TreeInv s) (hc : CodesInv s) (h : execBuild s = .next t) :
    TreeInv t ∧ CodesInv t := by
  rcases execBuild_cases h with ⟨-, rfl⟩ | ⟨-, -, rfl⟩ | ⟨hne, hfit, rfl⟩
  · exact ⟨treeInv_of_invalid rfl, codesInv_of_invalid rfl⟩
  · exact ⟨ht, hc⟩
  · exact ⟨(buildTree_builtFrom s.freq s.builder hne (by omega)).treeInv hne rfl, codesInv_of_invalid rfl⟩

theorem execGenCodes_keeps_codes (ht : TreeInv s) (hc : CodesInv s) (h : execGenCodes s = .next t) : CodesInv t := by
  rcases execGenCodes_cases h with ⟨-, rfl⟩ | ⟨hv, rfl⟩
  · exact hc
  · exact ht.codesInv_generated hv rfl rfl

theorem exec_keeps_tree_and_codes (h : exec i s = .next t) (hs : TreeInv s ∧ CodesInv s) : TreeInv t ∧ CodesInv t := by
  obtain ⟨ht, hc⟩ := hs
  cases i with
  | build => exact execBuild_keeps_tree_and_codes ht hc h
  | genCodes =>
    exact ⟨ht.of_eq (exec_builder h (by simp) (by simp) (by simp)), execGenCodes_keeps_codes ht hc h⟩
  | freqClear | softReset =>
    cases h
    exact ⟨treeInv_of_invalid rfl, codesInv_of_invalid rfl⟩
  | _ =>
    have hb := exec_builder h (by simp) (by simp) (by simp)
    exact ⟨ht.of_eq hb, hc.of_eq hb (exec_codes h (by simp) (by simp) (by simp) (by simp))⟩

/-- Settles O55: a step keeps both invariants together, because the codes are those of the tree. -/
theorem stepKeepsTheTreeAndCodeInvariants : Obligations.StepKeepsTheTreeAndCodeInvariants := by
  intro s t ht hc h
  refine step_keeps (Inv := fun s => TreeInv s ∧ CodesInv s) (fun _ _ _ _ _ _ hs => hs)
    (fun _ _ _ _ => ⟨treeInv_of_invalid rfl, codesInv_of_invalid rfl⟩) (fun s t hpl hs => ?_)
    (fun _ _ _ => exec_keeps_tree_and_codes) h ⟨ht, hc⟩
  obtain ⟨-, hb, hc, -⟩ := hpl.kept
  exact ⟨hs.1.of_eq hb, hs.2.of_eq hb hc⟩

end Sys2Proof.Machine
end

section
/-! PROOFS. R36 item 5: the decoder tree. -/

namespace Sys2Proof.Machine

variable {i : Instr} {s t : State} {d : Decoder}

/-- R36 item 5 of a decoder tree within `cap` nodes, in terms of its shape and its slot counts. -/
structure Decoder.Sound (d : Decoder) (cap : Nat) : Prop where
  shaped : d.Shaped
  room : d.dnCount ≤ cap
  rise : KeysRise d.dn
  nonempty : ∀ e ∈ d.dn, e.2 ≠ DNode.empty
  node : ∀ j, 1 ≤ j → j < d.dnCount → d.slotCount (fun c => decide (c = .node j)) = 1
  leaf : ∀ v : Byte, d.slotCount (fun c => decide (c = .leaf v)) = if ByteTable.get d.seen v then 1 else 0
  nEnt : d.nEnt = (ByteTable.keysWhere d.seen id).length

theorem decoderInv_iff (s : State) : DecoderInv s ↔ s.decoder.Sound s.params.decIntCap := by
  constructor
  · intro h
    have hsh := h.shaped
    obtain ⟨-, hcap, hrise, hne, -, hnode, hleaf, hent, -⟩ := h
    exact ⟨hsh, hcap, hrise, hne, hnode, hleaf, hent⟩
  · intro h
    refine ⟨h.shaped.pos, h.room, h.rise, h.nonempty, fun i j hm => ?_, h.node, h.leaf, h.nEnt,
      fun p q v w hp hq hpq => byteOf_prefix_free _ hp hq hpq⟩
    obtain ⟨hi, b, hc⟩ := (mem_slots _ _ _).1 hm
    exact h.shaped.up i b j hi hc

/-! ### The empty tree -/

/-- The decoder tree with no code: what DEC_CLEAR (R113) and every reset leave. -/
structure Decoder.Cleared (d : Decoder) : Prop where
  root : d.nodeAt 0 = DNode.empty
  dnCount : d.dnCount = 1
  seen : d.seen = Vector.replicate 256 false
  nEnt : d.nEnt = 0
  rise : KeysRise d.dn
  nonempty : ∀ e ∈ d.dn, e.2 ≠ DNode.empty

theorem Decoder.Cleared.child (h : d.Cleared) (b : Bool) : d.child 0 b = .none := by
  rw [Decoder.child, h.root, child_empty]

theorem Decoder.Cleared.slotCount (h : d.Cleared) {P : DChild → Bool} (hP : P .none = false) : d.slotCount P = 0 := by
  rw [slotCount_eq, h.dnCount]
  simp [h.child, hP]

theorem Decoder.Cleared.sound (h : d.Cleared) {cap : Nat} (hcap : 1 ≤ cap) : d.Sound cap := by
  have hroot {i : Nat} {b : Bool} (hi : i < d.dnCount) : d.child i b = .none := by
    have := h.dnCount
    obtain rfl : i = 0 := by omega
    exact h.child b
  have hone := h.dnCount
  refine ⟨⟨Nat.le_of_eq hone.symm, fun i b j hi hc => ?_, fun i b i' b' j hi _ hc => ?_⟩,
    Nat.le_trans (Nat.le_of_eq hone) hcap, h.rise, h.nonempty, fun j h1 h2 => by omega, fun v => ?_, ?_⟩
  · rw [hroot hi] at hc
    cases hc
  · rw [hroot hi] at hc
    cases hc
  · rw [h.slotCount (by simp), h.seen]
    simp
  · rw [h.nEnt, h.seen, ByteTable.keysWhere_length]
    exact (List.length_eq_zero_iff.2 (List.filter_eq_nil_iff.2 fun v _ => by simp)).symm

theorem cleared_reset : Decoder.reset.Cleared := ⟨rfl, rfl, rfl, rfl, List.Pairwise.nil, by simp [Decoder.reset]⟩

/-- DEC_CLEAR's tree, whatever it was before. -/
theorem Decoder.Sound.cleared {cap : Nat} (h : d.Sound cap) :
    Decoder.Cleared { d.setNode 0 DNode.empty with dnCount := 1, seen := Vector.replicate 256 false, nEnt := 0 } := by
  obtain ⟨hrise, hne⟩ := Decoder.setNode_form h.rise h.nonempty 0 DNode.empty
  exact ⟨Decoder.nodeAt_setNode_same d 0 DNode.empty, rfl, rfl, rfl, hrise, hne⟩

/-! ### One insert -/

theorem keysWhere_put_new {seen : ByteTable Bool} {v : Byte} (h : ByteTable.get seen v = false) :
    (ByteTable.keysWhere (ByteTable.put seen v true) id).length = (ByteTable.keysWhere seen id).length + 1 := by
  have hv : v.toNat ∉ ByteTable.keysWhere seen id := by simp [ByteTable.mem_keysWhere, h]
  have hperm : (ByteTable.keysWhere (ByteTable.put seen v true) id).Perm (v.toNat :: ByteTable.keysWhere seen id) := by
    refine (List.perm_ext_iff_of_nodup (ByteTable.keysWhere_nodup _ _)
      (List.nodup_cons.2 ⟨hv, ByteTable.keysWhere_nodup _ _⟩)).2 fun k => ?_
    by_cases hk : k < 256
    · obtain ⟨w, rfl⟩ : ∃ w : Byte, w.toNat = k := ⟨BitVec.ofNat 8 k, by simp [Nat.mod_eq_of_lt hk]⟩
      rw [List.mem_cons, ByteTable.mem_keysWhere, ByteTable.mem_keysWhere, ByteTable.get_put, BitVec.toNat_inj]
      by_cases hw : w = v <;> simp [hw]
    · refine iff_of_false (fun hm => hk (ByteTable.keysWhere_lt hm)) fun hm => ?_
      rcases List.mem_cons.1 hm with rfl | hm
      · exact hk v.isLt
      · exact hk (ByteTable.keysWhere_lt hm)
  exact hperm.length_eq

/-- A leaf for a byte with none, placed in an empty slot of a node in use. -/
theorem Decoder.Sound.placeLeaf {cap j : Nat} {b : Bool} {v : Byte} (h : d.Sound cap) (hj : j < d.dnCount)
    (hn : d.child j b = .none) (hv : ByteTable.get d.seen v = false) :
    Decoder.Sound { d.setChild j b (.leaf v) with seen := ByteTable.put d.seen v true, nEnt := d.nEnt + 1 } cap := by
  obtain ⟨hrise, hne⟩ := Decoder.setNode_form h.rise h.nonempty j ((d.nodeAt j).setChild b (.leaf v))
  have hcount {P : DChild → Bool} (hP : P .none = false) :
      (d.setChild j b (.leaf v)).slotCount P = d.slotCount P + (P (.leaf v)).toNat :=
    setChild_slotCount d hj (by rw [hn]; exact hP)
  have hleaf : (d.setChild j b (.leaf v)).Shaped := h.shaped.leaf
  refine ⟨⟨hleaf.pos, hleaf.up, hleaf.once⟩, h.room, hrise, hne, fun k h1 h2 => ?_, fun w => ?_, ?_⟩
  · refine (hcount (P := fun c => decide (c = .node k)) (by simp)).trans ?_
    rw [h.node k h1 h2]
    simp
  · refine (hcount (P := fun c => decide (c = .leaf w)) (by simp)).trans ?_
    rw [h.leaf w]
    dsimp only
    rw [ByteTable.get_put]
    by_cases hw : w = v
    · simp [hw, hv]
    · simp [hw, Ne.symm hw]
  · exact (congrArg (· + 1) h.nEnt).trans (keysWhere_put_new hv).symm

/-- The missing nodes of a path, allocated. -/
theorem Decoder.Sound.extendPath {cap j : Nat} {pre rest : Bits} (h : d.Sound cap) (hr : d.reach 0 pre = some j)
    (hn : ∀ b rest', rest = b :: rest' → d.child j b = .none) (hroom : d.dnCount + rest.length ≤ cap) :
    (extendPath d j rest).1.Sound cap := by
  obtain ⟨hsh, hcount, hseen, hent, -⟩ := extendPath_spec h.shaped hr hn
  obtain ⟨hleaf, hnode, -⟩ := extendPath_slotCount h.shaped (h.shaped.reach_lt h.shaped.pos hr) hn
  obtain ⟨hrise, hne⟩ := extendPath_form h.rise h.nonempty j rest
  exact ⟨hsh, Nat.le_trans (Nat.le_of_eq hcount) hroom, hrise, hne, hnode h.node, fun v => by rw [hleaf, hseen]; exact h.leaf v,
    by rw [hent, hseen]; exact h.nEnt⟩

/-- DEC_INSERT's changes (R114): the missing nodes, then the leaf. -/
theorem Decoder.Sound.insertCode {d' : Decoder} {cap : Nat} {v : Byte} {path : Bits} {last : Bool} (h : d.Sound cap)
    (hi : insertCode cap d v path last = .ok d') : d'.Sound cap := by
  rcases insertCode_cases cap d v path last with ⟨-, e⟩ | ⟨-, -, e⟩ | ⟨node, rest, hv, hf, hend⟩
  · rw [e] at hi; cases hi
  · rw [e] at hi; cases hi
  · rcases hend with ⟨-, -, e⟩ | ⟨-, -, e⟩ | ⟨hfree, hroom, e⟩
    · rw [e] at hi; cases hi
    · rw [e] at hi; cases hi
    · rw [e] at hi
      cases hi
      obtain ⟨pre, hr, hn⟩ : ∃ pre, d.reach 0 pre = some node ∧ ∀ b rest', rest = b :: rest' → d.child node b = .none := by
        rcases followPath_cases d 0 path with ⟨hnone, -⟩ | ⟨pre, rest', j, hsome, -, hr, hn⟩
        · rw [hnone] at hf; cases hf
        · rw [hsome] at hf; cases hf; exact ⟨pre, hr, hn⟩
      obtain ⟨-, -, hseen, -, -, hnew, hsame, -⟩ := extendPath_spec h.shaped hr hn
      obtain ⟨-, -, hlt⟩ := extendPath_slotCount h.shaped (h.shaped.reach_lt h.shaped.pos hr) hn
      refine (h.extendPath hr hn hroom).placeLeaf hlt ?_ (by rw [hseen]; exact hv)
      by_cases hrest : rest = []
      · rw [hsame hrest]
        exact hfree.resolve_left (not_not_intro hrest)
      · exact hnew last hrest

/-! ### The step -/

theorem DecoderInv.of_eq (h : DecoderInv s) (hp : t.params = s.params) (hd : t.decoder = s.decoder) : DecoderInv t := by
  unfold DecoderInv
  rwa [hp, hd]

theorem one_le_decIntCap {p : Params} (h : p.wf) : 1 ≤ p.decIntCap := by
  obtain ⟨-, -, hcap, -⟩ := h
  omega

theorem exec_keeps_decoderInv (hw : ParamsInv s) (h : exec i s = .next t) (hs : DecoderInv s) : DecoderInv t := by
  have hsound := (decoderInv_iff s).1 hs
  cases i with
  | decClear | softReset =>
    cases h
    exact (decoderInv_iff _).2 (hsound.cleared.sound (one_le_decIntCap hw))
  | decInsert v n =>
    rcases execDecInsert_cases h with ⟨-, rfl⟩ | ⟨path, last, -, ⟨e, -, rfl⟩ | ⟨d, hi, rfl⟩⟩
    · exact hs
    · exact hs
    · exact (decoderInv_iff _).2 (hsound.insertCode hi)
  | _ => exact hs.of_eq (exec_params h) (exec_decoder h (by simp) (by simp) (by simp))

/-- Settles O56: the parameters' ranges go along, because an empty tree needs room for its root. -/
theorem stepKeepsTheDecoderInvariant : Obligations.StepKeepsTheDecoderInvariant := by
  intro s t hw hd h
  refine (step_keeps (Inv := fun s => ParamsInv s ∧ DecoderInv s) (fun _ _ _ _ _ _ hs => hs) (fun k c s hs => ?_)
    (fun s t hpl hs => ?_) (fun i s t he hs => ?_) h ⟨hw, hd⟩).2
  · exact ⟨hs.1, (decoderInv_iff _).2 (cleared_reset.sound (one_le_decIntCap hs.1))⟩
  · obtain ⟨hp, -, -, -, -, hdec⟩ := hpl.kept
    exact ⟨hs.1.of_eq hp, hs.2.of_eq hp hdec⟩
  · exact ⟨hs.1.of_eq (exec_params he), exec_keeps_decoderInv hs.1 he hs.2⟩

end Sys2Proof.Machine
end
section
/-! PROOFS. STATUS bit by bit (R20). -/

namespace Sys2Proof.Machine

theorem getLsbD_flagBit {k : Nat} (hk : k < 32) (b : Bool) (n : Nat) : (flagBit k b).getLsbD n = (decide (n = k) && b) := by
  simp only [flagBit, BitVec.getLsbD_shiftLeft, BitVec.getLsbD_setWidth, BitVec.getLsbD_ofBool]
  by_cases h : n = k
  · simp [h, hk]
  · by_cases hlt : n < k
    · simp [h, hlt]
    · simp [h, show n - k ≠ 0 by omega]

theorem getLsbD_codeField (c : BitVec 4) (n : Nat) :
    (c.setWidth 32 <<< 4 : Word).getLsbD n = (decide (4 ≤ n ∧ n < 8) && c.getLsbD (n - 4)) := by
  simp only [BitVec.getLsbD_shiftLeft, BitVec.getLsbD_setWidth]
  by_cases h8 : n < 8
  · by_cases h4 : n < 4
    · simp [h4, show ¬ 4 ≤ n by omega]
    · simp [h4, h8, show n < 32 by omega, show n - 4 < 32 by omega, show 4 ≤ n by omega]
  · simp [h8, BitVec.getLsbD_of_ge c (n - 4) (by omega)]

/-- Settles O48: each field of STATUS has its own bits. -/
theorem statusBits : Obligations.StatusBits := by
  intro s n
  have hbit : (statusWord s).getLsbD n =
      (decide (n = 0) && s.err || decide (4 ≤ n ∧ n < 8) && s.lastRes.code.getLsbD (n - 4)
        || decide (n = 8) && s.builder.valid || decide (n = 9) && s.codes.valid || decide (n = 10) && s.packer.closed
        || decide (n = 11) && decide (0 < s.decoder.nEnt)) := by
    simp only [statusWord, BitVec.getLsbD_or, getLsbD_codeField, Decoder.nonempty]
    rw [getLsbD_flagBit (by decide), getLsbD_flagBit (by decide), getLsbD_flagBit (by decide),
      getLsbD_flagBit (by decide), getLsbD_flagBit (by decide)]
  rw [hbit]
  by_cases h : n < 12
  · match n, h with
    | 0, _ | 1, _ | 2, _ | 3, _ | 4, _ | 5, _ | 6, _ | 7, _ | 8, _ | 9, _ | 10, _ | 11, _ => simp
  · simp [show n ≠ 0 by omega, show ¬ n < 4 by omega, show ¬ n < 8 by omega, show n ≠ 8 by omega, show n ≠ 9 by omega,
      show n ≠ 10 by omega, show n ≠ 11 by omega]

end Sys2Proof.Machine
end

section
/-! PROOFS. The step of a CMD write (R18, R43, R66). -/

namespace Sys2Proof.Machine

variable {s : State}

theorem complete_ne_refused (x : Except CmdOutcome State) (r : Refusal) : complete s x ≠ .refused r := by
  cases x <;> simp

/-- No command is refused. -/
theorem exec_ne_refused (i : Instr) (s : State) (r : Refusal) : exec i s ≠ .refused r := by
  cases i with
  | nop | clearStatus | softReset | freqClear | freqSet v | freqGet v | pkReset | decClear => exact nofun
  | build | readNode | genCodes | getCode v | pkFinish | upStart k =>
    simp only [exec, execBuild, execReadNode, execGenCodes, execGetCode, execPkFinish, execUpStart]
    repeat' split
    all_goals exact nofun
  | pkAppendBit b =>
    simp only [exec, execPkAppendBit]
    split
    · exact nofun
    · exact complete_ne_refused _ r
  | pkAppendBits n => exact complete_ne_refused _ r
  | pkEncode v =>
    simp only [exec, execPkEncode]
    repeat' split
    · exact nofun
    · exact nofun
    · exact nofun
    · exact complete_ne_refused _ r
  | decInsert v n =>
    simp only [exec, execDecInsert]
    split
    · exact nofun
    · exact complete_ne_refused _ r
  | upNextBit =>
    simp only [exec, execUpNextBit]
    split
    · exact nofun
    · split <;> exact nofun
  | decStep =>
    simp only [exec, execDecStep]
    split
    · exact nofun
    · split
      · exact nofun
      · split <;> exact nofun

/-- A CMD write at the head of the pending events is the step: its command runs with the event taken. -/
theorem step_commandWrite {w : Word} {rest : List PortEvent} (h : s.pending = commandWrite w :: rest) :
    step s = answerCommand (runCommand w { s with pending := rest }) := by
  rw [step, stepPort, h]
  rfl

theorem runCommand_decoded {w : Word} {i : Instr} (h : decode w = .ok i) :
    runCommand w s = exec i { s with cmd := w } := by
  rw [runCommand, h]

/-- Settles O6: a command answers a next state or a fault, for none is refused. -/
theorem stepRunsTheDecodedCommand : Obligations.StepRunsTheDecodedCommand := by
  intro s w rest i hp hd
  rw [step_commandWrite hp, runCommand_decoded hd]
  cases he : exec i { s with cmd := w, pending := rest } with
  | next t => exact .inl ⟨t, rfl, rfl⟩
  | fault f => exact .inr ⟨f, rfl, rfl⟩
  | refused r => exact absurd he (exec_ne_refused i _ r)

end Sys2Proof.Machine
end

section
/-! PROOFS. Register reads (R15) and the state after reset (R35, R36). -/

namespace Sys2Proof.Machine

variable {s : State}

theorem regAt_cb (k : Fin 8) : regAt (0x040 + 4 * k.val) = some (.cb k) := by
  revert k
  decide

/-- A 4-byte read of a mapped offset answers its register and changes the answer alone. -/
theorem serve_readReg {offset : Nat} {r : Reg} (h : regAt offset = some r) :
    serve (.read .reg offset .four) s = .next { s with answer := some (.ok (some (readReg r s))) } := by
  simp only [serve, regOfAccess, if_pos, h]
  rfl

/-- Settles O45, by the register each offset names. -/
theorem registerReadsFollowTheMap : Obligations.RegisterReadsFollowTheMap := fun _ =>
  ⟨serve_readReg (r := .cmd) rfl, serve_readReg (r := .status) rfl, serve_readReg (r := .arg0) rfl,
    serve_readReg (r := .arg1) rfl, serve_readReg (r := .res0) rfl, serve_readReg (r := .res1) rfl,
    serve_readReg (r := .res2) rfl, serve_readReg (r := .res3) rfl, serve_readReg (r := .id) rfl,
    serve_readReg (r := .cfgPay) rfl, serve_readReg (r := .cfgDec) rfl, fun k => serve_readReg (regAt_cb k)⟩

theorem statusWord_resetWith (p : Params) : statusWord (State.resetWith p) = 0 := by
  simp [statusWord, State.resetWith, Builder.reset, CodeTable.reset, Packer.reset, Decoder.reset, Decoder.nonempty,
    flagBit, CmdOutcome.code]

/-- Settles O52: every entry of a reset table is the value it is filled with. -/
theorem resetValues : Obligations.ResetValues := by
  intro p
  refine ⟨rfl, rfl, statusWord_resetWith p, rfl, rfl, rfl, rfl, rfl, rfl, rfl, fun k => ?_, fun v => ?_, fun v => ?_,
    rfl, rfl, rfl, rfl, rfl, rfl, rfl, rfl, rfl, fun v => ?_, rfl, fun a => rfl⟩
  · exact Vector.getElem_replicate ..
  · exact ByteTable.get_replicate 0 v
  · exact ByteTable.get_replicate false v
  · exact ByteTable.get_replicate false v

/-- Settles O53: no tree, no codes, an empty decoder, and the streams' reset values. -/
theorem resetMeetsTheInvariants : Obligations.ResetMeetsTheInvariants := by
  intro p hp
  exact ⟨hp, packerInv_of_reset rfl, unpackerInv_of_reset rfl, ⟨List.Pairwise.nil, nofun⟩, treeInv_of_invalid rfl,
    codesInv_of_invalid rfl, (decoderInv_iff _).2 (cleared_reset.sound (one_le_decIntCap hp))⟩

end Sys2Proof.Machine
end

section
/-! PROOFS. The host port (20_memory.md): which accesses are refused, what a served one does, and the step that serves
it. -/

namespace Sys2Proof.Machine

variable {s t : State} {offset a : Nat} {size : Size} {w v : Word} {r : Reg}

/-! ### Register accesses -/

/-- The offsets that name no register (R15): a misaligned one, one in the hole below CB0, or past CB7. -/
theorem regAt_eq_none (h : offset % 4 ≠ 0 ∨ (0x02C ≤ offset ∧ offset < 0x040) ∨ 0x060 ≤ offset) :
    regAt offset = none := by
  have hcb : ¬ (0x040 ≤ offset ∧ offset < 0x060 ∧ offset % 4 = 0) := by omega
  rw [regAt, dif_neg hcb]
  repeat rw [if_neg (by omega)]

theorem regOfAccess_narrow (h : size ≠ .four) : regOfAccess offset size = none := if_neg h

@[simp] theorem regOfAccess_four (offset : Nat) : regOfAccess offset .four = regAt offset := rfl

theorem serve_readReg_none (h : regOfAccess offset size = none) : serve (.read .reg offset size) s = busError s := by
  simp only [serve, h]

theorem serve_writeReg_none (h : regOfAccess offset size = none) : serve (.write .reg offset size w) s = busError s := by
  simp only [serve, h]

theorem serve_writeReg (h : regAt offset = some r) : serve (.write .reg offset .four w) s = writeReg r w s := by
  simp only [serve, regOfAccess_four, h]

/-! ### Payload accesses -/

theorem payAccessOk_iff {p : Params} : payAccessOk p a size = true ↔ a % size.bytes = 0 ∧ a + size.bytes ≤ p.payBytes :=
  decide_eq_true_iff

theorem serve_readPay_refused (h : ¬ payAccessOk s.params a size = true) : serve (.read .pay a size) s = busError s :=
  if_neg h

theorem serve_writePay_refused (h : ¬ payAccessOk s.params a size = true) :
    serve (.write .pay a size v) s = busError s :=
  if_neg h

theorem serve_readPay (h : payAccessOk s.params a size = true) (hv : memRead s.pay a size.bytes = .ok v) :
    serve (.read .pay a size) s = .next { s with answer := some (.ok (some v)) } := by
  simp only [serve, if_pos h, hv, answerOk]

theorem serve_writePay (h : payAccessOk s.params a size = true) :
    serve (.write .pay a size v) s =
      .next { s with pay := memWrite s.pay a size.bytes v, answer := some (.ok none) } :=
  if_pos h

theorem Size.bytes_le (size : Size) : size.bytes ≤ 4 := by
  cases size <;> decide

/-- A served read answers its data or BUS_ERROR, and changes nothing else. -/
theorem serve_read_cases {aperture : Aperture} (h : serve (.read aperture offset size) s = .next t) :
    (∃ d, t = answerOk (some d) s) ∨ t = { s with answer := some .busError } := by
  cases aperture with
  | reg =>
    cases hr : regOfAccess offset size with
    | none =>
      rw [serve_readReg_none hr] at h
      cases h
      exact .inr rfl
    | some r =>
      simp only [serve, hr] at h
      cases h
      exact .inl ⟨_, rfl⟩
  | pay =>
    by_cases hok : payAccessOk s.params offset size = true
    · cases hv : memRead s.pay offset size.bytes with
      | ok v =>
        rw [serve_readPay hok hv] at h
        cases h
        exact .inl ⟨v, rfl⟩
      | error f =>
        simp only [serve, if_pos hok, hv] at h
        cases h
    · rw [serve_readPay_refused hok] at h
      cases h
      exact .inr rfl

/-! ### The obligations -/

/-- Settles O44: the access names no register, or one that refuses writes, or no bytes inside PAY. -/
theorem busErrorsChangeNothing : Obligations.BusErrorsChangeNothing := by
  intro s offset size w
  refine ⟨fun h => ?_, fun hro => ?_, fun h => ?_⟩
  · have hnone : regOfAccess offset size = none := by
      by_cases hs : size = .four
      · subst hs
        exact regAt_eq_none (h.resolve_left (not_not_intro rfl))
      · exact regOfAccess_narrow hs
    exact ⟨serve_readReg_none hnone, serve_writeReg_none hnone⟩
  · by_cases hs : size = .four
    · subst hs
      simp only [List.mem_cons, List.not_mem_nil, or_false] at hro
      rcases hro with rfl | rfl | rfl | rfl | rfl | rfl | rfl | rfl
      · exact serve_writeReg (r := .status) rfl
      · exact serve_writeReg (r := .res0) rfl
      · exact serve_writeReg (r := .res1) rfl
      · exact serve_writeReg (r := .res2) rfl
      · exact serve_writeReg (r := .res3) rfl
      · exact serve_writeReg (r := .id) rfl
      · exact serve_writeReg (r := .cfgPay) rfl
      · exact serve_writeReg (r := .cfgDec) rfl
    · exact serve_writeReg_none (regOfAccess_narrow hs)
  · have hbad : ¬ payAccessOk s.params offset size = true := by
      rw [payAccessOk_iff]
      omega
    exact ⟨serve_readPay_refused hbad, serve_writePay_refused hbad⟩

/-- Settles O46: each offset names its register, and CBk's entry of CB alone takes the word. -/
theorem registerWritesReadBack : Obligations.RegisterWritesReadBack := by
  intro s w
  refine ⟨serve_writeReg (r := .arg0) rfl, serve_writeReg (r := .arg1) rfl, fun k =>
    ⟨_, serve_writeReg (regAt_cb k), rfl, fun j => ?_, ?_⟩⟩
  · by_cases hj : j = k
    · subst hj
      simp [answerOk]
    · simp [answerOk, hj, Fin.val_inj, Ne.symm hj]
  · rw [serve_readReg (regAt_cb k)]
    simp [answerOk, readReg]

/-- Settles O49: the write's own bytes are the ones the read puts together. -/
theorem payloadWriteThenRead : Obligations.PayloadWriteThenRead := by
  intro s a size v halign hend
  have hok : payAccessOk s.params a size = true := payAccessOk_iff.2 ⟨halign, hend⟩
  have hbyte (i : Nat) (hi : i < size.bytes) :
      (memWrite s.pay a size.bytes v).read (a + i) = some ((v >>> (8 * i)).setWidth 8) :=
    memWrite_read_byte s.pay a size.bytes v i hi
  exact ⟨_, serve_writePay hok, hbyte, memWrite_read_other s.pay a size.bytes v, rfl,
    serve_readPay hok (memRead_of_bytes _ a size.bytes v size.bytes_le hbyte)⟩

/-- Settles O47: data or BUS_ERROR, a read writes the answer alone. -/
theorem readsHaveNoSideEffect : Obligations.ReadsHaveNoSideEffect := by
  intro s t aperture offset size h
  rcases serve_read_cases h with ⟨d, rfl⟩ | rfl <;> rfl

/-- Settles O57: the port takes the event at the head of `pending`, or with none stays idle. -/
theorem stepServesTheOldestAccess : Obligations.StepServesTheOldestAccess := by
  intro s
  refine ⟨fun a rest hp => ?_, fun hp => ?_⟩
  · rw [step, stepPort, hp]
    rfl
  · rw [step, stepPort, hp]

end Sys2Proof.Machine
end

section
/-! SUPPORT. The four fields of a command word (30_encoding.md R64, R73). -/

namespace Sys2Proof

/-- Two words with the same four fields are the same word. -/
theorem word_ext {w x : Word} (hop : opField w = opField x) (hrsv : rsvField w = rsvField x)
    (hlen : lenField w = lenField x) (hval : valField w = valField x) : w = x := by
  have hbit (n i : Nat) (h : w.extractLsb' n 8 = x.extractLsb' n 8) (hi : n ≤ i ∧ i < n + 8) :
      w.getLsbD i = x.getLsbD i := by
    have hb := congrArg (fun b => b.getLsbD (i - n)) h
    simpa [show i - n < 8 by omega, show n + (i - n) = i by omega] using hb
  apply BitVec.eq_of_getLsbD_eq
  intro i hi
  by_cases h8 : i < 8
  · exact hbit 0 i hval (by omega)
  by_cases h16 : i < 16
  · exact hbit 8 i hlen (by omega)
  by_cases h24 : i < 24
  · exact hbit 16 i hrsv (by omega)
  · exact hbit 24 i hop (by omega)

section
variable (op len val : Byte)

@[simp] theorem opField_commandWord : opField (commandWord op len val) = op := by
  apply BitVec.eq_of_getLsbD_eq
  intro i hi
  simp [opField, commandWord, hi, show 24 + i < 32 by omega, BitVec.getLsbD_of_ge len (24 + i - 8) (by omega),
    BitVec.getLsbD_of_ge val (24 + i) (by omega)]

@[simp] theorem rsvField_commandWord : rsvField (commandWord op len val) = 0 := by
  apply BitVec.eq_of_getLsbD_eq
  intro i hi
  simp [rsvField, commandWord, show 16 + i < 24 by omega, BitVec.getLsbD_of_ge len (16 + i - 8) (by omega),
    BitVec.getLsbD_of_ge val (16 + i) (by omega)]

@[simp] theorem lenField_commandWord : lenField (commandWord op len val) = len := by
  apply BitVec.eq_of_getLsbD_eq
  intro i hi
  simp [lenField, commandWord, hi, show 8 + i < 24 by omega, show 8 + i < 32 by omega]

@[simp] theorem valField_commandWord : valField (commandWord op len val) = val := by
  apply BitVec.eq_of_getLsbD_eq
  intro i hi
  simp [valField, commandWord, hi, show i < 24 by omega, show i < 32 by omega]

end

theorem word_ext_iff {w x : Word} : w = x ↔
    opField w = opField x ∧ rsvField w = rsvField x ∧ lenField w = lenField x ∧ valField w = valField x :=
  ⟨fun h => h ▸ ⟨rfl, rfl, rfl, rfl⟩, fun ⟨hop, hrsv, hlen, hval⟩ => word_ext hop hrsv hlen hval⟩

/-- A word with RSV = 0 is the word of its other three fields. -/
theorem commandWord_fields {w : Word} (h : rsvField w = 0) :
    commandWord (opField w) (lenField w) (valField w) = w :=
  word_ext (by simp) (by simp [h]) (by simp) (by simp)

section
variable (w x : Word)

@[simp] theorem opField_and : opField (w &&& x) = opField w &&& opField x := BitVec.extractLsb'_and
@[simp] theorem rsvField_and : rsvField (w &&& x) = rsvField w &&& rsvField x := BitVec.extractLsb'_and
@[simp] theorem lenField_and : lenField (w &&& x) = lenField w &&& lenField x := BitVec.extractLsb'_and
@[simp] theorem valField_and : valField (w &&& x) = valField w &&& valField x := BitVec.extractLsb'_and

@[simp] theorem opField_or : opField (w ||| x) = opField w ||| opField x := BitVec.extractLsb'_or
@[simp] theorem rsvField_or : rsvField (w ||| x) = rsvField w ||| rsvField x := BitVec.extractLsb'_or
@[simp] theorem lenField_or : lenField (w ||| x) = lenField w ||| lenField x := BitVec.extractLsb'_or
@[simp] theorem valField_or : valField (w ||| x) = valField w ||| valField x := BitVec.extractLsb'_or

end

/-- Every bit of a byte is in the mask 0xFF. -/
theorem and_ff (b : Byte) : b &&& 0xFF#8 = b := BitVec.and_allOnes

end Sys2Proof
end

section
/-! PROOFS. Decoding and encoding, each said once in terms of the rows of R65 (30_encoding.md R66, R69, R73). -/

namespace Sys2Proof

variable {w : Word} {i : Instr} {r r' : OpRow}

/-! ### Rows -/

/-- The operand values a legal word of the row carries (R65, R69). -/
abbrev OpRow.Admits (r : OpRow) (len val : Byte) : Prop :=
  (r.lenUsed = false → len = 0) ∧ (r.valUsed = false → val = 0) ∧ (r.op = 0x31 → val.toNat ≤ 1)

/-- The row's command has `w` as a word (R66). -/
structure OpRow.Selects (r : OpRow) (w : Word) : Prop where
  op_eq : opField w = r.op
  rsv_zero : rsvField w = 0
  admits : r.Admits (lenField w) (valField w)

theorem OpRow.selects_commandWord {len val : Byte} (h : r.Admits len val) : r.Selects (commandWord r.op len val) := by
  refine ⟨by simp, by simp, ?_⟩
  simpa using h

theorem OpRow.Selects.commandWord_eq (h : r.Selects w) : commandWord r.op (lenField w) (valField w) = w := by
  rw [← h.op_eq]
  exact commandWord_fields h.rsv_zero

/-- Looking up a row's opcode finds the row. -/
theorem find?_opRows : ∀ r ∈ opRows, opRows.find? (fun r' => r'.op == r.op) = some r := by
  simp [opRows]

/-- No two rows have one opcode. -/
theorem opRows_op_inj (hr : r ∈ opRows) (hr' : r' ∈ opRows) (h : r.op = r'.op) : r = r' := by
  have hfind := find?_opRows r hr
  rw [h, find?_opRows r' hr'] at hfind
  exact (Option.some.inj hfind).symm

/-! ### Decoding -/

theorem decode_of_selects (hr : r ∈ opRows) (h : r.Selects w) :
    decode w = .ok (r.command (lenField w) (valField w)) := by
  obtain ⟨hop, hrsv, hlen, hval, hbit⟩ := h
  rw [decode, hop, find?_opRows r hr]
  have hl : ¬ (r.lenUsed = false ∧ lenField w ≠ 0) := fun h => h.2 (hlen h.1)
  have hv : ¬ (r.valUsed = false ∧ valField w ≠ 0) := fun h => h.2 (hval h.1)
  have hb : ¬ (r.op = 0x31 ∧ 1 < (valField w).toNat) := fun h => Nat.not_lt.2 (hbit h.1) h.2
  simp only [hrsv, hl, hv, hb, ne_eq, not_true_eq_false, if_false]

/-- R66: a word decodes to a command exactly when a row selects it. -/
theorem decode_eq_ok_iff :
    decode w = .ok i ↔ ∃ r ∈ opRows, r.Selects w ∧ i = r.command (lenField w) (valField w) := by
  refine ⟨fun h => ?_, fun ⟨r, hr, hs, hi⟩ => hi ▸ decode_of_selects hr hs⟩
  rw [decode] at h
  split at h
  · cases h
  · next r hfind =>
    have hop : r.op = opField w := by simpa using List.find?_some hfind
    repeat' split at h
    all_goals cases h
    next hrsv hlen hval hbit =>
      refine ⟨r, List.mem_of_find?_eq_some hfind, ⟨hop.symm, ?_, ?_, ?_, ?_⟩, rfl⟩
      · simpa using hrsv
      · simpa using hlen
      · simpa using hval
      · simpa [hop] using hbit

/-- A word is illegal exactly when no row selects it. -/
theorem decode_isError_iff : (∃ e, decode w = .error e) ↔ ∀ r ∈ opRows, ¬ r.Selects w := by
  cases h : decode w with
  | error e =>
    refine iff_of_true ⟨e, rfl⟩ fun r hr hs => ?_
    rw [decode_of_selects hr hs] at h
    cases h
  | ok i =>
    obtain ⟨r, hr, hs, -⟩ := decode_eq_ok_iff.1 h
    exact iff_of_false nofun fun hno => hno r hr hs

/-! ### Encoding -/

/-- The word of a row's command holds the row's opcode and the operands the row admits. -/
theorem encode_command : ∀ r ∈ opRows, ∀ len val, r.Admits len val →
    encode (r.command len val) = commandWord r.op len val := by
  simp +contextual [opRows, OpRow.Admits, encode]

theorem wellFormed_command : ∀ r ∈ opRows, ∀ len val, r.Admits len val → (r.command len val).wellFormed = true := by
  simp +contextual [opRows, OpRow.Admits, Instr.wellFormed]

theorem decode_encode_command (hr : r ∈ opRows) {len val : Byte} (h : r.Admits len val) :
    decode (encode (r.command len val)) = .ok (r.command len val) := by
  rw [encode_command r hr len val h, decode_of_selects hr (r.selects_commandWord h), lenField_commandWord,
    valField_commandWord]

/-- `decode_encode_command` of row `k` of R65's table. -/
theorem decode_encode_row (k : Fin 20) (len val : Byte) (h : (opRows[k.val]'k.isLt).Admits len val) :
    decode (encode ((opRows[k.val]'k.isLt).command len val)) = .ok ((opRows[k.val]'k.isLt).command len val) :=
  decode_encode_command (List.getElem_mem _) h

/-- Settles O1, by the row of each command. -/
theorem decodeOfEncodeIsTheCommand : Obligations.DecodeOfEncodeIsTheCommand := by
  intro i h
  cases i with
  | nop => exact decode_encode_row 0 0 0 (by decide)
  | clearStatus => exact decode_encode_row 1 0 0 (by decide)
  | softReset => exact decode_encode_row 2 0 0 (by decide)
  | freqClear => exact decode_encode_row 3 0 0 (by decide)
  | freqSet v => exact decode_encode_row 4 0 v ⟨fun _ => rfl, nofun, nofun⟩
  | freqGet v => exact decode_encode_row 5 0 v ⟨fun _ => rfl, nofun, nofun⟩
  | build => exact decode_encode_row 6 0 0 (by decide)
  | readNode => exact decode_encode_row 7 0 0 (by decide)
  | genCodes => exact decode_encode_row 8 0 0 (by decide)
  | getCode v => exact decode_encode_row 9 0 v ⟨fun _ => rfl, nofun, nofun⟩
  | pkReset => exact decode_encode_row 10 0 0 (by decide)
  | pkAppendBit b => exact decode_encode_row 11 0 b ⟨fun _ => rfl, nofun, fun _ => of_decide_eq_true h⟩
  | pkAppendBits n => exact decode_encode_row 12 n 0 ⟨nofun, fun _ => rfl, nofun⟩
  | pkEncode v => exact decode_encode_row 13 0 v ⟨fun _ => rfl, nofun, nofun⟩
  | pkFinish => exact decode_encode_row 14 0 0 (by decide)
  | upStart k => exact decode_encode_row 15 k 0 ⟨nofun, fun _ => rfl, nofun⟩
  | upNextBit => exact decode_encode_row 16 0 0 (by decide)
  | decClear => exact decode_encode_row 17 0 0 (by decide)
  | decInsert v n => exact decode_encode_row 18 n v ⟨nofun, nofun, nofun⟩
  | decStep => exact decode_encode_row 19 0 0 (by decide)

/-- Settles O2: the row that selects the word gives it back from its fields. -/
theorem encodeOfDecodeIsTheWord : Obligations.EncodeOfDecodeIsTheWord := by
  intro w i h
  obtain ⟨r, hr, hs, rfl⟩ := decode_eq_ok_iff.1 h
  exact ⟨(encode_command r hr _ _ hs.admits).trans hs.commandWord_eq, wellFormed_command r hr _ _ hs.admits⟩

end Sys2Proof
end

section
/-! PROOFS. The machine-readable opcode table is R65's table with its masks (30_encoding.md R77). -/

namespace Sys2Proof

variable {w : Word} {r r' : OpRow} {t : TableRow}

/-- The bits of VAL a legal word of the row cannot set. -/
def OpRow.valMask (r : OpRow) : Byte := if r.valUsed then (if r.op = 0x31 then 0xFE else 0) else 0xFF

/-- The bits of LEN a legal word of the row cannot set. -/
def OpRow.lenMask (r : OpRow) : Byte := if r.lenUsed then 0 else 0xFF

/-- The row of opcode_table.json for a row of R65. -/
def OpRow.tableRow (r : OpRow) : TableRow where
  mnemonic := (r.command 0 0).mnemonic
  pattern := commandWord r.op 0 0
  mask := 0xFFFF0000 ||| commandWord 0 r.lenMask r.valMask

theorem opcodeTable_eq : opcodeTable = opRows.map OpRow.tableRow := by decide

theorem mem_opcodeTable : t ∈ opcodeTable ↔ ∃ r ∈ opRows, r.tableRow = t := by
  rw [opcodeTable_eq, List.mem_map]

theorem fields_mask (r : OpRow) : opField r.tableRow.mask = 0xFF#8 ∧ rsvField r.tableRow.mask = 0xFF#8
    ∧ lenField r.tableRow.mask = r.lenMask ∧ valField r.tableRow.mask = r.valMask := by
  simp only [OpRow.tableRow, opField_or, rsvField_or, lenField_or, valField_or, opField_commandWord,
    rsvField_commandWord, lenField_commandWord, valField_commandWord]
  exact ⟨rfl, rfl, BitVec.zero_or, BitVec.zero_or⟩

theorem and_mask_fe_eq_zero_iff (b : Byte) : b &&& 0xFE#8 = 0#8 ↔ b.toNat ≤ 1 := by
  revert b
  decide

theorem OpRow.and_masks_eq_zero_iff (r : OpRow) (len val : Byte) :
    len &&& r.lenMask = 0 ∧ val &&& r.valMask = 0 ↔ r.Admits len val := by
  have hlen : len &&& r.lenMask = 0 ↔ (r.lenUsed = false → len = 0) := by
    cases h : r.lenUsed <;> simp [OpRow.lenMask, h, and_ff]
  have hval : val &&& r.valMask = 0 ↔ (r.valUsed = false → val = 0) ∧ (r.op = 0x31 → val.toNat ≤ 1) := by
    cases h : r.valUsed with
    | false => simp +contextual [OpRow.valMask, h, and_ff]
    | true =>
      by_cases hop : r.op = 0x31#8
      · simp [OpRow.valMask, h, hop, and_mask_fe_eq_zero_iff]
      · simp [OpRow.valMask, h, hop]
  rw [hlen, hval]

/-- R77's test of a table row is the selection by its row of R65. -/
theorem OpRow.matches_iff (r : OpRow) (w : Word) : w &&& r.tableRow.mask = r.tableRow.pattern ↔ r.Selects w := by
  obtain ⟨hop, hrsv, hlen, hval⟩ := fields_mask r
  rw [word_ext_iff]
  simp only [opField_and, rsvField_and, lenField_and, valField_and, hop, hrsv, hlen, hval, and_ff]
  simp only [OpRow.tableRow, opField_commandWord, rsvField_commandWord, lenField_commandWord, valField_commandWord,
    r.and_masks_eq_zero_iff]
  exact ⟨fun ⟨hop, hrsv, h⟩ => ⟨hop, hrsv, h⟩, fun ⟨hop, hrsv, h⟩ => ⟨hop, hrsv, h⟩⟩

/-- The operands do not bear on a command's mnemonic. -/
theorem mnemonic_command : ∀ r ∈ opRows, ∀ len val, (r.command len val).mnemonic = r.tableRow.mnemonic := by
  simp [opRows, OpRow.tableRow, Instr.mnemonic]

/-- Looking up a row's mnemonic finds the row. -/
theorem find?_mnemonic :
    ∀ r ∈ opRows, opRows.find? (fun r' => r'.tableRow.mnemonic == r.tableRow.mnemonic) = some r := by
  simp [opRows, OpRow.tableRow, Instr.mnemonic]

/-- No two rows have one mnemonic. -/
theorem opRows_mnemonic_inj (hr : r ∈ opRows) (hr' : r' ∈ opRows) (h : r.tableRow.mnemonic = r'.tableRow.mnemonic) :
    r = r' := by
  have hfind := find?_mnemonic r hr
  rw [h, find?_mnemonic r' hr'] at hfind
  exact (Option.some.inj hfind).symm

/-- A row selects the words that decode to a command of its mnemonic. -/
theorem selects_iff_decode (hr : r ∈ opRows) :
    r.Selects w ↔ ∃ i, decode w = .ok i ∧ i.mnemonic = r.tableRow.mnemonic := by
  refine ⟨fun hs => ⟨_, decode_of_selects hr hs, mnemonic_command r hr _ _⟩, fun ⟨i, hd, hm⟩ => ?_⟩
  obtain ⟨r', hr', hs, rfl⟩ := decode_eq_ok_iff.1 hd
  rw [mnemonic_command r' hr'] at hm
  exact opRows_mnemonic_inj hr' hr hm ▸ hs

/-- Settles O3: a table row's test is its row's selection, and a word's opcode names at most one row. -/
theorem opcodeTableSelectsTheDecodedCommand : Obligations.OpcodeTableSelectsTheDecodedCommand := by
  refine ⟨fun t ht w => ?_, fun w t ht t' ht' h h' => ?_, fun w => ?_⟩
  · obtain ⟨r, hr, rfl⟩ := mem_opcodeTable.1 ht
    rw [r.matches_iff, selects_iff_decode hr]
  · obtain ⟨r, hr, rfl⟩ := mem_opcodeTable.1 ht
    obtain ⟨r', hr', rfl⟩ := mem_opcodeTable.1 ht'
    rw [OpRow.matches_iff] at h h'
    rw [opRows_op_inj hr hr' (h.op_eq.symm.trans h'.op_eq)]
  · simp only [decode_isError_iff, opcodeTable_eq, List.forall_mem_map, ne_eq, OpRow.matches_iff]

end Sys2Proof
end

section
/-! PROOFS. Illegal words (30_encoding.md R69) and the words the spec writes out (R73, R76). -/

namespace Sys2Proof.Machine

variable {s : State} {w : Word}

theorem runCommand_illegal (h : ∃ e, decode w = .error e) :
    runCommand w s = .next (State.failed { s with cmd := w } .eIllegal) := by
  obtain ⟨e, he⟩ := h
  rw [runCommand, he]
  rfl

theorem lenUsed_eq_false_iff : ∀ r ∈ opRows, (r.lenUsed = false ↔ r.op ∉ [0x32, 0x40, 0x51]) := by decide

theorem valUsed_eq_false_iff : ∀ r ∈ opRows, (r.valUsed = false ↔ r.op ∉ [0x11, 0x12, 0x21, 0x31, 0x33, 0x51]) := by
  decide

/-- Where the opcode is assigned, the row of that opcode decides whether a word is illegal. -/
theorem decode_isError_iff_of_op {r : OpRow} (hr : r ∈ opRows) (hop : opField w = r.op) :
    (∃ e, decode w = .error e) ↔ ¬ r.Selects w := by
  rw [decode_isError_iff]
  refine ⟨fun h => h r hr, fun h r' hr' hs => h ?_⟩
  exact opRows_op_inj hr' hr (hs.op_eq.symm.trans hop) ▸ hs

/-- The ways a word of the row's opcode can be illegal (R69). -/
theorem OpRow.not_selects_iff {r : OpRow} (hop : opField w = r.op) :
    ¬ r.Selects w ↔ rsvField w ≠ 0 ∨ (lenField w ≠ 0 ∧ r.lenUsed = false) ∨ (valField w ≠ 0 ∧ r.valUsed = false)
      ∨ (r.op = 0x31 ∧ 1 < (valField w).toNat) := by
  have hs : r.Selects w ↔ rsvField w = 0 ∧ r.Admits (lenField w) (valField w) :=
    ⟨fun ⟨_, hrsv, h⟩ => ⟨hrsv, h⟩, fun ⟨hrsv, h⟩ => ⟨hop, hrsv, h⟩⟩
  simp only [hs, OpRow.Admits, Classical.not_and_iff_not_or_not, Classical.not_imp, Nat.not_le, ne_eq, and_comm]

/-- Settles O4: the causes are the ways the row of the word's opcode can fail to select it, and the step raises
E_ILLEGAL. -/
theorem illegalWordChangesOnlyCmdAndStatus : Obligations.IllegalWordChangesOnlyCmdAndStatus := by
  intro s w rest hp
  refine ⟨?_, fun h => ?_⟩
  · change _ ↔ opField w ∉ opRows.map OpRow.op ∨ _
    by_cases hop : opField w ∈ opRows.map OpRow.op
    · obtain ⟨r, hr, hop'⟩ := List.mem_map.1 hop
      rw [decode_isError_iff_of_op hr hop'.symm, OpRow.not_selects_iff hop'.symm, ← hop', lenUsed_eq_false_iff r hr,
        valUsed_eq_false_iff r hr]
      exact (or_iff_right (not_not_intro (List.mem_map_of_mem hr))).symm
    · refine iff_of_true (decode_isError_iff.2 fun r hr hs => hop ?_) (.inl hop)
      exact List.mem_map.2 ⟨r, hr, hs.op_eq.symm⟩
  · rw [step_commandWrite hp, runCommand_illegal h]
    rfl

/-- Settles O5: each word is a row's, or fails the row's test of VAL. -/
theorem spelledOutWordsDecode : Obligations.SpelledOutWordsDecode :=
  ⟨rfl, rfl, rfl, rfl, rfl, rfl, rfl, rfl, rfl⟩

end Sys2Proof.Machine
end

section
/-! SUPPORT. The merged tree of BUILD (41_tree_builder.md R84–R89): its slots are the only ones the table allows, and no
weight wraps. -/

namespace Sys2Proof.Machine

variable {b b' t t' old old' : Builder} {freq : ByteTable U64} {i j k x y x' y' : Nat} {n : InnerNode}

/-! ### Byte tables by slot number -/

theorem ByteTable.getElem?_getD {α : Type} (tab : ByteTable α) (d : α) (hi : i < 256) :
    (tab[i]?).getD d = ByteTable.get tab (BitVec.ofNat 8 i) := by
  simp [ByteTable.get, hi, Nat.mod_eq_of_lt hi]

theorem weight_leaf (b : Builder) (hi : i < 256) : b.weight i = ByteTable.get b.leafWeight (BitVec.ofNat 8 i) := by
  rw [Builder.weight, if_pos hi, ByteTable.getElem?_getD _ _ hi]

theorem weight_inner (hn : b.inner[k]? = some n) : b.weight (256 + k) = n.weight := by
  rw [Builder.weight, if_neg (by omega), innerAt_inner, hn]
  rfl

/-! ### The two least keys are unique -/

theorem keyBefore_asymm (h : b.keyBefore i j = true) : ¬ b.keyBefore j i = true := by
  rw [keyBefore_iff] at *
  omega

/-- `x` and `y` are the two least members of a queue, in this order. -/
structure Builder.TwoLeast (b : Builder) (Q : Nat → Prop) (x y : Nat) : Prop where
  left_mem : Q x
  right_mem : Q y
  before : b.keyBefore x y = true
  least : ∀ z, Q z → z = x ∨ z = y ∨ b.keyBefore y z = true

theorem Builder.TwoLeast.left_least {Q : Nat → Prop} (h : b.TwoLeast Q x y) {z : Nat} (hz : Q z) :
    z = x ∨ b.keyBefore x z = true := by
  rcases h.least z hz with rfl | rfl | hyz
  · exact .inl rfl
  · exact .inr h.before
  · exact .inr (keyBefore_trans h.before hyz)

/-- A queue has one pair of least members. -/
theorem Builder.TwoLeast.unique {Q : Nat → Prop} (h : b.TwoLeast Q x y) (h' : b.TwoLeast Q x' y') :
    x' = x ∧ y' = y := by
  have hx : x' = x := by
    rcases h.left_least h'.left_mem with he | hlt
    · exact he
    · rcases h'.left_least h.left_mem with he | hgt
      · exact he.symm
      · exact absurd hgt (keyBefore_asymm hlt)
  subst hx
  refine ⟨rfl, ?_⟩
  rcases h.least y' h'.right_mem with rfl | he | hlt
  · exact absurd h'.before (keyBefore_asymm h'.before)
  · exact he
  · rcases h'.least y h.right_mem with rfl | he | hgt
    · exact absurd h.before (keyBefore_asymm h.before)
    · exact he.symm
    · exact absurd hgt (keyBefore_asymm hlt)

/-- Builders that agree below slot `256 + k` and have both made merge `k` have made the same node. -/
theorem Builder.MergedAt.inner_eq (ha : Builder.AgreeBelow b b' k) (h : b.MergedAt k) (h' : b'.MergedAt k) :
    b'.inner[k]? = b.inner[k]? := by
  obtain ⟨x, y, n, hx, hy, hn, hl, hr, hw, qx, qy, hxy, hz⟩ := h
  obtain ⟨x', y', n', hx', hy', hn', hl', hr', hw', qx', qy', hxy', hz'⟩ := h'
  have hleast : b.TwoLeast (b.inQueueAt k) x y := ⟨qx, qy, hxy, hz⟩
  have hleast' : b.TwoLeast (b.inQueueAt k) x' y' := by
    refine ⟨ha.inQueueAt.1 qx', ha.inQueueAt.1 qy', by rwa [← ha.keyBefore hx' hy'], fun z qz => ?_⟩
    rw [← ha.keyBefore hy' (inQueueAt_lt qz)]
    exact hz' z (ha.inQueueAt.2 qz)
  obtain ⟨rfl, rfl⟩ := hleast.unique hleast'
  obtain ⟨w, l, r⟩ := n
  obtain ⟨w', l', r'⟩ := n'
  dsimp only at hl hr hw hl' hr' hw'
  rw [hn, hn', hl, hr, hw, hl', hr', hw', ha.weight hx, ha.weight hy]

/-! ### BUILD's tree is the only one -/

theorem Builder.AgreeBelow.succ (ha : Builder.AgreeBelow b b' k) (h : b'.inner[k]? = b.inner[k]?) :
    Builder.AgreeBelow b b' (k + 1) := by
  refine ⟨ha.leafWeight, ha.inTree, fun j hj => ?_⟩
  rcases Nat.lt_succ_iff_lt_or_eq.1 hj with hlt | rfl
  · exact ha.inner j hlt
  · exact h

theorem Builder.BuiltFrom.agreeOnLeaves (h : t.BuiltFrom freq old) (h' : t'.BuiltFrom freq old') :
    Builder.AgreeBelow t t' 0 :=
  ⟨h'.leafWeight.trans h.leafWeight.symm, h'.inTree.trans h.inTree.symm, fun _ hj => absurd hj (Nat.not_lt_zero _)⟩

theorem Builder.BuiltFrom.nInt_eq (h : t.BuiltFrom freq old) (h' : t'.BuiltFrom freq old') : t'.nInt = t.nInt :=
  h'.nInt.trans h.nInt.symm

theorem Builder.BuiltFrom.root_eq (h : t.BuiltFrom freq old) (h' : t'.BuiltFrom freq old') : t'.root = t.root :=
  BitVec.eq_of_toNat_eq (by rw [h'.root, h.root, h.nInt_eq h'])

/-- Two trees built from one table agree on every slot in use. -/
theorem Builder.BuiltFrom.agreeBelow (h : t.BuiltFrom freq old) (h' : t'.BuiltFrom freq old') (hk : k ≤ t.nInt) :
    Builder.AgreeBelow t t' k := by
  induction k with
  | zero => exact h.agreeOnLeaves h'
  | succ k ih =>
    have ha := ih (by omega)
    refine ha.succ ?_
    by_cases h2 : 2 ≤ (presentBytes freq).length
    · exact (h.merged h2 k (by omega)).inner_eq ha (h'.merged h2 k (by rw [h.nInt_eq h']; omega))
    · have hnInt := h.nInt
      obtain ⟨v, hv⟩ := List.length_eq_one_iff.1 (show (presentBytes freq).length = 1 by split at hnInt <;> omega)
      have hk0 : k = 0 := by rw [hv] at hnInt; simp at hnInt; omega
      have hv' : v < 256 := (mem_presentBytes.1 (hv ▸ List.mem_singleton_self v)).1
      subst hk0
      rw [h.single v hv, h'.single v hv, ha.weight hv']

/-! ### No weight wraps -/

theorem leafSum_leaf (b : Builder) (hi : i < 256) : b.leafSum i = (b.weight i).toNat := by
  rw [Builder.leafSum, treeLevels, leavesBelow_leaf b 255 hi]
  simp

/-- The leaves below a merged slot are those below its two children. -/
theorem leafSum_inner (hk : k < 255) (h : ∀ j, j < k → b.MergedAt j) (hx : x < 256 + k) (hy : y < 256 + k)
    (hn : b.inner[k]? = some n) (hl : n.left = some (BitVec.ofNat 9 x)) (hr : n.right = some (BitVec.ofNat 9 y)) :
    b.leafSum (256 + k) = b.leafSum x + b.leafSum y := by
  have hdeep (i : Nat) (hi : i < 256 + k) : b.leavesBelow 255 i = b.leavesBelow 256 i :=
    leavesBelow_stable (by omega) h 255 256 i hi (by omega) (by omega) (by omega) (by omega)
  simp only [Builder.leafSum, treeLevels]
  rw [leavesBelow_inner 255 hn hl hr (by omega) (by omega), hdeep x hx, hdeep y hy, List.map_append,
    List.sum_append_nat, map_sum_map _ _ fun v => (b.weight v).toNat, map_sum_map _ _ fun v => (b.weight v).toNat]

theorem Builder.BuiltFrom.weight_eq_leafSum (h : t.BuiltFrom freq old) (hi : i < 256 + t.nInt) :
    (t.weight i).toNat = t.leafSum i := by
  by_cases hl : i < 256
  · exact (leafSum_leaf t hl).symm
  · obtain ⟨j, rfl⟩ : ∃ j, i = 256 + j := ⟨i - 256, by omega⟩
    exact h.sums j (by omega)

theorem Builder.BuiltFrom.nInt_le (h : t.BuiltFrom freq old) : t.nInt ≤ 255 := by
  have hlen := presentBytes_length_le freq
  have hnInt := h.nInt
  split at hnInt <;> omega

/-- A merged slot of BUILD's tree weighs what its children do, as numbers. -/
theorem Builder.BuiltFrom.weight_add (h : t.BuiltFrom freq old) (h2 : 2 ≤ (presentBytes freq).length)
    (hk : k < t.nInt) (hx : x < 256 + k) (hy : y < 256 + k) (hn : t.inner[k]? = some n)
    (hl : n.left = some (BitVec.ofNat 9 x)) (hr : n.right = some (BitVec.ofNat 9 y)) :
    n.weight.toNat = (t.weight x).toNat + (t.weight y).toNat := by
  have hle := h.nInt_le
  rw [← weight_inner hn, h.weight_eq_leafSum (by omega), h.weight_eq_leafSum (i := x) (by omega),
    h.weight_eq_leafSum (i := y) (by omega)]
  exact leafSum_inner (by omega) (fun j hj => h.merged h2 j (by omega)) hx hy hn hl hr

end Sys2Proof.Machine
end

section
/-! PROOFS. BUILD (41_tree_builder.md R83–R86, R89): how it ends, and the tree it leaves when it ends OK. -/

namespace Sys2Proof.Machine

variable {s t : State} {freq : ByteTable U64}

/-! ### How BUILD ends -/

theorem exec_build_answers (s : State) : ∃ t, exec .build s = .next t := by
  change ∃ t, execBuild s = .next t
  unfold execBuild
  split
  · exact ⟨_, rfl⟩
  · split <;> exact ⟨_, rfl⟩

/-- BUILD's outcome is read off FREQ (R83). -/
theorem exec_build_lastRes (h : exec .build s = .next t) :
    t.lastRes = if presentBytes s.freq = [] then .empty
      else if 2 ^ 64 - 1 < totalWeight s.freq then .eOverflow else .ok := by
  rcases execBuild_cases h with ⟨h0, rfl⟩ | ⟨h0, hsum, rfl⟩ | ⟨h0, hsum, rfl⟩
  · rw [if_pos h0, ended_lastRes]
  · rw [if_neg h0, if_pos hsum, failed_lastRes]
  · rw [if_neg h0, if_neg (by omega), ended_lastRes]

theorem exec_build_of_fits (h0 : presentBytes s.freq ≠ []) (hsum : totalWeight s.freq ≤ 2 ^ 64 - 1) :
    ∃ t, exec .build s = .next t ∧ t.lastRes = .ok := by
  obtain ⟨t, h⟩ := exec_build_answers s
  exact ⟨t, h, by rw [exec_build_lastRes h, if_neg h0, if_neg (by omega)]⟩

/-- What BUILD leaves when it ends OK: the tree of its table, no codes, and the results of R83. -/
theorem exec_build_ok (h : exec .build s = .next t) (hok : t.lastRes = .ok) :
    t.builder.BuiltFrom s.freq s.builder ∧ t.codes.valid = false ∧ t.res0 = t.builder.root.setWidth 32
      ∧ t.res1 = BitVec.ofNat 32 t.builder.nLeaves ∧ t.res2 = BitVec.ofNat 32 t.builder.nInt := by
  rcases execBuild_cases h with ⟨-, rfl⟩ | ⟨-, -, rfl⟩ | ⟨h0, hsum, rfl⟩
  · cases hok
  · cases hok
  · exact ⟨buildTree_builtFrom s.freq s.builder h0 (by omega), rfl, rfl, rfl, rfl⟩

/-! ### The table BUILD reads -/

theorem presentBytes_eq_nil (h : ∀ v, ByteTable.get freq v = 0) : presentBytes freq = [] :=
  List.eq_nil_iff_forall_not_mem.2 fun _ hi => (mem_presentBytes.1 hi).2 (h _)

theorem presentBytes_length (freq : ByteTable U64) :
    (presentBytes freq).length
      = ((List.range 256).filter fun v => ByteTable.get freq (BitVec.ofNat 8 v) ≠ 0).length :=
  ByteTable.keysWhere_length freq _

theorem presentBytes_eq_singleton {v : Byte} (hv : ByteTable.get freq v ≠ 0)
    (h : ∀ w, w ≠ v → ByteTable.get freq w = 0) : presentBytes freq = [v.toNat] := by
  refine List.perm_singleton.1 ((List.perm_ext_iff_of_nodup (ByteTable.keysWhere_nodup _ _)
    (List.pairwise_singleton _ _)).2 fun i => ?_)
  rw [List.mem_singleton]
  constructor
  · intro hi
    obtain ⟨hlt, hne⟩ := mem_presentBytes.1 hi
    have he : BitVec.ofNat 8 i = v := Classical.byContradiction fun hw => hne (h _ hw)
    rw [← he, BitVec.toNat_ofNat, Nat.mod_eq_of_lt hlt]
  · rintro rfl
    exact mem_presentBytes.2 ⟨v.isLt, by simpa using hv⟩

theorem exec_build_of_zero (h : ∀ v, ByteTable.get s.freq v = 0) :
    ∃ t, exec .build s = .next t ∧ t.lastRes = .empty := by
  obtain ⟨t, ht⟩ := exec_build_answers s
  exact ⟨t, ht, by rw [exec_build_lastRes ht, if_pos (presentBytes_eq_nil h)]⟩

/-! ### The obligations -/

/-- Settles O19, by BUILD's first end. -/
theorem buildOfAnEmptyTable : Obligations.BuildOfAnEmptyTable := by
  intro s hz
  have h0 := presentBytes_eq_nil hz
  obtain ⟨t, h⟩ := exec_build_answers s
  refine ⟨t, h, ?_⟩
  rcases execBuild_cases h with ⟨-, rfl⟩ | ⟨hne, -⟩ | ⟨hne, -⟩
  · simp [Builder.noTree]
  · exact absurd h0 hne
  · exact absurd h0 hne

/-- Settles O20: the statement's sum is S of R83, which an empty table does not exceed. -/
theorem buildReportsOverflow : Obligations.BuildReportsOverflow := by
  intro s hsum
  rw [← totalWeight_eq] at hsum
  obtain ⟨t, h⟩ := exec_build_answers s
  rcases execBuild_cases h with ⟨h0, -⟩ | ⟨-, -, rfl⟩ | ⟨-, hfit, -⟩
  · rw [totalWeight_pos h0] at hsum
    omega
  · exact h
  · omega

/-- Settles O21, from what BUILD's tree is. -/
theorem buildCompletes : Obligations.BuildCompletes := by
  intro s n hn h1 hsum
  rw [← presentBytes_length] at hn
  rw [← totalWeight_eq] at hsum
  have h0 : presentBytes s.freq ≠ [] := List.length_pos_iff.1 (by omega)
  obtain ⟨t, h, hok⟩ := exec_build_of_fits h0 hsum
  obtain ⟨hb, hcodes, h0, h1, h2⟩ := exec_build_ok h hok
  have hlen := presentBytes_length_le s.freq
  have hnInt := hb.nInt_le
  have hleaves : t.builder.nLeaves = n := hb.nLeaves.trans hn.symm
  refine ⟨t, h, hok, hb.valid, hcodes, hleaves, hn ▸ hb.nInt, hb.root, fun v => by rw [hb.leafWeight], fun v => ?_,
    ?_, ?_, ?_⟩
  · simp [hb.inTree, ByteTable.get]
  · rw [h0, BitVec.toNat_setWidth_of_le (by omega)]
  · rw [h1, hleaves, BitVec.toNat_ofNat, Nat.mod_eq_of_lt (by omega)]
  · rw [h2, BitVec.toNat_ofNat, Nat.mod_eq_of_lt (by omega)]

/-- Settles O22: each merge is R84's, and the sums of the leaves below show that its weight does not wrap. -/
theorem eachMergeJoinsTheTwoLeastKeys : Obligations.EachMergeJoinsTheTwoLeastKeys := by
  intro s t h hok h2 w before k hk
  obtain ⟨hb, -⟩ := exec_build_ok h hok
  rw [hb.nLeaves] at h2
  obtain ⟨x, y, n, hx, hy, hn, hl, hr, -, qx, qy, hxy, hz⟩ := hb.merged h2 k hk
  exact ⟨x, y, n, hx, hy, hn, hl, hr, hb.weight_add h2 hk hx hy hn hl hr, qx, qy, (keyBefore_iff _ _ _).1 hxy,
    fun z qz => (hz z qz).imp_right fun h => h.imp_right (keyBefore_iff _ _ _).1⟩

/-- Settles O23: the one byte with a count is the queue, and its count is the total. -/
theorem singleSymbolTreeHasOneLeftLeaf : Obligations.SingleSymbolTreeHasOneLeftLeaf := by
  intro s v hv hz
  have hq := presentBytes_eq_singleton hv hz
  have hsum : totalWeight s.freq ≤ 2 ^ 64 - 1 := by
    have := (ByteTable.get s.freq v).isLt
    rw [← presentBytes_total, hq]
    simp
    omega
  obtain ⟨t, h, hok⟩ := exec_build_of_fits (by simp [hq]) hsum
  obtain ⟨hb, -⟩ := exec_build_ok h hok
  have hnInt : t.builder.nInt = 1 := by rw [hb.nInt, hq]; rfl
  have hroot := hb.root
  have hinner := hb.single _ hq
  rw [hnInt] at hroot
  rw [weight_leaf _ v.isLt, hb.leafWeight, BitVec.ofNat_toNat, BitVec.ofNat_toNat, BitVec.setWidth_eq] at hinner
  exact ⟨t, h, hok, hinner, BitVec.eq_of_toNat_eq hroot, hnInt⟩

/-- Settles O24: the outcome is read off FREQ, and two trees built from one table agree. -/
theorem treeDependsOnFreqAlone : Obligations.TreeDependsOnFreqAlone := by
  intro s s' t t' hf h h'
  have hres : t.lastRes = t'.lastRes := by rw [exec_build_lastRes h, exec_build_lastRes h', hf]
  refine ⟨hres, fun hok => ?_⟩
  obtain ⟨hb, -⟩ := exec_build_ok h hok
  obtain ⟨hb', -⟩ := exec_build_ok h' (hres ▸ hok)
  rw [← hf] at hb'
  have ha := hb.agreeBelow hb' (Nat.le_refl _)
  exact ⟨(hb.root_eq hb').symm, (hb.nInt_eq hb').symm, hb.nLeaves.trans hb'.nLeaves.symm, ha.inTree.symm,
    ha.leafWeight.symm, fun k hk => (ha.inner k hk).symm⟩

end Sys2Proof.Machine
end

section
/-! PROOFS. The frequency RAM, READ_NODE and the frame of the builder's commands (41_tree_builder.md R80–R82, R87,
R88). -/

namespace Sys2Proof.Machine

variable {s t : State} {b : Builder} {i : Nat}

/-! ### The frequency RAM -/

theorem low32_append (hi lo : Word) : low32 (hi ++ lo) = lo := by
  apply BitVec.eq_of_getLsbD_eq
  intro i h
  rw [low32, BitVec.getLsbD_setWidth, BitVec.getLsbD_append]
  simp [h]

theorem high32_append (hi lo : Word) : high32 (hi ++ lo) = hi := by
  apply BitVec.eq_of_getLsbD_eq
  intro i h
  rw [high32, BitVec.getLsbD_setWidth, BitVec.getLsbD_ushiftRight, BitVec.getLsbD_append]
  simp [h]

/-- Settles O17; the cleared table is one that BUILD ends EMPTY on. -/
theorem freqClearStartsANewTable : Obligations.FreqClearStartsANewTable := by
  intro s
  exact ⟨_, rfl, rfl, rfl, ByteTable.get_replicate 0, rfl, rfl, ByteTable.get_replicate false, rfl, rfl, rfl, rfl, rfl,
    rfl, ⟨rfl, rfl, rfl, rfl⟩, rfl, rfl, rfl, rfl, rfl, rfl, rfl, rfl, rfl, rfl, fun _ => rfl,
    exec_build_of_zero (ByteTable.get_replicate 0)⟩

/-- Settles O18: the count is the register pair, which FREQ_GET takes apart again. -/
theorem freqSetThenFreqGet : Obligations.FreqSetThenFreqGet := by
  intro s v
  refine ⟨⟨_, rfl, ?_, fun w hw => ?_, rfl, _, rfl, ?_, ?_⟩, _, rfl, high32_append_low32 _, rfl⟩
  · simp [countOperand]
  · simp [ByteTable.get_put, hw]
  · simp [countOperand, low32_append]
  · simp [countOperand, high32_append]

/-! ### READ_NODE -/

theorem exec_readNode_answers (s : State) : ∃ t, exec .readNode s = .next t := by
  change ∃ t, execReadNode s = .next t
  unfold execReadNode
  split
  · exact ⟨_, rfl⟩
  · dsimp only
    split
    · exact ⟨_, rfl⟩
    · split <;> exact ⟨_, rfl⟩

theorem hasNode_leaf (hi : i < 256) : b.hasNode i = ByteTable.get b.inTree (BitVec.ofNat 8 i) := by
  rw [Builder.hasNode, if_pos hi, ByteTable.getElem?_getD _ _ hi]

theorem hasNode_inner_iff (hi : 256 ≤ i) : b.hasNode i = true ↔ i ≤ 510 ∧ i - 256 < b.nInt := by
  rw [Builder.hasNode, if_neg (by omega)]
  simp

/-- The indices that name no node (R88). -/
theorem hasNode_eq_false (h : 510 < i ∨ (i < 256 ∧ ByteTable.get b.inTree (BitVec.ofNat 8 i) = false)
    ∨ (256 ≤ i ∧ b.nInt ≤ i - 256)) : b.hasNode i = false := by
  by_cases hi : i < 256
  · rw [hasNode_leaf hi]
    rcases h with hhi | ⟨-, hin⟩ | ⟨hlo, -⟩
    · omega
    · exact hin
    · omega
  · rw [Bool.eq_false_iff, ne_eq, hasNode_inner_iff (by omega)]
    omega

/-- Two 16-bit halves of a register. -/
theorem toNat_or_shiftLeft_16 {lo hi : Word} (hlo : lo.toNat < 2 ^ 16) (hhi : hi.toNat < 2 ^ 16) :
    (lo ||| hi <<< 16).toNat = lo.toNat + hi.toNat * 2 ^ 16 := by
  rw [BitVec.toNat_or, BitVec.toNat_shiftLeft, Nat.mod_eq_of_lt (by rw [Nat.shiftLeft_eq]; omega), Nat.or_comm,
    ← Nat.shiftLeft_add_eq_or_of_lt hlo, Nat.shiftLeft_eq, Nat.add_comm]

theorem childWord_toNat (n : InnerNode) :
    n.childWord.toNat = n.left.bits.toNat + n.right.bits.toNat * 2 ^ 16 := by
  have hbits (c : ChildRef) : (c.bits.setWidth 32).toNat = c.bits.toNat := BitVec.toNat_setWidth_of_le (by omega)
  have hlt (c : ChildRef) : c.bits.toNat < 2 ^ 16 := by have := c.bits.isLt; omega
  rw [InnerNode.childWord, toNat_or_shiftLeft_16 (hbits _ ▸ hlt _) (hbits _ ▸ hlt _), hbits, hbits]

/-- Settles O25, by which slots READ_NODE takes for nodes. -/
theorem readNodeDescribesANode : Obligations.ReadNodeDescribesANode := by
  intro s
  obtain ⟨t, h⟩ := exec_readNode_answers s
  have hends := execReadNode_cases h
  have hslot : BitVec.ofNat 8 s.arg0.toNat = s.arg0.setWidth 8 := BitVec.ofNat_toNat ..
  refine ⟨fun hv => ?_, fun hv hbad => ?_, fun hv hi hin => ?_, fun n hv hlo hhi hused hn => ?_⟩
  · simp only [hv, Bool.false_eq_true, true_and, false_and, or_false] at hends
    rwa [hends] at h
  · have hno : s.builder.hasNode s.arg0.toNat = false := hasNode_eq_false (hslot ▸ hbad)
    simp only [hv, hno, Bool.true_eq_false, Bool.false_eq_true, true_and, false_and, false_or, or_false] at hends
    rwa [hends] at h
  · have hnode : s.builder.hasNode s.arg0.toNat = true := by rw [hasNode_leaf hi, hslot, hin]
    simp only [hv, hnode, hi, Nat.not_le.2 hi, Bool.true_eq_false, true_and, false_and, false_or, or_false] at hends
    subst hends
    refine ⟨_, h, ?_, ?_, rfl, rfl⟩
    · simp only [ended_res0, BitVec.toNat_shiftLeft, BitVec.toNat_ofNat, Nat.shiftLeft_eq]
      omega
    · rw [ended_res2, ended_res1, high32_append_low32, weight_leaf _ hi, hslot]
  · have hnode : s.builder.hasNode s.arg0.toNat = true := (hasNode_inner_iff hlo).2 ⟨hhi, hused⟩
    simp only [hv, hnode, hlo, Nat.not_lt.2 hlo, Bool.true_eq_false, true_and, false_and, false_or] at hends
    obtain ⟨k, hk⟩ : ∃ k, s.arg0.toNat = 256 + k := ⟨s.arg0.toNat - 256, by omega⟩
    rw [hk, Nat.add_sub_cancel_left] at hends hn
    subst hends
    have hlow : (BitVec.ofNat 32 k).toNat = k := by rw [BitVec.toNat_ofNat, Nat.mod_eq_of_lt (by omega)]
    refine ⟨_, h, ?_, ?_, ?_, rfl⟩
    · rw [ended_res0, toNat_or_shiftLeft_16 (by decide) (by omega), hlow, hk, Nat.add_sub_cancel_left]
      rfl
    · rw [ended_res2, ended_res1, high32_append_low32, weight_inner hn]
    · rw [ended_res3, innerAt_inner, hn, ← childWord_toNat]
      rfl

/-! ### The frame -/

/-- Settles O26, command by command and end by end: an error discards every change, and BUILD leaves alone the internal
slots it does not use. -/
theorem builderCommandsFrame : Obligations.BuilderCommandsFrame := by
  have hok : CmdOutcome.ok.isError = false := rfl
  have hempty : CmdOutcome.empty.isError = false := rfl
  have herror : CmdOutcome.eOverflow.isError = true ∧ CmdOutcome.eSequence.isError = true
      ∧ CmdOutcome.eBadArgs.isError = true := ⟨rfl, rfl, rfl⟩
  intro i s t h hi
  rcases hi with rfl | ⟨v, rfl⟩ | ⟨v, rfl⟩ | rfl | rfl
  · cases h
    simp [HostSideKept, hok]
  · cases h
    simp [HostSideKept, hok]
  · cases h
    simp [HostSideKept, hok]
  · rcases execBuild_cases h with ⟨-, rfl⟩ | ⟨-, -, rfl⟩ | ⟨h0, hsum, rfl⟩
    · simp [HostSideKept, hempty, Builder.noTree]
    · simp [HostSideKept, herror]
    · have hb := buildTree_builtFrom s.freq s.builder h0 (by omega)
      simpa [HostSideKept, hok] using hb.untouched
  · rcases execReadNode_cases h with ⟨-, rfl⟩ | ⟨-, -, rfl⟩ | ⟨-, -, -, rfl⟩ | ⟨-, -, -, rfl⟩
    · simp [HostSideKept, herror]
    · simp [HostSideKept, herror]
    · simp [HostSideKept, hok]
    · simp [HostSideKept, hok]

end Sys2Proof.Machine
end

section
/-! PROOFS. The code table (42_code_table.md R92, R93, R95): GEN_CODES records the paths of the tree, and GET_CODE shows one
code in CODEBUF. -/

namespace Sys2Proof.Machine

variable {s : State} {v : Byte} {p : Bits}

/-! ### GEN_CODES -/

/-- GEN_CODES's OK end. -/
def State.withGeneratedCodes (s : State) : State :=
  State.ended { s with
    codes := generateCodes s.builder
    res0 := BitVec.ofNat 32 (generateCodes s.builder).nCodes
    res1 := BitVec.ofNat 32 (generateCodes s.builder).maxLen } .ok

theorem exec_genCodes_of_valid (hv : s.builder.valid = true) : exec .genCodes s = .next s.withGeneratedCodes :=
  if_neg (by simp [hv])

theorem exec_genCodes_of_invalid (hv : s.builder.valid = false) : exec .genCodes s = .next (s.failed .eSequence) :=
  if_pos hv

/-- NCODES counts the nonzero lengths. -/
theorem generateCodes_nCodes (b : Builder) :
    (generateCodes b).nCodes
      = ((List.range 256).filter fun v => ByteTable.get (generateCodes b).clen (BitVec.ofNat 8 v) ≠ 0).length :=
  ByteTable.keysWhere_length ..

theorem generateCodes_nCodes_le (b : Builder) : (generateCodes b).nCodes ≤ 256 := by
  rw [generateCodes_nCodes]
  exact Nat.le_trans (List.length_filter_le ..) (Nat.le_of_eq List.length_range)

/-- MAXLEN is the length of a code, which has 8 bits. -/
theorem generateCodes_maxLen_lt (b : Builder) : (generateCodes b).maxLen < 256 := by
  obtain ⟨-, v, hv⟩ := generateCodes_maxLen b
  exact hv ▸ (ByteTable.get (generateCodes b).clen v).isLt

/-- Settles O27: NCODES and MAXLEN are what the table's lengths say, and both fit their registers. -/
theorem genCodesCompletes : Obligations.GenCodesCompletes := by
  refine fun s => ⟨exec_genCodes_of_invalid, fun hv => ?_⟩
  obtain ⟨hbound, hattained⟩ := generateCodes_maxLen s.builder
  have hcount := generateCodes_nCodes_le s.builder
  have hlen := generateCodes_maxLen_lt s.builder
  exact ⟨_, exec_genCodes_of_valid hv, rfl, generateCodes_nCodes s.builder, hbound, hattained,
    Nat.mod_eq_of_lt (by omega), Nat.mod_eq_of_lt (by omega), rfl⟩

/-- The leaves of a byte are the paths its code spells: its one path for a byte in the tree, and none for another. -/
theorem TreeInv.mem_leaves_iff (ht : TreeInv s) (hv : s.builder.valid = true) :
    (v.toNat, p) ∈ s.builder.leaves ↔
      ByteTable.get (generateCodes s.builder).clen v ≠ 0 ∧ ByteTable.get (generateCodes s.builder).cbits v = p := by
  have hfilter : (v.toNat, p) ∈ s.builder.leaves ↔
      (v.toNat, p) ∈ s.builder.leaves.filter (fun e => decide (e.1 = v.toNat)) := by simp
  rw [hfilter, ht.generated_clen hv]
  rcases ht.leaf_cases hv v with ⟨hin, q, -, -, hone⟩ | ⟨hout, hnone⟩
  · obtain ⟨-, hbits⟩ := generateCodes_leaf hone
    simp [hone, hin, hbits, eq_comm]
  · simp [hnone, hout]

theorem TreeInv.generated_length (ht : TreeInv s) (hv : s.builder.valid = true) (v : Byte) :
    (ByteTable.get (generateCodes s.builder).clen v).toNat
      = (ByteTable.get (generateCodes s.builder).cbits v).length := by
  obtain ⟨-, -, hlen, -⟩ := ht.codesInv_generated (t := s.withGeneratedCodes) hv rfl rfl rfl
  exact (hlen v).symm

/-- Settles O28: a byte of the tree has one leaf, whose path GEN_CODES records, and a byte outside it has none. -/
theorem codesAreTheRootToLeafPaths : Obligations.CodesAreTheRootToLeafPaths := by
  refine fun s ht hv => ⟨_, exec_genCodes_of_valid hv, rfl, fun v p => (ht.mem_leaves_iff hv).trans ?_⟩
  exact ⟨fun ⟨hcoded, hbits⟩ => ⟨hbits ▸ ht.generated_length hv v, hcoded, hbits⟩, And.right⟩

/-! ### GET_CODE -/

/-- Position j of a code: what CBITS holds there below CLEN, and nothing from CLEN on. -/
theorem CodeTable.codeOf_getElem?_getD (c : CodeTable) (v : Byte) (j : Nat) :
    ((c.codeOf v)[j]?).getD false
      = (decide (j < (ByteTable.get c.clen v).toNat) && ((ByteTable.get c.cbits v)[j]?).getD false) := by
  rw [CodeTable.codeOf]
  by_cases hj : j < (ByteTable.get c.clen v).toNat
  · simp [hj]
  · simp [hj]

theorem exec_getCode_of_valid (hv : s.codes.valid = true) (v : Byte) :
    exec (.getCode v) s = .next (State.ended { s with
      res0 := (ByteTable.get s.codes.clen v).setWidth 32, cb := codebufOf (s.codes.codeOf v) } .ok) :=
  if_neg (by simp [hv])

theorem exec_getCode_of_invalid (hv : s.codes.valid = false) (v : Byte) :
    exec (.getCode v) s = .next (s.failed .eSequence) :=
  if_pos hv

/-- Settles O29: CODEBUF holds the code from position 0 and 0 past its end. -/
theorem getCodeFillsTheCodeBuffer : Obligations.GetCodeFillsTheCodeBuffer := by
  refine fun s v => ⟨fun hv => exec_getCode_of_invalid hv v, fun hv =>
    ⟨_, exec_getCode_of_valid hv v, ?_, fun p hp => ?_, rfl⟩⟩
  · exact BitVec.toNat_setWidth_of_le (by omega)
  · exact (codebufBit_codebufOf _ hp).trans (s.codes.codeOf_getElem?_getD v p)

end Sys2Proof.Machine
end

section
/-! PROOFS. The append commands of the bit packer (43_bit_packer.md R99–R102, R106): their checks in the order of R139, then
the bits at the next positions of the stream. -/

namespace Sys2Proof.Machine

variable {i : Instr} {s t : State} {bits : Bits}

/-! ### How an append command ends -/

/-- PK_ENCODE of a byte that has no code (R101). -/
def lacksCode : Instr → State → Bool
  | .pkEncode v, s => ByteTable.get s.codes.clen v = 0
  | _, _ => false

theorem lacksCode_eq_false_iff :
    lacksCode i s = false ↔ ∀ v, i = .pkEncode v → ByteTable.get s.codes.clen v ≠ 0 := by
  cases i <;> simp [lacksCode]

/-- RES2 after an append: PK_ENCODE alone reports there (R101). -/
def res2AfterAppend : Instr → State → Word
  | .pkEncode v, s => (ByteTable.get s.codes.clen v).setWidth 32
  | _, s => s.res2

theorem res2AfterAppend_of_ne (h : ∀ v, i ≠ .pkEncode v) : res2AfterAppend i s = s.res2 := by
  cases i with
  | pkEncode v => exact absurd rfl (h v)
  | _ => rfl

/-- The state an append command of `bits` ends OK with. -/
def State.afterAppend (s : State) (i : Instr) (bits : Bits) : State :=
  { s.appended bits with res2 := res2AfterAppend i s }

/-- What an append command of `bits` completes with: the first check it fails, or its bits pushed. -/
def appendCommand (i : Instr) (bits : Bits) (s : State) : Except CmdOutcome State :=
  if i.wellFormed = false then .error .eIllegal
  else if preconditionHolds i s = false then .error .eSequence
  else if lacksCode i s = true then .error .eNoCode
  else if s.params.payBytes < s.packer.wptr.toNat + bytesCompleted s.packer bits then .error .ePayloadFull
  else .ok (s.afterAppend i bits)

/-- Past the checks of its own, an append command is the append primitive. -/
theorem appendCommand_eq_append (hw : i.wellFormed = true) (hp : preconditionHolds i s = !s.packer.closed)
    (hl : lacksCode i s = false) :
    appendCommand i bits s = (append bits s).map fun t => { t with res2 := res2AfterAppend i s } := by
  rcases append_cases bits s with ⟨hc, he⟩ | ⟨hc, hf, he⟩ | ⟨hc, hf, he⟩
  · simp [appendCommand, he, hw, hp, hc, Except.map]
  · simp [appendCommand, he, hw, hp, hc, hl, hf, Except.map]
  · simp [appendCommand, he, hw, hp, hc, hl, Nat.not_lt.2 hf, Except.map, State.afterAppend, State.appended]

theorem append_map_res2 (bits : Bits) (s : State) :
    (append bits s).map (fun t => { t with res2 := s.res2 }) = append bits s := by
  rcases append_cases bits s with ⟨-, he⟩ | ⟨-, -, he⟩ | ⟨-, -, he⟩ <;> rw [he] <;> rfl

/-- Each of the three append commands ends as `appendCommand` says. -/
theorem exec_append (hb : appendedBits i s = some bits) : exec i s = complete s (appendCommand i bits s) := by
  cases i with
  | pkAppendBit b =>
    cases hb
    by_cases hv : 1 < b.toNat
    · have hw : (Instr.pkAppendBit b).wellFormed = false := by simp [Instr.wellFormed, hv]
      rw [appendCommand, if_pos hw]
      exact if_pos hv
    · have hw : (Instr.pkAppendBit b).wellFormed = true := by simp [Instr.wellFormed, Nat.not_lt.1 hv]
      rw [appendCommand_eq_append hw rfl rfl]
      exact (if_neg hv).trans (congrArg (complete s) (append_map_res2 _ s).symm)
  | pkAppendBits n =>
    cases hb
    rw [appendCommand_eq_append rfl rfl rfl]
    exact congrArg (complete s) (append_map_res2 _ s).symm
  | pkEncode v =>
    cases hb
    change execPkEncode v s = _
    by_cases hp : preconditionHolds (.pkEncode v) s = true
    · have ⟨hc, hv⟩ : s.packer.closed = false ∧ s.codes.valid = true := by simpa [preconditionHolds] using hp
      by_cases hn : ByteTable.get s.codes.clen v = 0
      · simp [execPkEncode, appendCommand, Instr.wellFormed, lacksCode, hp, hc, hv, hn]
      · have hl : lacksCode (.pkEncode v) s = false := decide_eq_false hn
        rw [appendCommand_eq_append rfl (by rw [hp, hc]; rfl) hl, execPkEncode, if_neg (by simp [hc]),
          if_neg (by simp [hv]), if_neg hn]
        rfl
    · have hw : (Instr.pkEncode v).wellFormed = true := rfl
      rw [appendCommand, hw, if_neg (by decide), if_pos (Bool.eq_false_iff.2 hp)]
      by_cases hc : s.packer.closed = true
      · exact if_pos hc
      · have hv : s.codes.valid = false := by simpa [preconditionHolds, hc] using hp
        exact (if_neg hc).trans (if_pos hv)
  | _ => cases hb

/-- An append command that passes its checks pushes its bits. -/
theorem exec_append_of_fits (hb : appendedBits i s = some bits) (hw : i.wellFormed = true)
    (hp : preconditionHolds i s = true) (hl : lacksCode i s = false)
    (hf : s.packer.wptr.toNat + bytesCompleted s.packer bits ≤ s.params.payBytes) :
    exec i s = .next ((s.afterAppend i bits).ended .ok) := by
  rw [exec_append hb, appendCommand, hw, hp, hl, if_neg (Nat.not_lt.2 hf)]
  rfl

theorem closed_eq_false_of_precondition (hb : appendedBits i s = some bits) (hp : preconditionHolds i s = true) :
    s.packer.closed = false := by
  cases i with
  | pkAppendBit | pkAppendBits => simpa [preconditionHolds] using hp
  | pkEncode v =>
    have ⟨hc, _⟩ : s.packer.closed = false ∧ s.codes.valid = true := by simpa [preconditionHolds] using hp
    exact hc
  | _ => cases hb

/-- An append command that answers has failed a check and changed STATUS alone, or has pushed bits that fit. -/
theorem exec_append_cases (hb : appendedBits i s = some bits) (h : exec i s = .next t) :
    (∃ e, e.isError = true ∧ t = s.failed e)
    ∨ (s.packer.closed = false ∧ s.packer.wptr.toNat + bytesCompleted s.packer bits ≤ s.params.payBytes
        ∧ t = (s.afterAppend i bits).ended .ok) := by
  rw [exec_append hb, appendCommand] at h
  split at h
  · exact .inl ⟨.eIllegal, rfl, by simpa using h.symm⟩
  · split at h
    · exact .inl ⟨.eSequence, rfl, by simpa using h.symm⟩
    · next hp =>
      split at h
      · exact .inl ⟨.eNoCode, rfl, by simpa using h.symm⟩
      · split at h
        · exact .inl ⟨.ePayloadFull, rfl, by simpa using h.symm⟩
        · next hf =>
          have hopen := closed_eq_false_of_precondition hb (by simpa using hp)
          exact .inr ⟨hopen, Nat.not_lt.1 hf, by simpa using h.symm⟩

/-! ### The obligations -/

/-- Settles O32, each check at its place in `appendCommand`. -/
theorem appendErrorsInOrder : Obligations.AppendErrorsInOrder := by
  intro i s bits hw hb
  rw [exec_append hb, appendCommand, hw]
  refine ⟨fun hp => ?_, fun v hv hp hn => ?_, fun hp hcode hfull => ?_⟩
  · rw [hp]
    rfl
  · have hl : lacksCode i s = true := by simp [hv, lacksCode, hn]
    rw [hp, hl]
    rfl
  · rw [hp, lacksCode_eq_false_iff.2 hcode, if_pos (show _ < _ + bytesCompleted _ _ from hfull)]
    rfl

/-- Settles O31: the loop's counts and places (`pushBits_counts`, `pushBits_bitAt`), since PK_WPTR cannot wrap. -/
theorem appendPlacesEachBit : Obligations.AppendPlacesEachBit := by
  intro i s bits ⟨_, hmax, _⟩ hk hw hb hp hcode hfit
  have hroom : s.packer.wptr.toNat + (s.packer.nb + bits.length) / 8 < 2 ^ 32 := by omega
  have hnb := (pushBits_fits hk.fits s.pay bits).nb_le
  have hbit := pushBits_bitAt hk.fits s.pay bits hroom
  refine ⟨_, exec_append_of_fits hb hw hp (lacksCode_eq_false_iff.2 hcode) hfit, rfl,
    pushBits_bitCount hk.fits s.pay bits hroom, hnb, ?_, rfl, ?_, fun j hj => ?_, fun k hlt => ?_, ?_⟩
  · exact (pushBits_closed ..).trans (closed_eq_false_of_precondition hb hp)
  · exact Nat.mod_eq_of_lt (by omega)
  · exact (hbit j).trans (if_pos hj)
  · refine (hbit _).trans ?_
    rw [if_neg (by omega), if_pos (by omega), Nat.add_sub_cancel_left]
  · rintro v rfl
    exact BitVec.toNat_setWidth_of_le (by omega)

end Sys2Proof.Machine
end

section
/-! PROOFS. PK_RESET, PK_FINISH and the frame of the bit packer's commands (43_bit_packer.md R98, R102–R105). -/

namespace Sys2Proof.Machine

variable {i : Instr} {s t : State}

/-! ### PK_FINISH -/

theorem exec_pkFinish_of_closed (hc : s.packer.closed = true) : exec .pkFinish s = .next (s.failed .eSequence) :=
  if_pos hc

/-- PK_FINISH with no partial byte (R103). -/
theorem exec_pkFinish_of_whole (hc : s.packer.closed = false) (hn : s.packer.nb = 0) :
    exec .pkFinish s = .next (State.ended { s with
      packer := s.packer.close, res0 := s.packer.wptr, res1 := 8 } .ok) :=
  (if_neg (by simp [hc])).trans (if_pos hn)

theorem exec_pkFinish_of_full (hc : s.packer.closed = false) (hn : s.packer.nb ≠ 0)
    (hf : s.params.payBytes < s.packer.wptr.toNat + 1) : exec .pkFinish s = .next (s.failed .ePayloadFull) :=
  (if_neg (by simp [hc])).trans ((if_neg hn).trans (if_pos hf))

/-- PK_FINISH with a partial byte and room for it (R103). -/
theorem exec_pkFinish_of_partial (hc : s.packer.closed = false) (hn : s.packer.nb ≠ 0)
    (hf : s.packer.wptr.toNat + 1 ≤ s.params.payBytes) :
    exec .pkFinish s = .next (State.ended { s with
      packer := ⟨0, 0, s.packer.wptr + 1, true⟩, pay := s.pay.write s.packer.wptr.toNat s.packer.cur
      res0 := s.packer.wptr + 1, res1 := BitVec.ofNat 32 s.packer.nb } .ok) :=
  (if_neg (by simp [hc])).trans ((if_neg hn).trans (if_neg (Nat.not_lt.2 hf)))

/-- Settles O33: with B = 8 PK_WPTR + PK_NB and PK_NB at most 7, ⌈B/8⌉ counts the whole bytes and the partial one. -/
theorem pkFinishReportsTheValidCount : Obligations.PkFinishReportsTheValidCount := by
  intro s ⟨_, hmax, _⟩ ⟨hnb, _, _⟩
  have hcount : s.packer.bitCount = 8 * s.packer.wptr.toNat + s.packer.nb := rfl
  refine ⟨exec_pkFinish_of_closed, exec_pkFinish_of_full, fun hc hroom => ?_⟩
  by_cases hn : s.packer.nb = 0
  · refine ⟨_, exec_pkFinish_of_whole hc hn, rfl, ?_, ?_, rfl, fun h => absurd hn h, fun _ _ => rfl⟩
    · change s.packer.wptr.toNat = _
      omega
    · rw [if_pos (by omega)]
      rfl
  · have hfit := hroom.resolve_left hn
    have hnext := toNat_add_one (x := s.packer.wptr) (by omega)
    refine ⟨_, exec_pkFinish_of_partial hc hn hfit, rfl, ?_, ?_, rfl, fun _ => ?_, fun a ha => ?_⟩
    · refine hnext.trans ?_
      omega
    · rw [if_neg (by omega), ended_res1, BitVec.toNat_ofNat]
      omega
    · exact (Memory.read_write ..).trans (if_pos rfl)
    · exact (Memory.read_write ..).trans (if_neg (ha.resolve_left hn))

/-! ### PK_RESET -/

/-- A closed packer stays closed under an append, which fails (R102), and under PK_FINISH (R103). -/
theorem exec_packer_of_closed (h : exec i s = .next t) (hc : s.packer.closed = true) (hp : i ≠ .pkReset)
    (hr : i ≠ .softReset) : t.packer = s.packer := by
  cases hb : appendedBits i s with
  | some bits =>
    rcases exec_append_cases hb h with ⟨e, -, rfl⟩ | ⟨hopen, -⟩
    · rfl
    · exact absurd hc (by simp [hopen])
  | none =>
    by_cases hf : i = .pkFinish
    · subst hf
      cases (exec_pkFinish_of_closed hc).symm.trans h
      rfl
    · exact exec_packer h hb hp hf hr

/-- Settles O30: any other command leaves a closed packer as it is. -/
theorem pkResetStartsAStream : Obligations.PkResetStartsAStream := by
  refine fun s => ⟨rfl, fun i t h hc hopen => ?_⟩
  by_cases hp : i = .pkReset
  · exact .inl hp
  · by_cases hr : i = .softReset
    · exact .inr hr
    · rw [exec_packer_of_closed h hc hp hr, hc] at hopen
      cases hopen

/-! ### The frame -/

/-- Settles O34, end by end: an error discards every change, and the loop writes only the bytes it completes. -/
theorem packerCommandsFrame : Obligations.PackerCommandsFrame := by
  intro i s t ⟨_, hmax, _⟩ hk h hi
  have hok : CmdOutcome.ok.isError = false := rfl
  have herror : CmdOutcome.eSequence.isError = true ∧ CmdOutcome.ePayloadFull.isError = true := ⟨rfl, rfl⟩
  rcases hi with rfl | rfl | ⟨bits, hb⟩
  · cases h
    simp [HostSideKept, hok, appendedBits]
  · rcases execPkFinish_cases h with ⟨-, rfl⟩ | ⟨-, -, rfl⟩ | ⟨-, -, -, rfl⟩ | ⟨-, -, -, rfl⟩
    · simp [HostSideKept, appendedBits, herror]
    · simp [HostSideKept, appendedBits, hok]
    · simp [HostSideKept, appendedBits, herror]
    · simp +contextual [HostSideKept, appendedBits, hok, Memory.read_write]
  · rcases exec_append_cases hb h with ⟨e, he, rfl⟩ | ⟨-, hfit, rfl⟩
    · simp [HostSideKept, he]
    · have hroom : s.packer.wptr.toNat + (s.packer.nb + bits.length) / 8 < 2 ^ 32 :=
        Nat.lt_of_le_of_lt hfit (by omega)
      refine ⟨⟨rfl, rfl, rfl, rfl⟩, (Bool.or_false _).symm, rfl, rfl, rfl, rfl, rfl, rfl, rfl, rfl, rfl,
        res2AfterAppend_of_ne, fun bits' hb' a ha => ?_, ?_, ?_⟩
      · obtain rfl : bits = bits' := Option.some.inj (hb.symm.trans hb')
        exact pushBits_read_other hk.fits s.pay bits hroom a ha
      · rintro rfl
        cases hb
      · rintro rfl
        cases hb

end Sys2Proof.Machine
end

section
/-! PROOFS. The bit unpacker (44_bit_unpacker.md R108–R111): how UP_START and UP_NEXT_BIT end, and that a finished stream
replays the bits appended to it. -/

namespace Sys2Proof.Machine

variable {s t : State} {k : Byte}

/-! ### UP_START -/

theorem exec_upStart_of_bad (h : k.toNat < 1 ∨ 8 < k.toNat ∨ s.params.payBytes < s.arg0.toNat) :
    exec (.upStart k) s = .next (s.failed .eBadArgs) := by
  change execUpStart k s = _
  by_cases hk : k.toNat < 1 ∨ 8 < k.toNat
  · exact if_pos hk
  · have hl : s.params.payBytes < s.arg0.toNat := by omega
    exact (if_neg hk).trans (if_pos hl)

theorem exec_upStart_of_fits (h1 : 1 ≤ k.toNat) (h8 : k.toNat ≤ 8) (hl : s.arg0.toNat ≤ s.params.payBytes) :
    exec (.upStart k) s = .next (State.ended { s with
      unpacker := startedUnpacker s k
      res0 := posLow (BitVec.ofNat 35 (meaningfulBits (startedUnpacker s k)))
      res1 := posHigh (BitVec.ofNat 35 (meaningfulBits (startedUnpacker s k))) } .ok) :=
  (if_neg (by omega)).trans (if_neg (by omega))

/-- UP_VALID holds every valid count. -/
theorem startedUnpacker_valid (h8 : k.toNat ≤ 8) : (startedUnpacker s k).valid.toNat = k.toNat :=
  (BitVec.toNat_setWidth ..).trans (Nat.mod_eq_of_lt (by omega))

/-- T right after UP_START (R109). -/
theorem meaningfulBits_startedUnpacker (h8 : k.toNat ≤ 8) :
    meaningfulBits (startedUnpacker s k) = if s.arg0 = 0 then 0 else 8 * (s.arg0.toNat - 1) + k.toNat := by
  rw [meaningfulBits, startedUnpacker_valid h8]
  rfl

/-- Settles O35: T is below 2^35, so that RES0 and RES1 hold all of it. -/
theorem upStartReportsT : Obligations.UpStartReportsT := by
  refine fun s k => ⟨exec_upStart_of_bad, fun h1 h8 hl => ?_⟩
  have hvalid := startedUnpacker_valid (s := s) h8
  refine ⟨_, exec_upStart_of_fits h1 h8 hl, rfl, hvalid, rfl, ?_, rfl⟩
  calc _ = (BitVec.ofNat 35 (meaningfulBits (startedUnpacker s k))).toNat := pos_toNat _
    _ = meaningfulBits (startedUnpacker s k) :=
      (BitVec.toNat_ofNat ..).trans (Nat.mod_eq_of_lt (meaningfulBits_lt (by omega)))
    _ = _ := meaningfulBits_startedUnpacker h8

/-! ### UP_NEXT_BIT -/

theorem exec_upNextBit_of_end (h : s.unpacker.pos.toNat = meaningfulBits s.unpacker) :
    exec .upNextBit s = .next (s.ended .endOfData) :=
  if_pos h

theorem exec_upNextBit_of_ok {b : Bool} (h : s.unpacker.pos.toNat ≠ meaningfulBits s.unpacker)
    (hb : streamBit s.pay s.unpacker.pos.toNat = .ok b) :
    exec .upNextBit s = .next (State.ended { s with
      unpacker := { s.unpacker with pos := s.unpacker.pos + 1 }, res0 := (BitVec.ofBool b).setWidth 32
      res1 := posLow (s.unpacker.pos + 1), res2 := posHigh (s.unpacker.pos + 1) } .ok) := by
  refine (if_neg h).trans ?_
  rw [hb]
  rfl

theorem exec_upNextBit_of_error {f : Fault} (h : s.unpacker.pos.toNat ≠ meaningfulBits s.unpacker)
    (hf : streamBit s.pay s.unpacker.pos.toNat = .error f) : exec .upNextBit s = .fault f := by
  refine (if_neg h).trans ?_
  rw [hf]

theorem toNat_setWidth_ofBool (b : Bool) : ((BitVec.ofBool b).setWidth 32).toNat = b.toNat := by
  cases b <;> rfl

/-- UP_POS can take one more bit below T, whatever UP_VALID holds. -/
theorem pos_add_one {u : Unpacker} (h : u.pos.toNat < meaningfulBits u) : (u.pos + 1).toNat = u.pos.toNat + 1 := by
  have hlen := u.len.isLt
  have hvalid := u.valid.isLt
  have hroom : u.pos.toNat + 1 < 2 ^ 35 := by
    unfold meaningfulBits at h
    split at h <;> omega
  rw [BitVec.toNat_add, show (1 : BitVec 35).toNat = 1 from rfl, Nat.mod_eq_of_lt hroom]

/-- Settles O36, by what the byte under UP_POS holds. -/
theorem upNextBitReplaysOneBit : Obligations.UpNextBitReplaysOneBit := by
  refine fun s => ⟨exec_upNextBit_of_end, fun b hlt hb => ?_, fun hlt hnone => ?_⟩
  · have hpos := pos_add_one hlt
    have hbit := streamBit_eq_ok.2 ⟨b, hb, rfl⟩
    exact ⟨_, exec_upNextBit_of_ok (Nat.ne_of_lt hlt) hbit, toNat_setWidth_ofBool _, hpos, (pos_toNat _).trans hpos, rfl⟩
  · exact exec_upNextBit_of_error (Nat.ne_of_lt hlt) (streamBit_eq_error.2 ⟨rfl, hnone⟩)

/-! ### A finished stream -/

/-- PK_FINISH ends OK only on an open packer with room for its partial byte (R103). -/
theorem open_of_pkFinish_ok (h : exec .pkFinish s = .next t) (hok : t.lastRes = .ok) :
    s.packer.closed = false ∧ (s.packer.nb = 0 ∨ s.packer.wptr.toNat + 1 ≤ s.params.payBytes) := by
  rcases execPkFinish_cases h with ⟨-, rfl⟩ | ⟨hc, hn, -⟩ | ⟨-, -, -, rfl⟩ | ⟨hc, -, hfit, -⟩
  · cases hok
  · exact ⟨hc, .inl hn⟩
  · cases hok
  · exact ⟨hc, .inr hfit⟩

/-- Once PAY holds PK_CUR at PK_WPTR, every appended bit is in PAY at its position. -/
theorem streamBit_of_finished {pk : Packer} {m m' : Memory} {j : Nat} (hnb : pk.nb ≤ 7) (hj : j < pk.bitCount)
    (hwritten : ∀ a, a < pk.wptr.toNat → m.read a ≠ none)
    (hcur : pk.nb ≠ 0 → m'.read pk.wptr.toNat = some pk.cur)
    (hkept : ∀ a, (pk.nb = 0 ∨ a ≠ pk.wptr.toNat) → m'.read a = m.read a) :
    ∃ b, pk.bitAt m j = some b ∧ streamBit m' j = .ok b := by
  have hcount : pk.bitCount = 8 * pk.wptr.toNat + pk.nb := rfl
  by_cases hlt : j / 8 < pk.wptr.toNat
  · obtain ⟨c, hc⟩ := Option.ne_none_iff_exists'.1 (hwritten _ hlt)
    refine ⟨byteBit c j, by rw [bitAt_written m hlt, hc]; rfl, streamBit_eq_ok.2 ⟨c, ?_, rfl⟩⟩
    rw [hkept _ (.inr (by omega)), hc]
  · have hbyte : j / 8 = pk.wptr.toNat := by omega
    refine ⟨byteBit pk.cur j, bitAt_partial m (by omega) (by omega), streamBit_eq_ok.2 ⟨pk.cur, ?_, rfl⟩⟩
    rw [hbyte, hcur (by omega)]

/-- R111: with N = ⌈B/8⌉ and k the number of bits in the last byte, T is B. -/
theorem reportedBits_eq {B k : Nat} {n : Word} (hn : n.toNat = (B + 7) / 8)
    (hk : k = if B % 8 = 0 then 8 else B % 8) : (if n = 0 then 0 else 8 * (n.toNat - 1) + k) = B := by
  have hzero : n = 0 ↔ n.toNat = 0 := BitVec.toNat_eq
  by_cases h0 : n = 0
  · rw [if_pos h0]
    have := hzero.1 h0
    omega
  · rw [if_neg h0]
    have := mt hzero.2 h0
    split at hk <;> omega

/-- Settles O37: the report of PK_FINISH (O33) is a legal UP_START, whose T is the number of appended bits. -/
theorem finishedStreamReplaysItsBits : Obligations.FinishedStreamReplaysItsBits := by
  intro s t hp hk hwritten h hok
  obtain ⟨hopen, hroom⟩ := open_of_pkFinish_ok h hok
  obtain ⟨-, -, hfinish⟩ := pkFinishReportsTheValidCount s hp hk
  obtain ⟨t', ht', -, hbytes, hcount, -, hcur, hkept⟩ := hfinish hopen hroom
  cases h.symm.trans ht'
  obtain ⟨hnb, hwptr, -⟩ := hk
  have hB : s.packer.bitCount = 8 * s.packer.wptr.toNat + s.packer.nb := rfl
  have hvalid : (t.res1.setWidth 8).toNat = if s.packer.bitCount % 8 = 0 then 8 else s.packer.bitCount % 8 := by
    rw [BitVec.toNat_setWidth, hcount, Nat.mod_eq_of_lt (by split <;> omega)]
  have ⟨h1, h8⟩ : 1 ≤ (t.res1.setWidth 8).toNat ∧ (t.res1.setWidth 8).toNat ≤ 8 := by
    rw [hvalid]
    split <;> omega
  have hfit : t.res0.toNat ≤ t.params.payBytes := by
    rw [exec_params h, hbytes]
    omega
  refine ⟨_, exec_upStart_of_fits (s := { t with arg0 := t.res0 }) h1 h8 hfit, rfl, rfl, ?_, fun j hj => ?_⟩
  · exact (meaningfulBits_startedUnpacker h8).trans (reportedBits_eq hbytes hvalid)
  · exact streamBit_of_finished hnb hj hwritten hcur hkept

end Sys2Proof.Machine
end

section
/-! PROOFS. Which PAY bytes bear on a command (10_state.md R32, 20_memory.md R62, 44_bit_unpacker.md R109): with other bytes
in PAY a command answers as before, PAY apart. -/

namespace Sys2Proof.Machine

variable {i : Instr} {s : State} {bits : Bits}

/-- A command's answer with `m` for PAY. -/
def Result.withPay (m : Memory) : Result → Result
  | .next t => .next { t with pay := m }
  | .fault f => .fault f
  | .refused r => .refused r

/-! ### The commands that read PAY -/

/-- UP_NEXT_BIT reads the byte of its position, below T. -/
theorem exec_upNextBit_withPay {m : Memory} (hpos : s.unpacker.pos.toNat ≤ meaningfulBits s.unpacker)
    (h : ∀ p, p < meaningfulBits s.unpacker → m.read (p / 8) = s.pay.read (p / 8)) :
    exec .upNextBit { s with pay := m } = Result.withPay m (exec .upNextBit s) := by
  by_cases hp : s.unpacker.pos.toNat = meaningfulBits s.unpacker
  · rw [exec_upNextBit_of_end hp, exec_upNextBit_of_end (s := { s with pay := m }) hp]
    rfl
  · have hbit := streamBit_congr (h _ (Nat.lt_of_le_of_ne hpos hp))
    cases hb : streamBit s.pay s.unpacker.pos.toNat with
    | ok b =>
      rw [exec_upNextBit_of_ok hp hb, exec_upNextBit_of_ok (s := { s with pay := m }) hp (hbit.trans hb)]
      rfl
    | error f =>
      rw [exec_upNextBit_of_error hp hb, exec_upNextBit_of_error (s := { s with pay := m }) hp (hbit.trans hb)]
      rfl

/-- DEC_STEP's walk goes from its position up to T at most. -/
theorem exec_decStep_withPay {m : Memory} (hpos : s.unpacker.pos.toNat ≤ meaningfulBits s.unpacker)
    (h : ∀ p, p < meaningfulBits s.unpacker → m.read (p / 8) = s.pay.read (p / 8)) :
    exec .decStep { s with pay := m } = Result.withPay m (exec .decStep s) := by
  have hwalk := walk_congr s.decoder (left := meaningfulBits s.unpacker - s.unpacker.pos.toNat)
    (p := s.unpacker.pos.toNat) (fun j _ hj => h j (by omega)) 0
  simp only [exec, execDecStep, hwalk]
  split
  · rfl
  · split
    · rfl
    · split <;> rfl

/-- UP_NEXT_BIT and DEC_STEP answer the same with any PAY that agrees below UP_LEN. -/
theorem exec_withPay_of_agree {m : Memory} (hi : i = .upNextBit ∨ i = .decStep) (hu : UnpackerInv s)
    (hm : ∀ a, a < s.unpacker.len.toNat → m.read a = s.pay.read a) :
    exec i { s with pay := m } = Result.withPay m (exec i s) := by
  obtain ⟨-, hvalid, -, hpos⟩ := hu
  have hread (p : Nat) (hp : p < meaningfulBits s.unpacker) : m.read (p / 8) = s.pay.read (p / 8) :=
    hm _ (byte_lt_len hvalid hp)
  rcases hi with rfl | rfl
  · exact exec_upNextBit_withPay hpos hread
  · exact exec_decStep_withPay hpos hread

/-- A stop of UP_NEXT_BIT or DEC_STEP names the byte of a position below T, which lies below UP_LEN. -/
theorem exec_fault_below_len {f : Fault} (hi : i = .upNextBit ∨ i = .decStep) (hu : UnpackerInv s)
    (h : exec i s = .fault f) : ∃ a, f = .unwrittenPayload a ∧ a < s.unpacker.len.toNat := by
  obtain ⟨-, hvalid, -, hpos⟩ := hu
  rcases hi with rfl | rfl
  · obtain ⟨hne, hf, -⟩ := execUpNextBit_fault h
    exact ⟨_, hf, byte_lt_len hvalid (Nat.lt_of_le_of_ne hpos hne)⟩
  · obtain ⟨j, -, hj, -, hf⟩ := execDecStep_fault h
    exact ⟨_, hf, byte_lt_len hvalid (by omega)⟩

/-! ### The commands that do not read PAY -/

theorem appendedBits_withPay (i : Instr) (s : State) (m : Memory) :
    appendedBits i { s with pay := m } = appendedBits i s := by
  cases i <;> rfl

theorem preconditionHolds_withPay (i : Instr) (s : State) (m : Memory) :
    preconditionHolds i { s with pay := m } = preconditionHolds i s := by
  cases i <;> rfl

theorem lacksCode_withPay (i : Instr) (s : State) (m : Memory) : lacksCode i { s with pay := m } = lacksCode i s := by
  cases i <;> rfl

theorem res2AfterAppend_withPay (i : Instr) (s : State) (m : Memory) :
    res2AfterAppend i { s with pay := m } = res2AfterAppend i s := by
  cases i <;> rfl

/-- An append leaves the same state but for PAY, where it pushes the bits on what is there. -/
theorem afterAppend_withPay (i : Instr) (bits : Bits) (s : State) (m : Memory) :
    State.afterAppend { s with pay := m } i bits
      = { s.afterAppend i bits with pay := (pushBits s.packer m bits).2 } := by
  simp only [State.afterAppend, State.appended, res2AfterAppend_withPay, pushBits_packer s.packer m s.pay]

theorem exec_append_withPay (hb : appendedBits i s = some bits) (m : Memory) :
    ∃ m', exec i { s with pay := m } = Result.withPay m' (exec i s) := by
  rw [exec_append hb, exec_append ((appendedBits_withPay i s m).trans hb), appendCommand, appendCommand,
    preconditionHolds_withPay, lacksCode_withPay, afterAppend_withPay]
  split
  · exact ⟨m, rfl⟩
  · split
    · exact ⟨m, rfl⟩
    · split
      · exact ⟨m, rfl⟩
      · split
        · exact ⟨m, rfl⟩
        · exact ⟨(pushBits s.packer m bits).2, rfl⟩

theorem exec_pkFinish_withPay (s : State) (m : Memory) :
    ∃ m', exec .pkFinish { s with pay := m } = Result.withPay m' (exec .pkFinish s) := by
  simp only [exec, execPkFinish]
  split
  · exact ⟨m, rfl⟩
  · split
    · exact ⟨m, rfl⟩
    · split
      · exact ⟨m, rfl⟩
      · exact ⟨m.write s.packer.wptr.toNat s.packer.cur, rfl⟩

/-- A command that neither reads nor stores PAY answers the same with any PAY. -/
theorem exec_withPay_of_no_store (ha : appendedBits i s = none) (hf : i ≠ .pkFinish) (hn : i ≠ .upNextBit)
    (hd : i ≠ .decStep) (m : Memory) : exec i { s with pay := m } = Result.withPay m (exec i s) := by
  cases i with
  | nop | clearStatus | softReset | freqClear | freqSet v | freqGet v | pkReset | decClear => rfl
  | build | readNode | genCodes | getCode v | upStart k =>
    simp only [exec, execBuild, execReadNode, execGenCodes, execGetCode, execUpStart]
    repeat' split
    all_goals rfl
  | decInsert v n =>
    simp only [exec, execDecInsert]
    split
    · rfl
    · cases insertCode s.params.decIntCap s.decoder v (codebufBits s.cb n.toNat).dropLast _ <;> rfl
  | pkAppendBit | pkAppendBits | pkEncode => cases ha
  | pkFinish => exact absurd rfl hf
  | upNextBit => exact absurd rfl hn
  | decStep => exact absurd rfl hd

/-- PAY apart, a command other than UP_NEXT_BIT and DEC_STEP answers the same whatever PAY holds. -/
theorem exec_withPay (hn : i ≠ .upNextBit) (hd : i ≠ .decStep) (s : State) (m : Memory) :
    ∃ m', exec i { s with pay := m } = Result.withPay m' (exec i s) := by
  cases hb : appendedBits i s with
  | some bits => exact exec_append_withPay hb m
  | none =>
    by_cases hf : i = .pkFinish
    · subst hf
      exact exec_pkFinish_withPay s m
    · exact ⟨m, exec_withPay_of_no_store hb hf hn hd m⟩

/-- Settles O13: the two readers stay below T, whose bytes lie below UP_LEN. -/
theorem readsStayBelowUpLen : Obligations.ReadsStayBelowUpLen := by
  refine fun i s m => ⟨fun hi hu hm => ?_, fun hn hd t h => ?_⟩
  · rw [exec_withPay_of_agree hi hu hm]
    exact ⟨fun t h => by rw [h]; rfl, fun f h => ⟨by rw [h]; rfl, exec_fault_below_len hi hu h⟩⟩
  · obtain ⟨m', hm'⟩ := exec_withPay hn hd s m
    exact ⟨{ t with pay := m' }, by rw [hm', h]; rfl, rfl⟩

end Sys2Proof.Machine
end

section
/-! PROOFS. DEC_STEP (45_decoder.md R117): what its walk does with bits that lead over internal nodes, and how it ends. -/

namespace Sys2Proof.Machine

variable {d : Decoder} {m : Memory} {s : State} {p q : Bits} {i j x left : Nat}

/-! ### The walk along a bit sequence -/

/-- The stream holds the bits of `p` from position `x` on. -/
abbrev Spells (m : Memory) (x : Nat) (p : Bits) : Prop := ∀ k b, p[k]? = some b → streamBit m (x + k) = .ok b

theorem Spells.append (h : Spells m x (p ++ q)) : Spells m x p ∧ Spells m (x + p.length) q := by
  refine ⟨fun k b hk => h k b ?_, fun k b hk => ?_⟩
  · rw [List.getElem?_append_left (List.getElem?_eq_some_iff.1 hk).1, hk]
  · rw [Nat.add_assoc]
    refine h _ b ?_
    rw [List.getElem?_append_right (by omega), Nat.add_sub_cancel_left, hk]

theorem Spells.head {b : Bool} (h : Spells m x (b :: p)) : streamBit m x = .ok b := h 0 b rfl

/-- Bits that lead over internal nodes only take the walk to the node they reach. -/
theorem walk_reach (hr : d.reach i p = some j) (hs : Spells m x p) (left : Nat) :
    walk d m (p.length + left) i x = walk d m left j (x + p.length) := by
  induction p generalizing i x with
  | nil => cases hr; simp
  | cons b p ih =>
    obtain ⟨-, htail⟩ := Spells.append (p := [b]) hs
    have hlen : (b :: p).length + left = (p.length + left) + 1 := by rw [List.length_cons]; omega
    simp only [Decoder.reach] at hr
    rw [hlen, walk, hs.head]
    dsimp only
    cases hc : d.child i b with
    | none => simp [hc] at hr
    | leaf v => simp [hc] at hr
    | node k =>
      simp only [hc] at hr
      rw [List.length_cons, Nat.add_comm p.length 1, ← Nat.add_assoc]
      exact ih hr htail

theorem walk_noChild {b : Bool} (hr : d.reach i p = some j) (hc : d.child j b = .none) (hs : Spells m x (p ++ [b]))
    (left : Nat) : walk d m (p.length + (left + 1)) i x = .bad .eNoChild := by
  obtain ⟨hinit, hlast⟩ := hs.append
  rw [walk_reach hr hinit, walk, hlast.head]
  simp only [hc]

theorem walk_leaf {b : Bool} {v : Byte} (hr : d.reach i p = some j) (hc : d.child j b = .leaf v)
    (hs : Spells m x (p ++ [b])) (left : Nat) :
    walk d m (p.length + (left + 1)) i x = .symbol v (x + (p.length + 1)) := by
  obtain ⟨hinit, hlast⟩ := hs.append
  rw [walk_reach hr hinit, walk, hlast.head]
  simp only [hc, Nat.add_assoc]

theorem walk_unwritten (hr : d.reach i p = some j) (hs : Spells m x p) (hread : m.read ((x + p.length) / 8) = none)
    (left : Nat) : walk d m (p.length + (left + 1)) i x = .unreadable (.unwrittenPayload ((x + p.length) / 8)) := by
  rw [walk_reach hr hs, walk, streamBit_eq_error.2 ⟨rfl, hread⟩]

/-- A bit sequence that goes on to as many nodes as it has bits, or more, leads over internal nodes only. -/
theorem exists_reach_of_length_le (h : p.length ≤ d.depthAlong i (p ++ q)) : ∃ j, d.reach i p = some j := by
  induction p generalizing i with
  | nil => exact ⟨i, rfl⟩
  | cons b p ih =>
    simp only [List.cons_append, Decoder.depthAlong, List.length_cons] at h
    simp only [Decoder.reach]
    cases hc : d.child i b with
    | none => simp [hc] at h
    | leaf v => simp [hc] at h
    | node k =>
      simp only [hc] at h
      exact ih (by omega)

theorem exists_reach_of_depthAlong (h : d.depthAlong i p = p.length) : ∃ j, d.reach i p = some j :=
  exists_reach_of_length_le (q := []) (Nat.le_of_eq (by rw [List.append_nil, h]))

/-! ### How DEC_STEP ends -/

theorem exec_decStep_of_end (h : s.decoder.nEnt = 0 ∨ s.unpacker.pos.toNat = meaningfulBits s.unpacker) :
    exec .decStep s = .next (s.ended .endOfData) := by
  change execDecStep s = _
  by_cases h0 : s.decoder.nEnt = 0
  · exact if_pos h0
  · exact (if_neg h0).trans (if_pos (h.resolve_left h0))

/-- What the end of its walk makes of DEC_STEP. -/
def State.afterWalk (s : State) : WalkEnd → Result
  | .unreadable f => .fault f
  | .bad e => .next (s.failed e)
  | .symbol v next => .next (State.ended { s with
      unpacker := { s.unpacker with pos := BitVec.ofNat 35 next }, res0 := v.setWidth 32
      res1 := BitVec.ofNat 32 (next - s.unpacker.pos.toNat)
      res2 := posLow (BitVec.ofNat 35 next), res3 := posHigh (BitVec.ofNat 35 next) } .ok)

/-- With a code and bits left below T, DEC_STEP walks them. -/
theorem exec_decStep_of_walk (h0 : s.decoder.nEnt ≠ 0) (hT : meaningfulBits s.unpacker = s.unpacker.pos.toNat + left)
    (hleft : left ≠ 0) :
    exec .decStep s = s.afterWalk (walk s.decoder s.pay left 0 s.unpacker.pos.toNat) := by
  refine (if_neg h0).trans ((if_neg (by omega)).trans ?_)
  rw [hT, Nat.add_sub_cancel_left]
  cases walk s.decoder s.pay left 0 s.unpacker.pos.toNat <;> rfl

/-- T fits UP_POS, whatever UP_VALID holds. -/
theorem meaningfulBits_lt_two_pow (u : Unpacker) : meaningfulBits u < 2 ^ 35 := by
  have hlen := u.len.isLt
  have hvalid := u.valid.isLt
  unfold meaningfulBits
  split <;> omega

/-! ### The obligations -/

/-- Settles O42: the walk reaches the LEAF's node with all bits of the code but the last. -/
theorem decStepDecodesACode : Obligations.DecStepDecodesACode := by
  intro s p v h0 hcode hroom hs
  obtain ⟨init, b, rfl⟩ := bits_snoc (q := p) (by rintro rfl; cases hcode)
  obtain ⟨j, hr, hc⟩ := (byteOf_snoc ..).1 hcode
  rw [List.length_append, List.length_singleton] at hroom ⊢
  obtain ⟨left, hT⟩ := Nat.exists_eq_add_of_le hroom
  have hexec : exec .decStep s = s.afterWalk (.symbol v (s.unpacker.pos.toNat + (init.length + 1))) :=
    (exec_decStep_of_walk h0 (by omega) (by omega)).trans (congrArg s.afterWalk (walk_leaf hr hc hs left))
  have hpos : (BitVec.ofNat 35 (s.unpacker.pos.toNat + (init.length + 1))).toNat
      = s.unpacker.pos.toNat + (init.length + 1) :=
    (BitVec.toNat_ofNat ..).trans (Nat.mod_eq_of_lt (Nat.lt_of_le_of_lt hroom (meaningfulBits_lt_two_pow _)))
  refine ⟨_, hexec, ?_, ?_, hpos, (pos_toNat _).trans hpos, rfl⟩
  · exact (BitVec.toNat_setWidth ..).trans (Nat.mod_eq_of_lt (Nat.lt_trans v.isLt (by decide)))
  · exact congrArg (BitVec.ofNat 32) (Nat.add_sub_cancel_left ..)

/-- E_TRUNCATED: the bits up to T lead over internal nodes only. -/
theorem exec_decStep_of_truncated (h0 : s.decoder.nEnt ≠ 0) (hs : Spells s.pay s.unpacker.pos.toNat p) (hp : p ≠ [])
    (hT : s.unpacker.pos.toNat + p.length = meaningfulBits s.unpacker) (hd : s.decoder.depthAlong 0 p = p.length) :
    exec .decStep s = .next (s.failed .eTruncated) := by
  obtain ⟨j, hr⟩ := exists_reach_of_depthAlong hd
  have hlen : p.length ≠ 0 := mt List.length_eq_zero_iff.1 hp
  exact (exec_decStep_of_walk h0 hT.symm hlen).trans (congrArg s.afterWalk (walk_reach hr hs 0))

/-- E_NO_CHILD: within T the bits lead over internal nodes, the last one to an empty slot. -/
theorem exec_decStep_of_noChild (h0 : s.decoder.nEnt ≠ 0) (hs : Spells s.pay s.unpacker.pos.toNat p)
    (hT : s.unpacker.pos.toNat + p.length ≤ meaningfulBits s.unpacker)
    (hd : s.decoder.depthAlong 0 p + 1 = p.length) (hslot : s.decoder.slotAt 0 p = .none) :
    exec .decStep s = .next (s.failed .eNoChild) := by
  obtain ⟨init, b, rfl⟩ := bits_snoc (q := p) (by rintro rfl; cases hd)
  rw [List.length_append, List.length_singleton] at hT hd
  obtain ⟨j, hr⟩ := exists_reach_of_length_le (Nat.le_of_eq (Nat.succ.inj hd).symm)
  rw [slotAt_reach hr, slotAt_last] at hslot
  obtain ⟨left, hT⟩ := Nat.exists_eq_add_of_le hT
  exact (exec_decStep_of_walk h0 (by omega) (by omega)).trans
    (congrArg s.afterWalk (walk_noChild hr hslot hs left))

/-- The model fault: the bits lead over internal nodes only, to a position below T in an unwritten byte. -/
theorem exec_decStep_of_unwritten (h0 : s.decoder.nEnt ≠ 0) (hs : Spells s.pay s.unpacker.pos.toNat p)
    (hT : s.unpacker.pos.toNat + p.length < meaningfulBits s.unpacker) (hd : s.decoder.depthAlong 0 p = p.length)
    (hread : s.pay.read ((s.unpacker.pos.toNat + p.length) / 8) = none) :
    exec .decStep s = .fault (.unwrittenPayload ((s.unpacker.pos.toNat + p.length) / 8)) := by
  obtain ⟨j, hr⟩ := exists_reach_of_depthAlong hd
  obtain ⟨left, hT⟩ := Nat.exists_eq_add_of_lt hT
  exact (exec_decStep_of_walk h0 (by omega) (by omega)).trans
    (congrArg s.afterWalk (walk_unwritten hr hs hread left))

/-- Settles O43, one lemma for each end. -/
theorem decStepEndsWithoutAByte : Obligations.DecStepEndsWithoutAByte :=
  fun _ => ⟨exec_decStep_of_end, fun _ h0 hs =>
    ⟨exec_decStep_of_truncated h0 hs, exec_decStep_of_noChild h0 hs, exec_decStep_of_unwritten h0 hs⟩⟩

end Sys2Proof.Machine
end

section
/-! PROOFS. DEC_CLEAR and DEC_INSERT (45_decoder.md R113–R116): the empty tree, an insert's checks in terms of the slot its
code leads to, and the code it adds. -/

namespace Sys2Proof.Machine

variable {d : Decoder} {s : State} {cap i j : Nat} {v n : Byte} {pre rest path code : Bits} {last : Bool}

/-! ### DEC_CLEAR -/

/-- Settles O38: only node 0 is written, and DEC_STEP ends END because DEC_NENT is 0. -/
theorem decClearEmptiesTheTree : Obligations.DecClearEmptiesTheTree := by
  intro s
  refine ⟨_, rfl, fun b => ?_, fun k b hk => ?_, rfl, ByteTable.get_replicate false, rfl, ?_, rfl,
    exec_decStep_of_end (.inl rfl)⟩
  · exact (congrArg (DNode.child · b) (Decoder.nodeAt_setNode_same s.decoder 0 DNode.empty)).trans (child_empty b)
  · exact congrArg (DNode.child · b) (Decoder.nodeAt_setNode_other s.decoder 0 k DNode.empty hk)
  · exact statusBits _ 11

/-! ### How DEC_INSERT ends -/

/-- An insert's OK end before LASTRES: the new tree, its counts in RES0 and RES1. -/
abbrev State.inserted (s : State) (d : Decoder) : State :=
  { s with decoder := d, res0 := BitVec.ofNat 32 d.nEnt, res1 := BitVec.ofNat 32 d.dnCount }

theorem exec_decInsert_of_code (h : codebufBits s.cb n.toNat = path ++ [last]) :
    exec (.decInsert v n) s
      = complete s ((insertCode s.params.decIntCap s.decoder v path last).map s.inserted) := by
  simp only [exec, execDecInsert, h, List.getLast?_concat, List.dropLast_concat]

theorem insertCode_of_seen (h : ByteTable.get d.seen v = true) : insertCode cap d v path last = .error .eDuplicate :=
  if_pos h

/-- A new byte's code whose slot is taken collides (R115). -/
theorem insertCode_of_taken (hv : ByteTable.get d.seen v = false) (h : d.slotAt 0 (path ++ [last]) ≠ .none) :
    insertCode cap d v path last = .error .ePrefix := by
  rcases followPath_code d path last with ⟨hf, -⟩ | ⟨j, pre, rest, hf, -, -, -, hslot, -⟩
  · simp [insertCode, hv, hf]
  · rw [hslot] at h
    have hrest : rest = [] := Classical.byContradiction fun hne => h (if_neg hne)
    rw [if_pos hrest] at h
    simp [insertCode, hv, hf, hrest, h]

/-- Where a free code leaves the tree: node `j` at the end of `pre`, with `rest` the bits of the path that have no node. -/
structure Decoder.LeavesAt (d : Decoder) (path : Bits) (last : Bool) (pre rest : Bits) (j : Nat) : Prop where
  path_eq : path = pre ++ rest
  reach : d.reach 0 pre = some j
  empty : ∀ b rest', rest = b :: rest' → d.child j b = .none
  free : rest = [] → d.child j last = .none
  follow : followPath d 0 path = some (j, rest)
  missing : path.length - d.depthAlong 0 (path ++ [last]) = rest.length

theorem exists_leavesAt (h : d.slotAt 0 (path ++ [last]) = .none) : ∃ pre rest j, d.LeavesAt path last pre rest j := by
  rcases followPath_code d path last with ⟨-, hne⟩ | ⟨j, pre, rest, hf, hpath, hr, hn, hslot, hlen⟩
  · exact absurd h hne
  · refine ⟨pre, rest, j, hpath, hr, hn, fun hrest => ?_, hf, hlen h⟩
    rw [← h, hslot, if_pos hrest]

/-- Phase 2's tree (R114): the missing nodes, then the leaf. -/
def Decoder.withCode (d : Decoder) (j : Nat) (rest : Bits) (last : Bool) (v : Byte) : Decoder :=
  { (extendPath d j rest).1.setChild (extendPath d j rest).2 last (.leaf v) with
    seen := ByteTable.put (extendPath d j rest).1.seen v true
    nEnt := (extendPath d j rest).1.nEnt + 1 }

/-- A new byte's free code needs room for its missing nodes only. -/
theorem insertCode_of_leavesAt (hv : ByteTable.get d.seen v = false) (h : d.LeavesAt path last pre rest j) :
    insertCode cap d v path last
      = if cap < d.dnCount + rest.length then .error .eNodeFull else .ok (d.withCode j rest last v) := by
  have hopen : ¬ (rest = [] ∧ d.child j last ≠ .none) := fun hc => hc.2 (h.free hc.1)
  simp only [insertCode, hv, h.follow, if_neg hopen]
  rfl

/-- The missing nodes hang off the path: they end in a node whose slot for the last bit is empty. -/
theorem Decoder.LeavesAt.extendPath_free (h : d.LeavesAt path last pre rest j) (hd : d.Shaped) :
    (extendPath d j rest).1.child (extendPath d j rest).2 last = .none := by
  obtain ⟨-, -, -, -, -, hnew, hsame, -⟩ := extendPath_spec hd h.reach h.empty
  by_cases hrest : rest = []
  · rw [hsame hrest]
    exact h.free hrest
  · exact hnew last hrest

/-- An insert adds exactly its code (R114), and counts its nodes and its entry (R116). -/
theorem Decoder.LeavesAt.withCode_spec (h : d.LeavesAt path last pre rest j) (hd : d.Shaped) (v : Byte) :
    let t := d.withCode j rest last v
    t.byteOf 0 (path ++ [last]) = some v
      ∧ (∀ q w, q ≠ path ++ [last] → (t.byteOf 0 q = some w ↔ d.byteOf 0 q = some w))
      ∧ t.seen = ByteTable.put d.seen v true ∧ t.nEnt = d.nEnt + 1 ∧ t.dnCount = d.dnCount + rest.length := by
  obtain ⟨hshaped, hcount, hseen, hent, hreach, -, -, hkept⟩ := extendPath_spec hd h.reach h.empty
  rw [← h.path_eq] at hreach
  obtain ⟨hnew, hother⟩ := leaf_byteOf (v := v) hshaped (h.extendPath_free hd) hreach
  have hdn : (d.withCode j rest last v).dn
      = ((extendPath d j rest).1.setChild (extendPath d j rest).2 last (.leaf v)).dn := rfl
  refine ⟨(byteOf_of_dn_eq hdn ..).trans hnew, fun q w hq => ?_, ?_, ?_, hcount⟩
  · rw [byteOf_of_dn_eq hdn]
    exact (hother q w hq).trans (hkept q w)
  · exact congrArg (ByteTable.put · v true) hseen
  · exact congrArg (· + 1) hent

/-! ### The obligations -/

theorem exec_decInsert_of_taken (hn : n ≠ 0) (hv : ByteTable.get s.decoder.seen v = false)
    (h : s.decoder.slotAt 0 (codebufBits s.cb n.toNat) ≠ .none) :
    exec (.decInsert v n) s = .next (s.failed .ePrefix) := by
  obtain ⟨path, last, hc, -⟩ := codebufBits_snoc s.cb hn
  rw [hc] at h
  rw [exec_decInsert_of_code hc, insertCode_of_taken hv h]
  rfl

/-- Settles O39: the checks of R114 in its order. -/
theorem decInsertErrorsInOrder : Obligations.DecInsertErrorsInOrder := by
  rintro s v n _ rfl
  refine ⟨?_, fun hn hv => ?_, exec_decInsert_of_taken, fun hn hv hslot hfull => ?_⟩
  · rintro rfl
    rfl
  · obtain ⟨path, last, hc, -⟩ := codebufBits_snoc s.cb hn
    rw [exec_decInsert_of_code hc, insertCode_of_seen hv]
    rfl
  · obtain ⟨path, last, hc, hlen⟩ := codebufBits_snoc s.cb hn
    rw [hc] at hslot hfull
    obtain ⟨pre, rest, j, hl⟩ := exists_leavesAt hslot
    rw [← hlen, hl.missing] at hfull
    rw [exec_decInsert_of_code hc, insertCode_of_leavesAt hv hl, if_pos hfull]
    rfl

/-- A nonempty bit sequence that starts with a code of the tree, or starts one, leads to a slot that is taken: the code's
LEAF, or an internal node on the way to it (R115). -/
theorem slotAt_ne_none_of_byteOf {q : Bits} {w : Byte} (hq : d.byteOf i q = some w) (hne : code ≠ [])
    (hp : q <+: code ∨ code <+: q) : d.slotAt i code ≠ .none := by
  induction q generalizing i code with
  | nil => cases hq
  | cons b q ih =>
    obtain ⟨x, code, rfl⟩ := List.exists_cons_of_ne_nil hne
    rw [List.cons_prefix_cons, List.cons_prefix_cons] at hp
    obtain rfl : b = x := hp.elim (·.1) (·.1.symm)
    have hp' : q <+: code ∨ code <+: q := hp.imp (·.2) (·.2)
    simp only [Decoder.byteOf] at hq
    simp only [Decoder.slotAt]
    cases hc : d.child i b with
    | none => simp [hc] at hq
    | leaf v => simp
    | node k =>
      simp only [hc] at hq
      by_cases hcode : code = []
      · simp [hcode]
      · simpa only [if_neg hcode] using ih hq hcode hp'

/-- Settles O40: a colliding code leads to a slot that is taken. -/
theorem collidingCodeEndsEPrefix : Obligations.CollidingCodeEndsEPrefix := by
  intro s v n w q hn hv hq hp
  refine exec_decInsert_of_taken hn hv (slotAt_ne_none_of_byteOf hq ?_ hp)
  obtain ⟨path, last, hc, -⟩ := codebufBits_snoc s.cb hn
  simp [hc]

/-- R36 item 5 and R7 bound both counts of the tree, so that RES0 and RES1 hold all of them. -/
theorem DecoderInv.counts_lt (h : DecoderInv s) (hw : ParamsInv s) :
    s.decoder.nEnt < 2 ^ 32 ∧ s.decoder.dnCount < 2 ^ 32 := by
  obtain ⟨-, -, -, hcap⟩ := hw
  have hsound := (decoderInv_iff s).1 h
  have hroom := hsound.room
  have hent : s.decoder.nEnt ≤ 256 := by
    rw [hsound.nEnt, ByteTable.keysWhere_eq]
    exact Nat.le_trans (List.length_filter_le ..) (Nat.le_of_eq List.length_range)
  omega

/-- Settles O41: phase 2 adds the code (R114), and the tree it leaves is in the decoder's invariant again. -/
theorem decInsertAddsExactlyItsCode : Obligations.DecInsertAddsExactlyItsCode := by
  rintro s v n _ hw hd rfl hn hv hslot hroom
  obtain ⟨path, last, hc, hlen⟩ := codebufBits_snoc s.cb hn
  rw [hc] at hslot hroom ⊢
  obtain ⟨pre, rest, j, hl⟩ := exists_leavesAt hslot
  rw [← hlen, hl.missing] at hroom ⊢
  have hexec : exec (.decInsert v n) s = .next ((s.inserted (s.decoder.withCode j rest last v)).ended .ok) := by
    rw [exec_decInsert_of_code hc, insertCode_of_leavesAt hv hl, if_neg (Nat.not_lt.2 hroom)]
    rfl
  obtain ⟨hnew, hother, hseen, hent, hcount⟩ := hl.withCode_spec hd.shaped v
  have hd' := exec_keeps_decoderInv hw hexec hd
  obtain ⟨hentlt, hcountlt⟩ := hd'.counts_lt hw
  refine ⟨_, hexec, hnew, hother, ?_, fun w hwv => ?_, hent, hcount, ?_, ?_, rfl⟩
  · exact (congrArg (ByteTable.get · v) hseen).trans (ByteTable.get_put_same ..)
  · exact (congrArg (ByteTable.get · w) hseen).trans ((ByteTable.get_put ..).trans (if_neg hwv))
  · exact (BitVec.toNat_ofNat ..).trans (Nat.mod_eq_of_lt hentlt)
  · exact (BitVec.toNat_ofNat ..).trans (Nat.mod_eq_of_lt hcountlt)

end Sys2Proof.Machine
end

section
/-! PROOFS. The control commands (46_control.md): NOP, CLEAR_STATUS and SOFT_RESET. -/

namespace Sys2Proof.Machine

theorem exec_nop (s : State) : exec .nop s = .next (s.ended .ok) := rfl

theorem exec_clearStatus (s : State) : exec .clearStatus s = .next (State.ended { s with err := false } .ok) := rfl

/-- Settles O15: each of the two commands ends OK on a state that differs in ERR at most. -/
theorem nopAndClearStatusComplete : Obligations.NopAndClearStatusComplete :=
  fun s => ⟨exec_nop s, exec_clearStatus s⟩

/-- SOFT_RESET writes LASTRES itself, so that ending OK adds nothing to it. -/
theorem exec_softReset (s : State) : exec .softReset s = .next (softReset s) := rfl

/-- The fields STATUS is made of have one column in R35 for both resets. -/
theorem statusWord_softReset (s : State) : statusWord (softReset s) = 0 :=
  calc statusWord (softReset s)
    _ = statusWord (State.resetWith s.params) := rfl
    _ = 0 := statusWord_resetWith s.params

theorem softReset_nodeAt_zero (s : State) : (softReset s).decoder.nodeAt 0 = DNode.empty :=
  Decoder.nodeAt_setNode_same s.decoder 0 DNode.empty

theorem softReset_nodeAt_of_ne_zero (s : State) {j : Nat} (hj : j ≠ 0) :
    (softReset s).decoder.nodeAt j = s.decoder.nodeAt j :=
  Decoder.nodeAt_setNode_other s.decoder 0 j DNode.empty hj

/-- Settles O16, row by row of R35: tables read 0 at every index, DN[0] alone is written, single fields compute. -/
theorem softResetGivesTheResetColumn : Obligations.SoftResetGivesTheResetColumn := by
  intro s
  have hcb (k : Fin 8) : (softReset s).cb[k.val] = 0 := Vector.getElem_replicate ..
  have hfreq : ∀ v, ByteTable.get (softReset s).freq v = 0 := ByteTable.get_replicate 0
  have hinTree : ∀ v, ByteTable.get (softReset s).builder.inTree v = false := ByteTable.get_replicate false
  have hseen : ∀ v, ByteTable.get (softReset s).decoder.seen v = false := ByteTable.get_replicate false
  exact ⟨softReset s, exec_softReset s, ⟨rfl, rfl, rfl, rfl⟩, statusWord_softReset s, rfl, rfl, rfl, rfl, rfl, rfl, rfl,
    hcb, hfreq, rfl, rfl, hinTree, rfl, rfl, rfl, rfl, rfl, rfl, rfl, rfl, rfl, rfl, rfl, softReset_nodeAt_zero s,
    fun _ => softReset_nodeAt_of_ne_zero s, rfl, hseen, rfl, fun _ => rfl⟩

end Sys2Proof.Machine
end

section
/-! PROOFS. How a command ends (60_exceptions.md R136–R142): the outcomes of each command, ERR, and the state
preconditions. -/

namespace Sys2Proof.Machine

variable {i : Instr} {s t : State} {bits : Bits}

/-! ### Every way a command ends -/

/-- The ways a command can end (R136), each with what holds of the command and what it leaves of the state. -/
inductive CommandEnd (i : Instr) (s : State) : State → Prop where
  | illegal (hw : i.wellFormed = false) : CommandEnd i s (s.failed .eIllegal)
  | error {e : CmdOutcome} (he : e.isError = true) (hlisted : e ∈ allowedOutcomes i)
      (hseq : e = .eSequence → preconditionHolds i s = false) : CommandEnd i s (s.failed e)
  | endOfData (hlisted : .endOfData ∈ allowedOutcomes i) : CommandEnd i s (s.ended .endOfData)
  | empty {u : State} (hi : i = .build) (herr : u.err = s.err) (htree : u.builder.valid = false)
      (hcodes : u.codes.valid = false) : CommandEnd i s (u.ended .empty)
  | ok {u : State} (herr : ¬ (i = .clearStatus ∨ i = .softReset) → u.err = s.err) : CommandEnd i s (u.ended .ok)

/-- A failed state precondition ends E_SEQUENCE (R138). -/
theorem CommandEnd.sequence (hlisted : .eSequence ∈ allowedOutcomes i) (hp : preconditionHolds i s = false) :
    CommandEnd i s (s.failed .eSequence) :=
  .error rfl hlisted fun _ => hp

/-- OK of a command that does not write ERR. -/
theorem CommandEnd.ok_of_err {u : State} (herr : u.err = s.err) : CommandEnd i s (u.ended .ok) := .ok fun _ => herr

theorem ok_mem_allowedOutcomes (i : Instr) : .ok ∈ allowedOutcomes i := by
  cases i <;> simp [allowedOutcomes]

theorem append_allowedOutcomes (hb : appendedBits i s = some bits) :
    .eSequence ∈ allowedOutcomes i ∧ .ePayloadFull ∈ allowedOutcomes i := by
  cases i with
  | pkAppendBit | pkAppendBits | pkEncode => simp [allowedOutcomes]
  | _ => cases hb

theorem eNoCode_mem_allowedOutcomes (h : lacksCode i s = true) : .eNoCode ∈ allowedOutcomes i := by
  cases i with
  | pkEncode => simp [allowedOutcomes]
  | _ => cases h

/-- The append commands, check by check (R139). -/
theorem exec_append_end (hb : appendedBits i s = some bits) (h : exec i s = .next t) : CommandEnd i s t := by
  obtain ⟨hseq, hfull⟩ := append_allowedOutcomes hb
  rw [exec_append hb, appendCommand] at h
  split at h
  · next hw =>
    cases h
    exact .illegal hw
  · split at h
    · next hp =>
      cases h
      exact .sequence hseq hp
    · split at h
      · next hl =>
        cases h
        exact .error rfl (eNoCode_mem_allowedOutcomes hl) nofun
      · split at h
        · cases h
          exact .error rfl hfull nofun
        · cases h
          exact .ok_of_err rfl

/-- The errors of an insert's checks (R114). -/
theorem insertCode_error {cap : Nat} {d : Decoder} {v : Byte} {path : Bits} {last : Bool} {e : CmdOutcome}
    (h : insertCode cap d v path last = .error e) : e = .eDuplicate ∨ e = .ePrefix ∨ e = .eNodeFull := by
  rcases insertCode_cases cap d v path last with
    ⟨-, he⟩ | ⟨-, -, he⟩ | ⟨node, rest, -, -, ⟨-, -, he⟩ | ⟨-, -, he⟩ | ⟨-, -, he⟩⟩ <;> cases he.symm.trans h
  · exact .inl rfl
  · exact .inr (.inl rfl)
  · exact .inr (.inl rfl)
  · exact .inr (.inr rfl)

/-- A command that answers has ended in one of the ways of `CommandEnd`. -/
theorem exec_end (h : exec i s = .next t) : CommandEnd i s t := by
  cases i with
  | nop | freqClear | freqSet | freqGet | pkReset | decClear =>
    cases h
    exact .ok_of_err rfl
  | clearStatus | softReset =>
    cases h
    exact .ok fun hi => absurd (by simp) hi
  | build =>
    rcases execBuild_cases h with ⟨-, rfl⟩ | ⟨-, -, rfl⟩ | ⟨-, -, rfl⟩
    · exact .empty rfl rfl rfl rfl
    · exact .error rfl (by simp [allowedOutcomes]) nofun
    · exact .ok_of_err rfl
  | readNode =>
    rcases execReadNode_cases h with ⟨hv, rfl⟩ | ⟨-, -, rfl⟩ | ⟨-, -, -, rfl⟩ | ⟨-, -, -, rfl⟩
    · exact .sequence (by simp [allowedOutcomes]) hv
    · exact .error rfl (by simp [allowedOutcomes]) nofun
    · exact .ok_of_err rfl
    · exact .ok_of_err rfl
  | genCodes =>
    rcases execGenCodes_cases h with ⟨hv, rfl⟩ | ⟨-, rfl⟩
    · exact .sequence (by simp [allowedOutcomes]) hv
    · exact .ok_of_err rfl
  | getCode v =>
    rcases execGetCode_cases h with ⟨hv, rfl⟩ | ⟨-, rfl⟩
    · exact .sequence (by simp [allowedOutcomes]) hv
    · exact .ok_of_err rfl
  | pkAppendBit | pkAppendBits | pkEncode => exact exec_append_end rfl h
  | pkFinish =>
    rcases execPkFinish_cases h with ⟨hc, rfl⟩ | ⟨-, -, rfl⟩ | ⟨-, -, -, rfl⟩ | ⟨-, -, -, rfl⟩
    · exact .sequence (by simp [allowedOutcomes]) (by simp [preconditionHolds, hc])
    · exact .ok_of_err rfl
    · exact .error rfl (by simp [allowedOutcomes]) nofun
    · exact .ok_of_err rfl
  | upStart k =>
    rcases execUpStart_cases h with ⟨-, rfl⟩ | ⟨-, -, -, rfl⟩
    · exact .error rfl (by simp [allowedOutcomes]) nofun
    · exact .ok_of_err rfl
  | upNextBit =>
    rcases execUpNextBit_cases h with ⟨-, rfl⟩ | ⟨-, b, -, rfl⟩
    · exact .endOfData (by simp [allowedOutcomes])
    · exact .ok_of_err rfl
  | decInsert v n =>
    rcases execDecInsert_cases h with ⟨-, rfl⟩ | ⟨path, last, -, ⟨e, he, rfl⟩ | ⟨d, -, rfl⟩⟩
    · exact .error rfl (by simp [allowedOutcomes]) nofun
    · rcases insertCode_error he with rfl | rfl | rfl <;> exact .error rfl (by simp [allowedOutcomes]) nofun
    · exact .ok_of_err rfl
  | decStep =>
    rcases execDecStep_cases h with ⟨-, rfl⟩ | ⟨-, -, (rfl | rfl) | ⟨v, next, -, -, -, rfl⟩⟩
    · exact .endOfData (by simp [allowedOutcomes])
    · exact .error rfl (by simp [allowedOutcomes]) nofun
    · exact .error rfl (by simp [allowedOutcomes]) nofun
    · exact .ok_of_err rfl

/-! ### The obligations -/

/-- Settles O7: the two error ends are `State.failed` of the state before. -/
theorem errorsArePrecise : Obligations.ErrorsArePrecise := by
  intro i s t h he
  cases exec_end h with
  | illegal | error => rfl
  | endOfData | empty | ok => cases he

/-- Settles O9: the two clearing commands end OK with ERR 0, an error sets ERR, and no other end writes it. -/
theorem errIsSticky : Obligations.ErrIsSticky := by
  intro i s t h
  by_cases hi : i = .clearStatus ∨ i = .softReset
  · rw [if_pos hi]
    rcases hi with rfl | rfl <;> cases h <;> rfl
  · rw [if_neg hi]
    cases exec_end h with
    | illegal => exact (Bool.or_true _).symm
    | error he => rw [failed_err, failed_lastRes, he, Bool.or_true]
    | endOfData => exact (Bool.or_false _).symm
    | empty _ herr => exact herr.trans (Bool.or_false _).symm
    | ok herr => exact (herr hi).trans (Bool.or_false _).symm

/-- Settles O8: ERR by `errIsSticky`; only BUILD ends EMPTY, without a tree; END is `State.ended` of the state before. -/
theorem nonErrorOutcomesKeepErr : Obligations.NonErrorOutcomesKeepErr := by
  intro i s t h he
  refine ⟨fun hset => ?_, ?_⟩
  · have herr := errIsSticky i s t h
    rw [hset, he, Bool.or_false] at herr
    split at herr
    · cases herr
    · exact herr.symm
  · cases exec_end h with
    | illegal => cases he
    | error herr => cases herr.symm.trans he
    | endOfData => exact ⟨nofun, fun _ => rfl⟩
    | empty _ _ htree hcodes => exact ⟨fun _ => ⟨htree, hcodes⟩, nofun⟩
    | ok => exact ⟨nofun, nofun⟩

/-- Settles O10: a well-formed command has no illegal end, and every other end is one the table lists. -/
theorem outcomesAreThoseOfTheTable : Obligations.OutcomesAreThoseOfTheTable := by
  intro i s t hw h
  cases exec_end h with
  | illegal hill => cases hw.symm.trans hill
  | error _ hlisted => exact hlisted
  | endOfData hlisted => exact hlisted
  | empty hi =>
    subst hi
    simp [allowedOutcomes]
  | ok => exact ok_mem_allowedOutcomes i

/-- Each command the table of R138 lists makes the check. -/
theorem exec_of_precondition_fails (hw : i.wellFormed = true) (hp : preconditionHolds i s = false) :
    exec i s = .next (s.failed .eSequence) := by
  cases i with
  | readNode => exact (readNodeDescribesANode s).1 hp
  | genCodes => exact exec_genCodes_of_invalid hp
  | getCode v => exact exec_getCode_of_invalid hp v
  | pkAppendBit | pkAppendBits | pkEncode => exact (appendErrorsInOrder _ s _ hw rfl).1 hp
  | pkFinish => exact exec_pkFinish_of_closed (by simpa [preconditionHolds] using hp)
  | _ => cases hp

/-- Settles O11: the check by `exec_of_precondition_fails`; an E_SEQUENCE end says that the precondition failed. -/
theorem eSequenceExactlyWhenThePreconditionFails : Obligations.ESequenceExactlyWhenThePreconditionFails := by
  refine fun i s hw => ⟨exec_of_precondition_fails hw, fun hp t h hseq => ?_⟩
  cases exec_end h with
  | error _ _ hfails => cases hp.symm.trans (hfails hseq)
  | illegal | endOfData | empty | ok => cases hseq

end Sys2Proof.Machine
end

section
/-! PROOFS. The model fault (60_exceptions.md R144): which commands and host reads can meet an unwritten payload byte. -/

namespace Sys2Proof.Machine

variable {i : Instr} {s : State} {m : Memory} {a n : Nat}

theorem complete_answers (s : State) (x : Except CmdOutcome State) : ∃ t, complete s x = .next t := by
  cases x <;> exact ⟨_, rfl⟩

/-- A command that reads no payload byte always answers. -/
theorem exec_answers (hn : i ≠ .upNextBit) (hd : i ≠ .decStep) (s : State) : ∃ t, exec i s = .next t := by
  cases i with
  | nop | clearStatus | softReset | freqClear | freqSet | freqGet | pkReset | decClear => exact ⟨_, rfl⟩
  | build => exact exec_build_answers s
  | readNode => exact exec_readNode_answers s
  | genCodes | getCode | pkFinish | upStart =>
    simp only [exec, execGenCodes, execGetCode, execPkFinish, execUpStart]
    repeat' split
    all_goals exact ⟨_, rfl⟩
  | pkAppendBit | pkAppendBits | pkEncode =>
    rw [exec_append rfl]
    exact complete_answers s _
  | decInsert v n =>
    simp only [exec, execDecInsert]
    split
    · exact ⟨_, rfl⟩
    · exact complete_answers s _
  | upNextBit => exact absurd rfl hn
  | decStep => exact absurd rfl hd

/-- Settles O12: any other command answers, and the two readers stop only at a byte nothing has written. -/
theorem onlyUnwrittenPayloadStopsACommand : Obligations.OnlyUnwrittenPayloadStopsACommand := by
  refine fun i s => ⟨fun f h => ?_, exec_ne_refused i s⟩
  by_cases hn : i = .upNextBit
  · subst hn
    obtain ⟨-, hf, hread⟩ := execUpNextBit_fault h
    exact ⟨.inl rfl, _, hf, hread⟩
  · by_cases hd : i = .decStep
    · subst hd
      obtain ⟨j, -, -, hread, hf⟩ := execDecStep_fault h
      exact ⟨.inr rfl, _, hf, hread⟩
    · obtain ⟨t, ht⟩ := exec_answers hn hd s
      cases ht.symm.trans h

/-- A read that succeeds has found every byte it covers written. -/
theorem read_ne_none_of_memRead {v : Word} (h : memRead m a n = .ok v) {j : Nat} (hlo : a ≤ j) (hhi : j < a + n) :
    m.read j ≠ none := by
  induction n generalizing a v with
  | zero => omega
  | succ n ih =>
    simp only [memRead] at h
    split at h
    · cases h
    · next b hb =>
      split at h
      · cases h
      · next _ hrest =>
        by_cases hj : j = a
        · simp [hj, Memory.load_eq_ok.1 hb]
        · exact ih hrest (by omega) (by omega)

/-- A payload read in range that meets an unwritten byte is that model fault. -/
theorem serve_readPay_error {size : Size} {f : Fault} (h : payAccessOk s.params a size = true)
    (hf : memRead s.pay a size.bytes = .error f) : serve (.read .pay a size) s = .fault f := by
  rw [serve, if_pos h, hf]

/-- Settles O50: the read cannot succeed, and its fault names an unwritten byte it covers. -/
theorem unwrittenPayloadReadFaults : Obligations.UnwrittenPayloadReadFaults := by
  intro s a size halign hfit ⟨j, hlo, hhi, hnone⟩
  have hok : payAccessOk s.params a size = true := decide_eq_true ⟨halign, hfit⟩
  cases hr : memRead s.pay a size.bytes with
  | ok v => exact absurd hnone (read_ne_none_of_memRead hr hlo hhi)
  | error f =>
    obtain ⟨k, hlo', hhi', rfl, hread⟩ := memRead_eq_error hr
    exact ⟨k, hlo', hhi', hread, serve_readPay_error hok hr⟩

end Sys2Proof.Machine
end

section
/-! PROOFS. The reset inputs (70_reset_and_hazards.md R153, R154): what the step that takes one leaves. -/

namespace Sys2Proof.Machine

variable {s : State} {rest : List PortEvent} {kind : ResetKind} {cuts : Bool}

/-- The step with a reset as the oldest event. -/
theorem step_reset (h : s.pending = .reset kind cuts :: rest) :
    step s = .next (resetState kind cuts { s with pending := rest }) := by
  rw [step, stepPort, h]
  rfl

/-- A reset answers OK to nothing (R154). -/
theorem resetState_answer_ne_ok (kind : ResetKind) (cuts : Bool) (s : State) (data : Option Word) :
    (resetState kind cuts s).answer ≠ some (.ok data) := by
  rw [resetState_answer]
  cases cuts <;> nofun

/-- PAY after a reset, offset by offset (R153, R154). -/
theorem resetState_pay_read (kind : ResetKind) (cuts : Bool) (s : State) (a : Nat) :
    (resetState kind cuts s).pay.read a =
      if kind = .powerOn then none
      else if cuts = true ∧ s.packer.wptr.toNat ≤ a ∧ a < s.packer.wptr.toNat + 32 then none
      else s.pay.read a := by
  cases kind with
  | powerOn => rfl
  | hardware =>
    cases cuts with
    | false => simp
    | true => simp [Memory.read_clearMarks]

/-- Settles O51: the step is `resetState`, which is the reset state but for PAY, the remaining events and the answer. -/
theorem resetsGiveTheResetState : Obligations.ResetsGiveTheResetState := by
  intro s rest kind cuts h
  exact ⟨_, step_reset h, rfl, resetState_answer_ne_ok kind cuts _, resetState_pay_read kind cuts _⟩

end Sys2Proof.Machine
end
